-- ==== Sys2Proof/Word.lean ====
section
/-! DEFINITION. The fixed-width words of the CORE: bytes and 64-bit physical words. A host address and a
buffer length are unsigned integers, `Nat` (30_encoding.md R57): their width is a parameter of the CORE (log 3). -/

namespace Sys2Proof

/-- One byte of host memory (20_memory.md R30). -/
abbrev Byte := BitVec 8

/-- A 64-bit physical register or round-key store entry (10_state.md R10, R13). A word of a variant
is a `BitVec w` with `w` its word width; in a physical word its bits `w .. 63` are zero. -/
abbrev PWord := BitVec 64

end Sys2Proof
end

