-- ==== Sys2Proof/Machine/Arith.lean ====
section
/-! DEFINITION. The datapath primitives on words of `w` bits (40_arithmetic.md). The masking obligation R79 is
discharged by the type: a `BitVec w` has no bit `w` or above. -/

namespace Sys2Proof.Machine

variable {w : Nat}

/-- `mask_w(v) = v mod 2^w` (R71). -/
def maskW (w v : Nat) : BitVec w := BitVec.ofNat w v

/-- `rotl(n, s) = ((n << s) | (n >> (w - s))) mod 2^w` (R72). Used for `0 < s < w` only (U10, log 14). -/
def rotl (n : BitVec w) (s : Nat) : BitVec w := (n <<< s) ||| (n >>> (w - s))

/-- `rotr(n, s) = rotl(n, w - s)` (R73). -/
def rotr (n : BitVec w) (s : Nat) : BitVec w := rotl n (w - s)

/-- `not_w(n)`: the complement within `w` bits (R74). -/
def notW (n : BitVec w) : BitVec w := ~~~n

/-- `add_w(a, b) = (a + b) mod 2^w` (R75); the carry is discarded. -/
def addW (a b : BitVec w) : BitVec w := a + b

/-- `sub_w(a, b) = (a - b) mod 2^w` (R76); no borrow is recorded. -/
def subW (a b : BitVec w) : BitVec w := a - b

/-- The nonlinear core `f(v) = (rotl(v,1) AND rotl(v,8)) XOR rotl(v,2)` (R78). -/
def fW (v : BitVec w) : BitVec w := (rotl v 1 &&& rotl v 8) ^^^ rotl v 2

end Sys2Proof.Machine
end

