-- ==== Sys2Proof/Config.lean ====
section
/-! DEFINITION. What an implementation fixes and the spec leaves open: the variants a CORE supports, what its
parameters are made of, and the free values. -/

namespace Sys2Proof

/-- The 20 variants in scope (30_encoding.md R53): family, block bits, key bits. -/
inductive Variant where
  | bm32_64 | bm48_72 | bm48_96 | bm64_96 | bm64_128 | bm96_96 | bm96_144 | bm128_128 | bm128_192 | bm128_256
  | am32_64 | am48_72 | am48_96 | am64_96 | am64_128 | am96_96 | am96_144 | am128_128 | am128_192 | am128_256
  deriving DecidableEq, Repr, Inhabited

/-! ### What the parameters of a CORE are made of (00_scope.md R6); the parameters are in Machine/Parameters.lean -/

/-- The two candidate maps from key words to seed slots (42_key_schedule.md R103). -/
inductive KeyMap where
  /-- `S[j] = KW[j]`. -/
  | direct
  /-- `S[j] = KW[m-1-j]`. -/
  | reversed
  deriving DecidableEq, Repr, Inhabited

/-- The two candidate orders of the block halves in a buffer (20_memory.md R35). -/
inductive HalfOrder where
  /-- The first half of the buffer is `x`. -/
  | xFirst
  /-- The first half of the buffer is `y`. -/
  | yFirst
  deriving DecidableEq, Repr, Inhabited

/-- The three named shift registers (41_constant_source.md R94). -/
inductive ShiftReg where
  | u | v | w
  deriving DecidableEq, Repr, Inhabited

/-- The names of the 62-bit tables, the five sequences of R97. DESIGN CHOICE: a CORE has at most five distinct tables, the
bound of 20_memory.md R30, although C4 and N4 leave their number open (log 24). -/
inductive ZName where
  | z0 | z1 | z2 | z3 | z4
  deriving DecidableEq, Repr, Inhabited

/-- A constant source of the BooleanMix key schedule: the live shift register U or a table (00_scope.md R6, 30_encoding.md
R56). No variant selects the registers V and W (41_constant_source.md R95, C9). -/
inductive ConstSource where
  | registerU
  | table (z : ZName)
  deriving DecidableEq, Repr, Inhabited

/-- Where a further tap bit is taken from (41_constant_source.md R94, R98): a bit of the register before the step, or
a bit of the value after the conditional XOR with 37. -/
inductive TapSource where
  | before (bit : Fin 5)
  | after (bit : Fin 5)
  deriving DecidableEq, Repr, Inhabited

/-- One further tap bit of a register: its source, and the bit it is XORed into (R94). -/
structure Tap where
  source : TapSource
  dest   : Fin 5
  deriving DecidableEq, Repr, Inhabited

/-- `LFSR_TAP[reg]` of the three registers; none for a register without a further tap (R98). -/
structure Taps where
  u : Option Tap
  v : Option Tap
  w : Option Tap
  deriving DecidableEq, Repr, Inhabited

/-- The contents of the 62-bit tables, `z[j]` at bit `j` (41_constant_source.md R92, R97). That there are five is the
model's choice (log 24). -/
structure Tables where
  z0 : BitVec 62
  z1 : BitVec 62
  z2 : BitVec 62
  z3 : BitVec 62
  z4 : BitVec 62
  deriving DecidableEq, Repr, Inhabited

/-! ### Free values -/

/-- A free 64-bit value, for the `n`-th time values are left open and the place `slot` (log 9, log 11). -/
opaque Config.freeWord : (n slot : Nat) → BitVec 64

/-- A free number, for a command operand that holds no value (log 9). -/
opaque Config.freeNat : (n slot : Nat) → Nat

/-- A free sequence of words, for a transient register file that holds no value (log 9). -/
opaque Config.freeWords : (n slot : Nat) → List (BitVec 64)

/-- A free round-key store entry, for the `n`-th time entries are left open and the entry `i` (log 10, log 11). -/
opaque Config.freeRk : (n i : Nat) → BitVec 64

end Sys2Proof
end

