-- ==== Sys2Proof/Syntax.lean ====
section
/-! DEFINITION. The command tuple a host presents, and the instructions: one constructor per row of
spec/opcode_table.json. -/

namespace Sys2Proof

/-- A buffer descriptor `(BASE, LEN)` (20_memory.md R32). -/
structure Desc where
  base : Nat
  len  : Nat
  deriving DecidableEq, Repr, Inhabited

/-- A command as presented at the port: `CMD` and the two descriptors `A`, `B` (10_state.md R22). -/
structure Command where
  cmd : BitVec 8
  a   : Desc
  b   : Desc
  deriving DecidableEq, Repr, Inhabited

/-- The instructions: the 20 forms of CONSTRUCT, each with its key buffer, ENCRYPT and DECRYPT with
destination and source, and BLOCKSIZE (30_encoding.md R51, R53). A descriptor that a command ignores
(R51) is no operand. -/
inductive Instr where
  | constructBm32_64   (key : Desc)
  | constructBm48_72   (key : Desc)
  | constructBm48_96   (key : Desc)
  | constructBm64_96   (key : Desc)
  | constructBm64_128  (key : Desc)
  | constructBm96_96   (key : Desc)
  | constructBm96_144  (key : Desc)
  | constructBm128_128 (key : Desc)
  | constructBm128_192 (key : Desc)
  | constructBm128_256 (key : Desc)
  | constructAm32_64   (key : Desc)
  | constructAm48_72   (key : Desc)
  | constructAm48_96   (key : Desc)
  | constructAm64_96   (key : Desc)
  | constructAm64_128  (key : Desc)
  | constructAm96_96   (key : Desc)
  | constructAm96_144  (key : Desc)
  | constructAm128_128 (key : Desc)
  | constructAm128_192 (key : Desc)
  | constructAm128_256 (key : Desc)
  | encrypt (dst src : Desc)
  | decrypt (dst src : Desc)
  | blocksize
  deriving DecidableEq, Repr

end Sys2Proof
end

