-- ==== Sys2Proof/WellFormed.lean ====
section
/-! DEFINITION. Well-formed instructions: every descriptor the instruction uses lies inside the address space. -/

namespace Sys2Proof

/-- The buffer `BASE .. BASE+LEN-1` does not wrap past the top of the address space (20_memory.md R32). -/
def Desc.fits (d : Desc) (addrBits : Nat) : Bool := decide (d.base + d.len ≤ 2 ^ addrBits)

/-- Every descriptor the instruction uses fits (R32). Descriptors a command ignores are not checked (U13);
an instruction that is not well-formed still executes, with `STATUS <- IllegalCommand` (R152). -/
def Instr.wellFormed (addrBits : Nat) : Instr → Bool
  | .constructBm32_64 key | .constructBm48_72 key | .constructBm48_96 key | .constructBm64_96 key
  | .constructBm64_128 key | .constructBm96_96 key | .constructBm96_144 key | .constructBm128_128 key
  | .constructBm128_192 key | .constructBm128_256 key
  | .constructAm32_64 key | .constructAm48_72 key | .constructAm48_96 key | .constructAm64_96 key
  | .constructAm64_128 key | .constructAm96_96 key | .constructAm96_144 key | .constructAm128_128 key
  | .constructAm128_192 key | .constructAm128_256 key => key.fits addrBits
  | .encrypt dst src | .decrypt dst src => dst.fits addrBits && src.fits addrBits
  | .blocksize => true

end Sys2Proof
end

