-- ==== Sys2Proof/Decode.lean ====
section
/-! DEFINITION. Decoding a command to an instruction, refusing by name, and the encoder; the grouping of the
instructions by operation. -/

namespace Sys2Proof

/-- The `VSEL` code of a variant (30_encoding.md R52, R53): bit 4 the family, bits 3:0 the size index. -/
def Variant.vsel : Variant → BitVec 5
  | .bm32_64   => 0b00000
  | .bm48_72   => 0b00001
  | .bm48_96   => 0b00010
  | .bm64_96   => 0b00011
  | .bm64_128  => 0b00100
  | .bm96_96   => 0b00101
  | .bm96_144  => 0b00110
  | .bm128_128 => 0b00111
  | .bm128_192 => 0b01000
  | .bm128_256 => 0b01001
  | .am32_64   => 0b10000
  | .am48_72   => 0b10001
  | .am48_96   => 0b10010
  | .am64_96   => 0b10011
  | .am64_128  => 0b10100
  | .am96_96   => 0b10101
  | .am96_144  => 0b10110
  | .am128_128 => 0b10111
  | .am128_192 => 0b11000
  | .am128_256 => 0b11001

/-- The variant a `VSEL` code names, or none for a reserved code: size indexes 10 to 15 (R52, R59 (b)). -/
def Variant.ofVsel (c : BitVec 5) : Option Variant :=
  match c.toNat with
  | 0  => some .bm32_64
  | 1  => some .bm48_72
  | 2  => some .bm48_96
  | 3  => some .bm64_96
  | 4  => some .bm64_128
  | 5  => some .bm96_96
  | 6  => some .bm96_144
  | 7  => some .bm128_128
  | 8  => some .bm128_192
  | 9  => some .bm128_256
  | 16 => some .am32_64
  | 17 => some .am48_72
  | 18 => some .am48_96
  | 19 => some .am64_96
  | 20 => some .am64_128
  | 21 => some .am96_96
  | 22 => some .am96_144
  | 23 => some .am128_128
  | 24 => some .am128_192
  | 25 => some .am128_256
  | _  => none

/-- The CONSTRUCT instruction of a variant. -/
def Instr.construct (v : Variant) (key : Desc) : Instr :=
  match v with
  | .bm32_64   => .constructBm32_64 key
  | .bm48_72   => .constructBm48_72 key
  | .bm48_96   => .constructBm48_96 key
  | .bm64_96   => .constructBm64_96 key
  | .bm64_128  => .constructBm64_128 key
  | .bm96_96   => .constructBm96_96 key
  | .bm96_144  => .constructBm96_144 key
  | .bm128_128 => .constructBm128_128 key
  | .bm128_192 => .constructBm128_192 key
  | .bm128_256 => .constructBm128_256 key
  | .am32_64   => .constructAm32_64 key
  | .am48_72   => .constructAm48_72 key
  | .am48_96   => .constructAm48_96 key
  | .am64_96   => .constructAm64_96 key
  | .am64_128  => .constructAm64_128 key
  | .am96_96   => .constructAm96_96 key
  | .am96_144  => .constructAm96_144 key
  | .am128_128 => .constructAm128_128 key
  | .am128_192 => .constructAm128_192 key
  | .am128_256 => .constructAm128_256 key

/-- The four operations of R51, with their operands. -/
inductive Operation where
  | construct (v : Variant) (key : Desc)
  | encrypt (dst src : Desc)
  | decrypt (dst src : Desc)
  | blocksize
  deriving DecidableEq, Repr

/-- Which operation an instruction is (R51). -/
def Instr.operation : Instr → Operation
  | .constructBm32_64 key   => .construct .bm32_64 key
  | .constructBm48_72 key   => .construct .bm48_72 key
  | .constructBm48_96 key   => .construct .bm48_96 key
  | .constructBm64_96 key   => .construct .bm64_96 key
  | .constructBm64_128 key  => .construct .bm64_128 key
  | .constructBm96_96 key   => .construct .bm96_96 key
  | .constructBm96_144 key  => .construct .bm96_144 key
  | .constructBm128_128 key => .construct .bm128_128 key
  | .constructBm128_192 key => .construct .bm128_192 key
  | .constructBm128_256 key => .construct .bm128_256 key
  | .constructAm32_64 key   => .construct .am32_64 key
  | .constructAm48_72 key   => .construct .am48_72 key
  | .constructAm48_96 key   => .construct .am48_96 key
  | .constructAm64_96 key   => .construct .am64_96 key
  | .constructAm64_128 key  => .construct .am64_128 key
  | .constructAm96_96 key   => .construct .am96_96 key
  | .constructAm96_144 key  => .construct .am96_144 key
  | .constructAm128_128 key => .construct .am128_128 key
  | .constructAm128_192 key => .construct .am128_192 key
  | .constructAm128_256 key => .construct .am128_256 key
  | .encrypt dst src        => .encrypt dst src
  | .decrypt dst src        => .decrypt dst src
  | .blocksize              => .blocksize

/-- The `OP` field, bits 7:5 of the command word (R50). -/
def Command.op (c : Command) : BitVec 3 := c.cmd.extractLsb' 5 3

/-- The `VSEL` field, bits 4:0 of the command word (R50). -/
def Command.vsel (c : Command) : BitVec 5 := c.cmd.extractLsb' 0 5

/-- Why a command word is refused (R59). -/
inductive DecodeError where
  /-- (a) `OP` is 0b000, 0b101, 0b110 or 0b111. -/
  | reservedOp
  /-- (b) CONSTRUCT with `VSEL[3:0]` in 10 .. 15. -/
  | reservedVsel
  /-- (c) ENCRYPT, DECRYPT or BLOCKSIZE with a `VSEL` field that is not zero. -/
  | strayVsel
  deriving DecidableEq, Repr

/-- A command outside CONSTRUCT: its `VSEL` field must be zero (R50, R59 (c)). -/
def decodeNoVsel (c : Command) (i : Instr) : Except DecodeError Instr :=
  if c.vsel = 0 then .ok i else .error .strayVsel

/-- Decoding, total on command words (R50 to R53, R59). Descriptor `A` is the key buffer of CONSTRUCT and the
destination of ENCRYPT and DECRYPT; `B` is their source; an ignored descriptor is dropped (R51). -/
def decode (c : Command) : Except DecodeError Instr :=
  match c.op.toNat with
  | 1 =>
    match Variant.ofVsel c.vsel with
    | some v => .ok (Instr.construct v c.a)
    | none   => .error .reservedVsel
  | 2 => decodeNoVsel c (.encrypt c.a c.b)
  | 3 => decodeNoVsel c (.decrypt c.a c.b)
  | 4 => decodeNoVsel c .blocksize
  | _ => .error .reservedOp

/-- The descriptor that stands where a command has none: all zeros. -/
def Desc.zero : Desc := ⟨0, 0⟩

/-- The command that encodes an instruction: the word of R53 or R51 and its descriptors (R61); a descriptor
the command ignores is zero. -/
def encode (i : Instr) : Command :=
  match i.operation with
  | .construct v key => ⟨(0b001 : BitVec 3) ++ v.vsel, key, Desc.zero⟩
  | .encrypt dst src => ⟨0x40, dst, src⟩
  | .decrypt dst src => ⟨0x60, dst, src⟩
  | .blocksize       => ⟨0x80, Desc.zero, Desc.zero⟩

/-- A descriptor as the command port takes it: the low `ADDR_BITS` bits of each of its numbers (R57, log 3). -/
def Desc.atPort (addrBits : Nat) (d : Desc) : Desc := ⟨d.base % 2 ^ addrBits, d.len % 2 ^ addrBits⟩

/-- A command as the command port takes it. -/
def Command.atPort (addrBits : Nat) (c : Command) : Command := ⟨c.cmd, c.a.atPort addrBits, c.b.atPort addrBits⟩

/-- The command whose bits are `w`: the command word in bits 7:0 and then, as the model lays them out (log 13),
`A_BASE`, `A_LEN`, `B_BASE`, `B_LEN` in 64 bits each; every bit at `nbits` and above is 0. -/
def Command.ofBits (nbits w : Nat) : Command :=
  let u := w % 2 ^ nbits
  let field (k : Nat) : Nat := (u >>> (8 + 64 * k)) % 2 ^ 64
  ⟨BitVec.ofNat 8 u, ⟨field 0, field 1⟩, ⟨field 2, field 3⟩⟩

/-- The instruction the decoder reads from a command whose bits are `w`, none where it refuses. -/
def decodeTableWord (nbits w : Nat) : Option Instr :=
  (decode (Command.ofBits nbits w)).toOption

end Sys2Proof
end

