-- ==== Sys2Proof/Machine/Descriptor.lean ====
section
/-! DEFINITION. The variant descriptor table and its derived fields (30_encoding.md R53 to R55). -/

namespace Sys2Proof

/-- The two cipher families (00_scope.md R1). -/
inductive Family where
  | booleanMix | addMix
  deriving DecidableEq, Repr

/-- The three round shapes (30_encoding.md R54). -/
inductive Shape where
  | double | swap | add
  deriving DecidableEq, Repr

/-- One row of the descriptor table R53: family, word width `w`, key words `m`, rounds `T`. -/
structure Row where
  family : Family
  w      : Nat
  m      : Nat
  T      : Nat
  deriving DecidableEq, Repr

/-- The descriptor table (R53). -/
def Variant.row : Variant → Row
  | .bm32_64   => ⟨.booleanMix, 16, 4, 32⟩
  | .bm48_72   => ⟨.booleanMix, 24, 3, 36⟩
  | .bm48_96   => ⟨.booleanMix, 24, 4, 36⟩
  | .bm64_96   => ⟨.booleanMix, 32, 3, 42⟩
  | .bm64_128  => ⟨.booleanMix, 32, 4, 44⟩
  | .bm96_96   => ⟨.booleanMix, 48, 2, 52⟩
  | .bm96_144  => ⟨.booleanMix, 48, 3, 54⟩
  | .bm128_128 => ⟨.booleanMix, 64, 2, 68⟩
  | .bm128_192 => ⟨.booleanMix, 64, 3, 69⟩
  | .bm128_256 => ⟨.booleanMix, 64, 4, 72⟩
  | .am32_64   => ⟨.addMix, 16, 4, 22⟩
  | .am48_72   => ⟨.addMix, 24, 3, 22⟩
  | .am48_96   => ⟨.addMix, 24, 4, 23⟩
  | .am64_96   => ⟨.addMix, 32, 3, 26⟩
  | .am64_128  => ⟨.addMix, 32, 4, 27⟩
  | .am96_96   => ⟨.addMix, 48, 2, 28⟩
  | .am96_144  => ⟨.addMix, 48, 3, 29⟩
  | .am128_128 => ⟨.addMix, 64, 2, 32⟩
  | .am128_192 => ⟨.addMix, 64, 3, 33⟩
  | .am128_256 => ⟨.addMix, 64, 4, 34⟩

/-- The family of a variant. -/
def Variant.family (v : Variant) : Family := v.row.family

/-- `w`: the word width in bits. -/
def Variant.w (v : Variant) : Nat := v.row.w

/-- `m`: the number of key words. -/
def Variant.m (v : Variant) : Nat := v.row.m

/-- `T`: the number of rounds and of round keys. -/
def Variant.T (v : Variant) : Nat := v.row.T

/-- `n = w/8`: bytes per word (R54). -/
def Variant.n (v : Variant) : Nat := v.w / 8

/-- `KEYBYTES = n*m`: the one valid key length (R54, 42_key_schedule.md R101). -/
def Variant.keyBytes (v : Variant) : Nat := v.n * v.m

/-- `BLOCKBYTES = 2n`: the block size in bytes (R54). -/
def Variant.blockBytes (v : Variant) : Nat := 2 * v.n

/-- `SHAPE`: ADD for AddMix; in BooleanMix SWAP for `w = 64`, else DOUBLE (R54, 43_round_transform.md R142). -/
def Variant.shape (v : Variant) : Shape :=
  match v.family with
  | .addMix     => .add
  | .booleanMix => if v.w = 64 then .swap else .double

/-- `A`: the right rotation of AddMix, 7 at 16 bits and 8 at every other width (R55). -/
def Variant.rotA (v : Variant) : Nat := if v.w = 16 then 7 else 8

/-- `B`: the left rotation of AddMix, 2 at 16 bits and 3 at every other width (R55). -/
def Variant.rotB (v : Variant) : Nat := if v.w = 16 then 2 else 3

/-- `r1`: the first right rotation of the BooleanMix key schedule (R55, 92_eei_decisions.md D9). -/
def ksRot1 : Nat := 3

/-- `r2`: the second right rotation of the BooleanMix key schedule (R55, D9). -/
def ksRot2 : Nat := 1

end Sys2Proof
end

