-- ==== Sys2Proof/Machine/ConstSource.lean ====
section
/-! DEFINITION. The key-schedule constant source: the 62-bit tables and the 5-bit shift registers
(41_constant_source.md). -/

namespace Sys2Proof

/-- `LFSR_TAP[reg]` (00_scope.md R6). -/
def Taps.get (t : Taps) : ShiftReg → Option Tap
  | .u => t.u
  | .v => t.v
  | .w => t.w

/-- The contents of a table. -/
def Tables.get (t : Tables) : ZName → BitVec 62
  | .z0 => t.z0
  | .z1 => t.z1
  | .z2 => t.z2
  | .z3 => t.z3
  | .z4 => t.z4

namespace Machine

/-- The further tap bit of a register as a mask: its source bit, moved to the bit it is XORed into (R94). `r` is the
register before the step and `t` the value after the conditional XOR with 37. -/
def lfsrTap (tap : Option Tap) (r : BitVec 5) (t : BitVec 6) : BitVec 6 :=
  match tap with
  | none   => 0
  | some ⟨source, dest⟩ =>
    let bit := match source with
      | .before b => r.getLsbD b.val
      | .after b  => t.getLsbD b.val
    if bit then 1 <<< dest.val else 0

/-- The feedback of a register: the value doubled, and 37 XORed in when bit 5 of that is set (R94). -/
def lfsrFeedback (r : BitVec 5) : BitVec 6 :=
  let t := r.setWidth 6 <<< 1
  if t.getLsbD 5 then t ^^^ 37 else t

/-- One step of a register (R94). -/
def lfsrStep (tap : Option Tap) (r : BitVec 5) : BitVec 5 :=
  (lfsrFeedback r ^^^ lfsrTap tap r (lfsrFeedback r)).setWidth 5

/-- The output of a register before a step: its lowest bit (R93). -/
def lfsrOut (r : BitVec 5) : Bool := r.getLsbD 0

/-- The register after `j` steps from its initial value 1 (R93). -/
def lfsrAfter (tap : Option Tap) : Nat → BitVec 5
  | 0     => 1
  | j + 1 => lfsrStep tap (lfsrAfter tap j)

/-- Bit `j` of the 62-bit constant of a constant source, `j < 62`: the table's (R92), or the output of register U at step
`j`, which is what its table holds (R96). -/
def sourceBit (taps : Taps) (tables : Tables) (source : ConstSource) (j : Nat) : Bool :=
  match source with
  | .registerU => lfsrOut (lfsrAfter taps.u j)
  | .table z   => (tables.get z).getLsbD j

/-- The 28 constant bits that BM32_64 consumes, the first one at bit 0: `1111101000100101011000011100`, pinned by the
source's known vector (91_not_in_source.md N3, 90_conflicts.md C8, C9). -/
def knownBits : BitVec 28 := 0x386A45F

/-- A constant source gives the 28 pinned bits. -/
def pinsKnownBits (taps : Taps) (tables : Tables) (source : ConstSource) : Bool :=
  (List.range 28).all fun j => sourceBit taps tables source j == knownBits.getLsbD j

end Machine

end Sys2Proof
end

