-- ==== Sys2Proof/Machine/Parameters.lean ====
section
/-! DEFINITION. The parameters of a CORE and what the source settles of them, their values per variant, and the setting
that State.reset holds. -/

namespace Sys2Proof

/-- The parameters the source leaves open, which a model takes as configuration (00_scope.md R6, 93 U15 to U17). What
the source settles of them stays settled: `KEYMAP` of BM32_64, `HALFORDER` of BooleanMix below 64 bits and that a wider
BooleanMix variant has a table (R56) are no fields, and `pinned` holds the 28 constant bits of BM32_64. `BUS_BINDING` has
no field: no rule depends on it (R46, log 20). -/
structure Parameters where
  /-- `ADDR_BITS`: the width of a host address and of a buffer length. -/
  addrBits   : Nat
  /-- `ZTABLE`: the contents of the tables. -/
  tables     : Tables
  /-- `CSRC[BM32_64]`: register U or a table. -/
  csrcSmall  : ConstSource
  /-- `CSRC` of BM48_72, BM48_96, BM64_96, BM64_128, BM96_96, BM96_144, BM128_128, BM128_192, BM128_256. -/
  csrcWide   : Vector ZName 9
  /-- `LFSR_TAP`. -/
  taps       : Taps
  /-- `KEYMAP` of the 19 variants after BM32_64, in the order of `Variant`. -/
  keymaps    : Vector KeyMap 19
  /-- `HALFORDER` of the 13 variants from BM128_128 on, in the order of `Variant`. -/
  halfOrders : Vector HalfOrder 13
  /-- The source of BM32_64 gives the bits that the known vector pins (R6, C8, U16). -/
  pinned     : Machine.pinsKnownBits taps tables csrcSmall = true
  deriving DecidableEq, Repr

/-- `CSRC[v]` (30_encoding.md R56): BM32_64 alone may use register U, a wider BooleanMix variant uses a table,
an AddMix variant has no constant source. -/
def Parameters.csrc (p : Parameters) : Variant → Option ConstSource
  | .bm32_64   => some p.csrcSmall
  | .bm48_72   => some (.table p.csrcWide[0])
  | .bm48_96   => some (.table p.csrcWide[1])
  | .bm64_96   => some (.table p.csrcWide[2])
  | .bm64_128  => some (.table p.csrcWide[3])
  | .bm96_96   => some (.table p.csrcWide[4])
  | .bm96_144  => some (.table p.csrcWide[5])
  | .bm128_128 => some (.table p.csrcWide[6])
  | .bm128_192 => some (.table p.csrcWide[7])
  | .bm128_256 => some (.table p.csrcWide[8])
  | .am32_64 | .am48_72 | .am48_96 | .am64_96 | .am64_128
  | .am96_96 | .am96_144 | .am128_128 | .am128_192 | .am128_256 => none

/-- `CBIT_v(j) = (ZTABLE[v] >> (j mod 62)) AND 1` (R91, R92), the normative definition for every BooleanMix
variant (R96, 92_eei_decisions.md D23). An AddMix variant has no constant source and reads none. -/
def Machine.cbit (p : Parameters) (v : Variant) (j : Nat) : Bool :=
  match p.csrc v with
  | some source => sourceBit p.taps p.tables source (j % 62)
  | none        => false

/-- `KEYMAP[v]`: REVERSED for BM32_64, settled by the known vector; a parameter for every other variant
(42_key_schedule.md R103, D7; log 4). -/
def Parameters.keymap (p : Parameters) : Variant → KeyMap
  | .bm32_64   => .reversed
  | .bm48_72   => p.keymaps[0]
  | .bm48_96   => p.keymaps[1]
  | .bm64_96   => p.keymaps[2]
  | .bm64_128  => p.keymaps[3]
  | .bm96_96   => p.keymaps[4]
  | .bm96_144  => p.keymaps[5]
  | .bm128_128 => p.keymaps[6]
  | .bm128_192 => p.keymaps[7]
  | .bm128_256 => p.keymaps[8]
  | .am32_64   => p.keymaps[9]
  | .am48_72   => p.keymaps[10]
  | .am48_96   => p.keymaps[11]
  | .am64_96   => p.keymaps[12]
  | .am64_128  => p.keymaps[13]
  | .am96_96   => p.keymaps[14]
  | .am96_144  => p.keymaps[15]
  | .am128_128 => p.keymaps[16]
  | .am128_192 => p.keymaps[17]
  | .am128_256 => p.keymaps[18]

/-- `HALFORDER[v]`: X_FIRST for BooleanMix at 16 to 48 bits; a parameter for BM128_* and AddMix
(20_memory.md R35, D8; log 5). -/
def Parameters.halfOrder (p : Parameters) : Variant → HalfOrder
  | .bm32_64 | .bm48_72 | .bm48_96 | .bm64_96 | .bm64_128 | .bm96_96 | .bm96_144 => .xFirst
  | .bm128_128 => p.halfOrders[0]
  | .bm128_192 => p.halfOrders[1]
  | .bm128_256 => p.halfOrders[2]
  | .am32_64   => p.halfOrders[3]
  | .am48_72   => p.halfOrders[4]
  | .am48_96   => p.halfOrders[5]
  | .am64_96   => p.halfOrders[6]
  | .am64_128  => p.halfOrders[7]
  | .am96_96   => p.halfOrders[8]
  | .am96_144  => p.halfOrders[9]
  | .am128_128 => p.halfOrders[10]
  | .am128_192 => p.halfOrders[11]
  | .am128_256 => p.halfOrders[12]

/-! ### The setting of State.reset: the spec's defaults -/

/-- The table contents (R97). PRESUMED: general knowledge, not in the spec's source (log 6). -/
def Tables.default : Tables where
  z0 := 0x19C3522FB386A45F
  z1 := 0x16864FB8AD0C9F71
  z2 := 0x3369F885192C0EF5
  z3 := 0x3C2CE51207A635DB
  z4 := 0x3DC94C3A046D678B

/-- The taps (R98). PRESUMED: a realisation found by search, not in the spec's source (log 7). -/
def Taps.default : Taps where
  u := some ⟨.before 0, 0⟩
  v := some ⟨.before 2, 4⟩
  w := none

/-- The spec's defaults: `ADDR_BITS` 64 (92 D5, log 3), `ZTABLE`, `CSRC` and `LFSR_TAP` from general knowledge (D23,
log 6, log 7), `KEYMAP` and `HALFORDER` of D7 and D8 (log 4, log 5). State.reset holds them, so that a run can be
computed; a statement over all states holds for every setting. -/
def Parameters.default : Parameters where
  addrBits   := 64
  tables     := Tables.default
  csrcSmall  := .registerU
  csrcWide   := #v[.z0, .z1, .z2, .z3, .z2, .z3, .z2, .z3, .z4]
  taps       := Taps.default
  keymaps    := #v[.reversed, .reversed, .reversed, .reversed, .reversed, .reversed, .direct, .direct, .direct,
                   .direct, .direct, .direct, .direct, .direct, .direct, .direct, .direct, .direct, .direct]
  halfOrders := Vector.replicate 13 .xFirst
  pinned     := by decide

end Sys2Proof
end

