-- ==== Sys2Proof/Machine/State.lean ====
section
/-! DEFINITION. The state of the CORE and of its host, as plain data, and the state right after reset. -/

namespace Sys2Proof.Machine

/-- The life-cycle state `PHASE` (10_state.md R11). -/
inductive Phase where
  /-- Code 0: no cipher has been constructed. -/
  | unconstructed
  /-- Code 1: `VSEL_L` and `RK[0 .. T-1]` hold a complete round-key array. -/
  | keyExpanded
  deriving DecidableEq, Repr, Inhabited

/-- The outcomes `STATUS` can hold (30_encoding.md R58); codes 5, 6, 7 are never produced (U4). -/
inductive Status where
  | ok | invalidKeyLength | bufferTooShort | notConstructed | illegalCommand
  deriving DecidableEq, Repr, Inhabited

/-- The transient registers (10_state.md R14 to R18). Between commands they hold no value: every command leaves
free values in them (log 9). A word of `w` bits lies in the low bits of a physical word. -/
structure Scratch where
  /-- `X`, `Y`: the working pair (R14). -/
  x   : PWord
  y   : PWord
  /-- `I`: the round index (R15). -/
  i   : BitVec 7
  /-- `LR`: the live shift register of the constant source (R16). -/
  lr  : BitVec 5
  /-- `AUX`: the auxiliary stream of AddMix (R17). -/
  aux : List PWord
  /-- `KW[0 .. 3]`: the unpacked key words, `m` of them in use (R18). -/
  kw  : Vector PWord 4
  /-- `TMP`: scratch of one BooleanMix recurrence step (R18). -/
  tmp : PWord
  /-- The working copy `k[]` of the round keys being computed (R18). -/
  k   : List PWord
  deriving DecidableEq, Repr

/-- Host buffer memory `Mem` (20_memory.md R30): the bytes that differ from what an unlisted address reads as,
at strictly rising addresses (`Memory.wf` in Machine/Ops.lean). -/
abbrev Memory := List Host.Cell

/-- What the host may do between two commands: issue a command, write a byte of its memory (R5, R30), or
reset the CORE (70_reset_and_hazards.md R170). -/
inductive HostMove where
  | command (c : Command)
  | store (addr : Nat) (byte : Byte)
  | reset
  deriving DecidableEq, Repr

/-- The machine stops with a fault. -/
inductive Fault where
  /-- Raised by ENCRYPT, DECRYPT and BLOCKSIZE when `PHASE` is 1 and `VSEL_L` holds one of the twelve reserved
  codes. CONSTRUCT latches only legal codes (R12), so no run reaches such a state. Safe (log 12). -/
  | reservedVariantLatched
  deriving DecidableEq, Repr

/-- No meaning for the instruction. -/
inductive Refusal where
  /-- Raised by exec for an instruction the model gives no meaning. No arm of this model raises it. Safe. -/
  | notModelled (mnemonic : String)
  deriving DecidableEq, Repr

/-- The state: the persistent registers (10_state.md R10), the transient registers, the command being performed
(R22), host memory, and three fields of the model's own. -/
structure State where
  /-- `PHASE` (R11). -/
  phase   : Phase
  /-- `VSEL_L`: the latched variant selector (R12). -/
  vselL   : BitVec 5
  /-- `RK[0 .. 71]`: the round-key store (R13). -/
  rk      : Vector PWord 72
  /-- `STATUS` (R19). -/
  status  : Status
  /-- `RESULT` (R20). -/
  result  : BitVec 8
  /-- `X`, `Y`, `I`, `LR`, `AUX`, `KW`, `TMP`, `k[]` (R14 to R18). -/
  scratch : Scratch
  /-- `CMD`, `A_BASE`, `A_LEN`, `B_BASE`, `B_LEN`: the command being performed (R22). -/
  current : Command
  /-- `Mem` (20_memory.md R30). -/
  mem     : Memory
  /-- The model's own: the parameters of the CORE (00_scope.md R6). They are constants of the CORE, no state of it
  (R25, 30_encoding.md R62); they stand here as the argument of the model, which no step changes (log 23). -/
  params  : Parameters
  /-- The model's own: the host's moves still to come, the next one first (log 1). -/
  host    : List HostMove
  /-- The model's own: how many times values have been left free (log 9). -/
  fresh   : Nat
  deriving DecidableEq, Repr

/-- All transient registers at zero or empty, the model's choice for power-on (log 8). -/
def Scratch.zero : Scratch := ⟨0, 0, 0, 0, [], Vector.replicate 4 0, 0, []⟩

/-- The machine right after reset (70_reset_and_hazards.md R170): `PHASE`, `STATUS`, `RESULT` as the spec states;
every register the spec leaves unspecified is zero, a DESIGN CHOICE (log 8); nothing listed in memory (log 2);
the CORE idle, with no host move to come (log 1); the spec's defaults for its parameters (log 23). -/
def State.reset : State where
  phase   := .unconstructed
  vselL   := 0
  rk      := Vector.replicate 72 0
  status  := .ok
  result  := 0
  scratch := Scratch.zero
  current := ⟨0, Desc.zero, Desc.zero⟩
  mem     := []
  params  := Parameters.default
  host    := []
  fresh   := 0

end Sys2Proof.Machine
end

