-- ==== Sys2Proof/Machine/Ops.lean ====
section
/-! DEFINITION. The named operations on host memory and on the registers: byte and word access, the end of a
command, raising an error or a refusal, publishing a round-key array, reset. -/

namespace Sys2Proof.Machine

/-! ### Encodings of the named registers -/

/-- The 1-bit encoding of `PHASE` (10_state.md R11). -/
def Phase.code : Phase → BitVec 1
  | .unconstructed => 0
  | .keyExpanded   => 1

/-- The 3-bit encoding of `STATUS` (30_encoding.md R58). -/
def Status.code : Status → BitVec 3
  | .ok               => 0
  | .invalidKeyLength => 1
  | .bufferTooShort   => 2
  | .notConstructed   => 3
  | .illegalCommand   => 4

/-! ### Host memory -/

/-- What an address that memory does not list reads as: DESIGN CHOICE 0 (log 2). -/
def Memory.unlisted : Byte := 0

/-- A cell may be listed: its address lies inside the address space and its byte is not what an unlisted address
reads as. -/
def Memory.cellOk (addrBits : Nat) (c : Host.Cell) : Bool := decide (c.1 < 2 ^ addrBits) && decide (c.2 ≠ Memory.unlisted)

/-- The canonical form: strictly rising addresses, each cell one that may be listed. -/
def Memory.wf (addrBits : Nat) : Memory → Bool
  | []     => true
  | c :: m => Memory.cellOk addrBits c && m.all (fun d => decide (c.1 < d.1)) && Memory.wf addrBits m

/-- The byte at an address; memory is total (20_memory.md R31). -/
def Memory.read : Memory → Nat → Byte
  | [], _          => Memory.unlisted
  | (a, b) :: m, x => if x = a then b else Memory.read m x

/-- Takes an address out of the list, so that it reads as an unlisted one. -/
def Memory.unlist (m : Memory) (x : Nat) : Memory := m.filter fun c => decide (c.1 ≠ x)

/-- Lists a byte before the first cell of a higher address. -/
def Memory.enlist : Memory → Nat → Byte → Memory
  | [], x, c          => [(x, c)]
  | (a, b) :: m, x, c => if x < a then (x, c) :: (a, b) :: m else (a, b) :: Memory.enlist m x c

/-- Writes one byte and keeps the canonical form. -/
def Memory.write (m : Memory) (x : Nat) (c : Byte) : Memory :=
  if c = Memory.unlisted then m.unlist x else (m.unlist x).enlist x c

/-- `MemRead(addr, n)`: the `n` bytes at `addr` as a little-endian integer (00_scope.md R8, 20_memory.md R33). -/
def Memory.readLE (m : Memory) (addr : Nat) : Nat → Nat
  | 0     => 0
  | n + 1 => (m.read addr).toNat + 2 ^ 8 * Memory.readLE m (addr + 1) n

/-- `MemWrite(addr, n, v)`: stores byte `(v >> 8i) AND 0xFF` at `addr + i` (R8, R33). -/
def Memory.writeLE (m : Memory) (addr : Nat) : Nat → Nat → Memory
  | 0, _     => m
  | n + 1, v => Memory.writeLE (m.write addr (BitVec.ofNat 8 v)) (addr + 1) n (v >>> 8)

/-! ### The round-key store -/

/-- `RK[i]`, its low `w` bits, which are all of it in a store that holds a round-key array of that width
(10_state.md R13, 20_memory.md R41). -/
def State.rkWord (s : State) (w i : Nat) : BitVec w := (s.rk[i]?.getD 0).setWidth w

/-- The store after publishing `T` round keys: `RK[i] = k[i]` for `i < T`; the entries `T .. 71` are left
unspecified (42_key_schedule.md R110): free values (log 10). -/
def publishedRk (T : Nat) (k : List PWord) (fresh : Nat) : Vector PWord 72 :=
  Vector.ofFn fun i => if i.val < T then k.getD i.val 0 else Config.freeRk fresh i.val

/-! ### The end of a command -/

/-- Free values for the transient registers (log 9). -/
def freeScratch (n : Nat) : Scratch where
  x   := Config.freeWord n 0
  y   := Config.freeWord n 1
  i   := (Config.freeWord n 2).setWidth 7
  lr  := (Config.freeWord n 3).setWidth 5
  aux := Config.freeWords n 0
  kw  := Vector.ofFn fun i => Config.freeWord n (11 + i.val)
  tmp := Config.freeWord n 4
  k   := Config.freeWords n 1

/-- Free values for the command operands, of `ADDR_BITS` bits (log 9). -/
def freeCommand (addrBits n : Nat) : Command where
  cmd := (Config.freeWord n 5).setWidth 8
  a   := Desc.atPort addrBits ⟨Config.freeNat n 0, Config.freeNat n 1⟩
  b   := Desc.atPort addrBits ⟨Config.freeNat n 2, Config.freeNat n 3⟩

/-- A command has ended: the transient registers and the command operands hold no value
(70_reset_and_hazards.md R183, 60_exceptions.md R154): they take free values (log 9). -/
def State.endCommand (s : State) : State :=
  { s with scratch := freeScratch s.fresh, current := freeCommand s.params.addrBits s.fresh, fresh := s.fresh + 1 }

/-- `raise`: an error or a refusal. `STATUS <- code`, the command ends, nothing else of the architectural state
and no host byte changes (60_exceptions.md R152, R154). Nothing is saved and control goes nowhere; there is no
return, since the next command is accepted as after a success (R155). -/
def State.raise (s : State) (code : Status) : State := ({ s with status := code } : State).endCommand

/-- Publish (42_key_schedule.md R110): `RK[0 .. T-1]`, `VSEL_L`, `PHASE` and `STATUS` in one transition. -/
def State.publish (s : State) (v : Variant) (k : List PWord) : State :=
  ({ s with rk := publishedRk v.T k s.fresh, vselL := v.vsel, phase := .keyExpanded, status := .ok }
    : State).endCommand

/-- The end of a successful ENCRYPT or DECRYPT: memory as stored, `STATUS <- OK` (43_round_transform.md R120). -/
def State.finishStore (s : State) (mem : Memory) : State :=
  ({ s with mem := mem, status := .ok } : State).endCommand

/-- The end of a successful BLOCKSIZE: `RESULT` and `STATUS <- OK` (43_round_transform.md R138). -/
def State.finishResult (s : State) (r : BitVec 8) : State :=
  ({ s with result := r, status := .ok } : State).endCommand

/-! ### The host's moves -/

/-- The host issues a command: `CMD` and the descriptors are presented (10_state.md R22). -/
def State.issue (s : State) (c : Command) : State := { s with current := c }

/-- The host writes a byte of its own memory (R5, 20_memory.md R30). -/
def State.hostStore (s : State) (addr : Nat) (byte : Byte) : State :=
  { s with mem := s.mem.write addr byte }

/-- Reset (70_reset_and_hazards.md R170): `PHASE`, `STATUS`, `RESULT` to 0, host memory untouched, and every
register the spec leaves unspecified takes a free value (log 11). -/
def State.afterReset (s : State) : State :=
  ({ s with
      phase  := .unconstructed
      vselL  := (Config.freeWord s.fresh 10).setWidth 5
      rk     := Vector.ofFn fun i => Config.freeRk s.fresh i.val
      status := .ok
      result := 0 } : State).endCommand

end Sys2Proof.Machine
end

