-- ==== Sys2Proof/Machine/Operands.lean ====
section
/-! DEFINITION. The operand forms: buffer descriptors, the key buffer and the block buffers
(20_memory.md R32 to R35). There are no immediates and no other operands (30_encoding.md R57). -/

namespace Sys2Proof.Machine

/-- The buffer would wrap past the top of the address space: `BASE + LEN > 2^ADDR_BITS` (R32). -/
def wraps (addrBits : Nat) (d : Desc) : Bool := decide (2 ^ addrBits < d.base + d.len)

/-- The word of `w` bits that `n` bytes at an address hold (R33). -/
def readWord (w : Nat) (m : Memory) (addr n : Nat) : BitVec w := maskW w (m.readLE addr n)

/-- `KW[0 .. m-1]`: the key words of a key buffer, word 0 from its first bytes (R34, 42_key_schedule.md R102). -/
def keyWords (v : Variant) (m : Memory) (key : Desc) : List (BitVec v.w) :=
  (List.range v.m).map fun j => readWord v.w m (key.base + j * v.n) v.n

/-- `(x, y)` from the two words of a block in buffer order, or back: the same exchange (R35). -/
def orderHalves {w : Nat} (order : HalfOrder) (p : BitVec w × BitVec w) : BitVec w × BitVec w :=
  match order with
  | .xFirst => p
  | .yFirst => (p.2, p.1)

/-- Load: `(X, Y)` from the first `2n` bytes of the source buffer (R35, 43_round_transform.md R122). -/
def loadBlock (p : Parameters) (v : Variant) (m : Memory) (src : Desc) : BitVec v.w × BitVec v.w :=
  orderHalves (p.halfOrder v)
    (readWord v.w m src.base v.n, readWord v.w m (src.base + v.n) v.n)

/-- Store: `(X, Y)` to the first `2n` bytes of the destination buffer (R35, 43_round_transform.md R123). -/
def storeBlock (p : Parameters) (v : Variant) (m : Memory) (dst : Desc) (xy : BitVec v.w × BitVec v.w) : Memory :=
  let q := orderHalves (p.halfOrder v) xy
  (m.writeLE dst.base v.n q.1.toNat).writeLE (dst.base + v.n) v.n q.2.toNat

end Sys2Proof.Machine
end

