-- ==== Sys2Proof/Machine/Flags.lean ====
section
/-! DEFINITION. The outcome of a command's checks. The CORE has no flags (10_state.md R21): its only indication is
`STATUS`, decided by the checks of 60_exceptions.md R156 in their fixed order. -/

namespace Sys2Proof.Machine

/-- What the checks of a command decide. -/
inductive Verdict where
  /-- Every check passes: the command runs, on this variant. -/
  | proceed (v : Variant)
  /-- The command ends with this `STATUS` and no other effect. -/
  | ends (code : Status)
  /-- No step: the latched variant is a reserved code (log 12). -/
  | stuck (r : Fault)
  deriving DecidableEq, Repr

/-- The checks of CONSTRUCT after decoding: the key descriptor wraps, then the key length (R156, R101). -/
def constructVerdict (addrBits : Nat) (v : Variant) (key : Desc) : Verdict :=
  if wraps addrBits key then .ends .illegalCommand
  else if key.len ≠ v.keyBytes then .ends .invalidKeyLength
  else .proceed v

/-- The phase check, and the latched variant (R152, 10_state.md R12). -/
def latchedVerdict (s : State) : Verdict :=
  match s.phase with
  | .unconstructed => .ends .notConstructed
  | .keyExpanded   =>
    match Variant.ofVsel s.vselL with
    | some v => .proceed v
    | none   => .stuck .reservedVariantLatched

/-- The length check of ENCRYPT and DECRYPT (43_round_transform.md R139). -/
def lengthVerdict (dst src : Desc) (v : Variant) : Verdict :=
  if src.len < v.blockBytes ∨ dst.len < v.blockBytes then .ends .bufferTooShort else .proceed v

/-- The checks of ENCRYPT and DECRYPT after decoding: a descriptor wraps, then the phase, then the lengths (R156). -/
def cryptVerdict (dst src : Desc) (s : State) : Verdict :=
  if wraps s.params.addrBits dst || wraps s.params.addrBits src then .ends .illegalCommand
  else
    match latchedVerdict s with
    | .proceed v => lengthVerdict dst src v
    | other      => other

/-- The checks of BLOCKSIZE after decoding: the phase (R156). -/
def blocksizeVerdict (s : State) : Verdict := latchedVerdict s

/-- A command from its checks and its effect: the effect where they pass, the error or refusal where they end it. -/
def conclude (verdict : Verdict) (effect : Variant → State) (s : State) : Host.Outcome State Fault Refusal :=
  match verdict with
  | .proceed v => .next (effect v)
  | .ends code => .next (s.raise code)
  | .stuck r   => .fault r

end Sys2Proof.Machine
end

