-- ==== Sys2Proof/Machine/Blocksize.lean ====
section
/-! DEFINITION. The meaning of BLOCKSIZE (43_round_transform.md R138). -/

namespace Sys2Proof.Machine

/-- BLOCKSIZE (R138): `RESULT <- 2n` of the latched variant. -/
def execBlocksize (s : State) : Host.Outcome State Fault Refusal :=
  conclude (blocksizeVerdict s) (fun v => s.finishResult (BitVec.ofNat 8 v.blockBytes)) s

end Sys2Proof.Machine
end

