-- ==== Sys2Proof/Machine/KeySchedule.lean ====
section
/-! DEFINITION. Key-schedule expansion: from the seed slots to the round-key array (42_key_schedule.md). -/

namespace Sys2Proof.Machine

variable {w : Nat}

/-- The words of a list by index, as the recurrences read them. -/
def wordAt (k : List (BitVec w)) (i : Nat) : BitVec w := k.getD i 0

/-- A constant bit as a word with high bits zero (40_arithmetic.md R77). -/
def bitWord (w : Nat) (b : Bool) : BitVec w := if b then 1 else 0

/-- The seed slots from the key words: `S[j] = KW[j]` or `S[j] = KW[m-1-j]` (R103). -/
def seedSlots (map : KeyMap) (kw : List (BitVec w)) : List (BitVec w) :=
  match map with
  | .direct   => kw
  | .reversed => kw.reverse

/-- `TMP` of the BooleanMix recurrence at index `i` (R106). -/
def bmTmp (m : Nat) (k : List (BitVec w)) (i : Nat) : BitVec w :=
  let t1 := rotr (wordAt k (i - 1)) ksRot1
  let t2 := if m = 4 then t1 ^^^ wordAt k (i - 3) else t1
  t2 ^^^ rotr t2 ksRot2

/-- `k[i]` of the BooleanMix recurrence from `TMP` and the constant bit (R106). -/
def bmKey (m : Nat) (cb : Bool) (k : List (BitVec w)) (i : Nat) : BitVec w :=
  notW (wordAt k (i - m)) ^^^ bmTmp m k i ^^^ bitWord w cb ^^^ 3

/-- BooleanMix expansion: the slots are `k[0 .. m-1]` (R105), then one key for each step `j = i - m` (R106). -/
def bmExpand (m T : Nat) (cb : Nat → Bool) (slots : List (BitVec w)) : List (BitVec w) :=
  (List.range (T - m)).foldl (fun k j => k ++ [bmKey m (cb j) k (m + j)]) slots

/-- `AUX[i+m-1]` of the AddMix recurrence at index `i` (R108). -/
def amAux (A : Nat) (k aux : List (BitVec w)) (i : Nat) : BitVec w :=
  addW (wordAt k i) (rotr (wordAt aux i) A) ^^^ maskW w i

/-- One iteration of the AddMix recurrence: extends `AUX`, then `k[]` with the entry just written (R108). -/
def amStep (A B : Nat) (s : List (BitVec w) × List (BitVec w)) (i : Nat) : List (BitVec w) × List (BitVec w) :=
  let a := amAux A s.1 s.2 i
  (s.1 ++ [rotl (wordAt s.1 i) B ^^^ a], s.2 ++ [a])

/-- AddMix expansion: `k[0] = S[0]`, `AUX[j] = S[j+1]` (R107), then `T-1` iterations (R108); the pair
`(k[], AUX)`, of which only `k[]` is published (R109). -/
def amExpand (A B T : Nat) (slots : List (BitVec w)) : List (BitVec w) × List (BitVec w) :=
  (List.range (T - 1)).foldl (amStep A B) (slots.take 1, slots.drop 1)

/-- The round-key array of a variant from its seed slots (R100 step 5). -/
def expand (p : Parameters) (v : Variant) (slots : List (BitVec v.w)) : List (BitVec v.w) :=
  match v.family with
  | .booleanMix => bmExpand v.m v.T (cbit p v) slots
  | .addMix     => (amExpand v.rotA v.rotB v.T slots).1

end Sys2Proof.Machine
end

