-- ==== Sys2Proof/Machine/Construct.lean ====
section
/-! DEFINITION. The meanings of CONSTRUCT, one per variant, over one shared operation (42_key_schedule.md R100). -/

namespace Sys2Proof.Machine

/-- The round-key array CONSTRUCT computes: unpack, seed, expand (R100 steps 3 to 5), as physical words. -/
def roundKeys (p : Parameters) (v : Variant) (m : Memory) (key : Desc) : List PWord :=
  (expand p v (seedSlots (p.keymap v) (keyWords v m key))).map fun k => k.setWidth 64

/-- CONSTRUCT of a variant (R100): the checks, then the expanded key published (R110). Legal in either `PHASE`;
a failure keeps what was there (10_state.md R24). -/
def construct (v : Variant) (key : Desc) (s : State) : Host.Outcome State Fault Refusal :=
  conclude (constructVerdict s.params.addrBits v key)
    (fun u => s.publish u (roundKeys s.params u s.mem key)) s

/-- CONSTRUCT.BM32_64 (R100). -/
def execConstructBm32_64 (key : Desc) (s : State) : Host.Outcome State Fault Refusal :=
  construct .bm32_64 key s

/-- CONSTRUCT.BM48_72 (R100). -/
def execConstructBm48_72 (key : Desc) (s : State) : Host.Outcome State Fault Refusal :=
  construct .bm48_72 key s

/-- CONSTRUCT.BM48_96 (R100). -/
def execConstructBm48_96 (key : Desc) (s : State) : Host.Outcome State Fault Refusal :=
  construct .bm48_96 key s

/-- CONSTRUCT.BM64_96 (R100). -/
def execConstructBm64_96 (key : Desc) (s : State) : Host.Outcome State Fault Refusal :=
  construct .bm64_96 key s

/-- CONSTRUCT.BM64_128 (R100). -/
def execConstructBm64_128 (key : Desc) (s : State) : Host.Outcome State Fault Refusal :=
  construct .bm64_128 key s

/-- CONSTRUCT.BM96_96 (R100). -/
def execConstructBm96_96 (key : Desc) (s : State) : Host.Outcome State Fault Refusal :=
  construct .bm96_96 key s

/-- CONSTRUCT.BM96_144 (R100). -/
def execConstructBm96_144 (key : Desc) (s : State) : Host.Outcome State Fault Refusal :=
  construct .bm96_144 key s

/-- CONSTRUCT.BM128_128 (R100). -/
def execConstructBm128_128 (key : Desc) (s : State) : Host.Outcome State Fault Refusal :=
  construct .bm128_128 key s

/-- CONSTRUCT.BM128_192 (R100). -/
def execConstructBm128_192 (key : Desc) (s : State) : Host.Outcome State Fault Refusal :=
  construct .bm128_192 key s

/-- CONSTRUCT.BM128_256 (R100). -/
def execConstructBm128_256 (key : Desc) (s : State) : Host.Outcome State Fault Refusal :=
  construct .bm128_256 key s

/-- CONSTRUCT.AM32_64 (R100). -/
def execConstructAm32_64 (key : Desc) (s : State) : Host.Outcome State Fault Refusal :=
  construct .am32_64 key s

/-- CONSTRUCT.AM48_72 (R100). -/
def execConstructAm48_72 (key : Desc) (s : State) : Host.Outcome State Fault Refusal :=
  construct .am48_72 key s

/-- CONSTRUCT.AM48_96 (R100). -/
def execConstructAm48_96 (key : Desc) (s : State) : Host.Outcome State Fault Refusal :=
  construct .am48_96 key s

/-- CONSTRUCT.AM64_96 (R100). -/
def execConstructAm64_96 (key : Desc) (s : State) : Host.Outcome State Fault Refusal :=
  construct .am64_96 key s

/-- CONSTRUCT.AM64_128 (R100). -/
def execConstructAm64_128 (key : Desc) (s : State) : Host.Outcome State Fault Refusal :=
  construct .am64_128 key s

/-- CONSTRUCT.AM96_96 (R100). -/
def execConstructAm96_96 (key : Desc) (s : State) : Host.Outcome State Fault Refusal :=
  construct .am96_96 key s

/-- CONSTRUCT.AM96_144 (R100). -/
def execConstructAm96_144 (key : Desc) (s : State) : Host.Outcome State Fault Refusal :=
  construct .am96_144 key s

/-- CONSTRUCT.AM128_128 (R100). -/
def execConstructAm128_128 (key : Desc) (s : State) : Host.Outcome State Fault Refusal :=
  construct .am128_128 key s

/-- CONSTRUCT.AM128_192 (R100). -/
def execConstructAm128_192 (key : Desc) (s : State) : Host.Outcome State Fault Refusal :=
  construct .am128_192 key s

/-- CONSTRUCT.AM128_256 (R100). -/
def execConstructAm128_256 (key : Desc) (s : State) : Host.Outcome State Fault Refusal :=
  construct .am128_256 key s

end Sys2Proof.Machine
end

