-- ==== Sys2Proof/Machine/RoundTransform.lean ====
section
/-! DEFINITION. The round transform on words: the rounds of the three shapes, their inverses, and the order in
which ENCRYPT and DECRYPT run them (43_round_transform.md). -/

namespace Sys2Proof.Machine

variable {w : Nat}

/-- The working pair `(x, y)`. -/
abbrev Pair (w : Nat) := BitVec w × BitVec w

/-- Forward double-round (R124): the second line uses the `y` just written. -/
def doubleFwd (k0 k1 : BitVec w) (p : Pair w) : Pair w :=
  let y := p.2 ^^^ fW p.1 ^^^ k0
  (p.1 ^^^ fW y ^^^ k1, y)

/-- Inverse double-round with `k[i]` and `k[i-1]` (R126): the second line uses the `x` just written. -/
def doubleInv (ki ki1 : BitVec w) (p : Pair w) : Pair w :=
  let x := p.1 ^^^ fW p.2 ^^^ ki
  (x, p.2 ^^^ fW x ^^^ ki1)

/-- Forward round of shape SWAP (R128). -/
def swapFwd (k : BitVec w) (p : Pair w) : Pair w := (p.2 ^^^ fW p.1 ^^^ k, p.1)

/-- Inverse round of shape SWAP (R130). -/
def swapInv (k : BitVec w) (p : Pair w) : Pair w := (p.2, p.1 ^^^ fW p.2 ^^^ k)

/-- Forward round of shape ADD (R132): the second line uses the new `x`. -/
def addFwd (A B : Nat) (k : BitVec w) (p : Pair w) : Pair w :=
  let x := addW (rotr p.1 A) p.2 ^^^ k
  (x, rotl p.2 B ^^^ x)

/-- Inverse round of shape ADD (R134): the second line uses the new `y`. -/
def addInv (A B : Nat) (k : BitVec w) (p : Pair w) : Pair w :=
  let y := rotr (p.2 ^^^ p.1) B
  (rotl (subW (p.1 ^^^ k) y) A, y)

/-- The two directions of the transform. -/
inductive Dir where
  | encrypt | decrypt
  deriving DecidableEq, Repr

/-- The round at index `I` of a variant: `I` is the double-round `d` in ENCRYPT of shape DOUBLE and the round-key
index `i` in every other case (R140). -/
def roundAt (dir : Dir) (v : Variant) (rk : Nat → BitVec v.w) (I : Nat) (p : Pair v.w) : Pair v.w :=
  match dir, v.shape with
  | .encrypt, .double => doubleFwd (rk (2 * I)) (rk (2 * I + 1)) p
  | .encrypt, .swap   => swapFwd (rk I) p
  | .encrypt, .add    => addFwd v.rotA v.rotB (rk I) p
  | .decrypt, .double => doubleInv (rk I) (rk (I - 1)) p
  | .decrypt, .swap   => swapInv (rk I) p
  | .decrypt, .add    => addInv v.rotA v.rotB (rk I) p

/-- The indices a command runs through, in order: `d = 0 .. T/2 - 1` (R125), `i = 0 .. T-1` (R129, R133),
`i = T-1, T-3, .., 1` (R127), `i = T-1, T-2, .., 0` (R131, R135). -/
def roundIndices (dir : Dir) (v : Variant) : List Nat :=
  match dir, v.shape with
  | .encrypt, .double => List.range (v.T / 2)
  | .encrypt, _       => List.range v.T
  | .decrypt, .double => (List.range (v.T / 2)).map fun j => v.T - 1 - 2 * j
  | .decrypt, _       => (List.range v.T).map fun j => v.T - 1 - j

/-- The whole loop of ENCRYPT or DECRYPT (R120, R121, step 5). -/
def transform (dir : Dir) (v : Variant) (rk : Nat → BitVec v.w) (p : Pair v.w) : Pair v.w :=
  (roundIndices dir v).foldl (fun q I => roundAt dir v rk I q) p

end Sys2Proof.Machine
end

