-- ==== Sys2Proof/Machine/Crypt.lean ====
section
/-! DEFINITION. The meanings of ENCRYPT and DECRYPT over one shared operation (43_round_transform.md R120, R121). -/

namespace Sys2Proof.Machine

/-- Host memory after a successful ENCRYPT or DECRYPT: the block is loaded whole from the source, transformed with
the round keys in store, and stored to the destination (R120 steps 4 to 6, 20_memory.md R38). -/
def cryptMemory (dir : Dir) (v : Variant) (dst src : Desc) (s : State) : Memory :=
  storeBlock s.params v s.mem dst (transform dir v (s.rkWord v.w) (loadBlock s.params v s.mem src))

/-- ENCRYPT or DECRYPT (R120, R121): the checks, then the transformed block stored. -/
def crypt (dir : Dir) (dst src : Desc) (s : State) : Host.Outcome State Fault Refusal :=
  conclude (cryptVerdict dst src s) (fun v => s.finishStore (cryptMemory dir v dst src s)) s

/-- ENCRYPT (R120). -/
def execEncrypt (dst src : Desc) (s : State) : Host.Outcome State Fault Refusal := crypt .encrypt dst src s

/-- DECRYPT (R121). -/
def execDecrypt (dst src : Desc) (s : State) : Host.Outcome State Fault Refusal := crypt .decrypt dst src s

end Sys2Proof.Machine
end

