-- ==== Sys2Proof/Machine/Dispatch.lean ====
section
/-! DEFINITION. The meaning of each instruction: one arm per constructor. -/

namespace Sys2Proof.Machine

def exec (i : Instr) (s : State) : Host.Outcome State Fault Refusal :=
  match i with
  | .constructBm32_64 key => Sys2Proof.Machine.execConstructBm32_64 key s
  | .constructBm48_72 key => Sys2Proof.Machine.execConstructBm48_72 key s
  | .constructBm48_96 key => Sys2Proof.Machine.execConstructBm48_96 key s
  | .constructBm64_96 key => Sys2Proof.Machine.execConstructBm64_96 key s
  | .constructBm64_128 key => Sys2Proof.Machine.execConstructBm64_128 key s
  | .constructBm96_96 key => Sys2Proof.Machine.execConstructBm96_96 key s
  | .constructBm96_144 key => Sys2Proof.Machine.execConstructBm96_144 key s
  | .constructBm128_128 key => Sys2Proof.Machine.execConstructBm128_128 key s
  | .constructBm128_192 key => Sys2Proof.Machine.execConstructBm128_192 key s
  | .constructBm128_256 key => Sys2Proof.Machine.execConstructBm128_256 key s
  | .constructAm32_64 key => Sys2Proof.Machine.execConstructAm32_64 key s
  | .constructAm48_72 key => Sys2Proof.Machine.execConstructAm48_72 key s
  | .constructAm48_96 key => Sys2Proof.Machine.execConstructAm48_96 key s
  | .constructAm64_96 key => Sys2Proof.Machine.execConstructAm64_96 key s
  | .constructAm64_128 key => Sys2Proof.Machine.execConstructAm64_128 key s
  | .constructAm96_96 key => Sys2Proof.Machine.execConstructAm96_96 key s
  | .constructAm96_144 key => Sys2Proof.Machine.execConstructAm96_144 key s
  | .constructAm128_128 key => Sys2Proof.Machine.execConstructAm128_128 key s
  | .constructAm128_192 key => Sys2Proof.Machine.execConstructAm128_192 key s
  | .constructAm128_256 key => Sys2Proof.Machine.execConstructAm128_256 key s
  | .encrypt dst src => Sys2Proof.Machine.execEncrypt dst src s
  | .decrypt dst src => Sys2Proof.Machine.execDecrypt dst src s
  | .blocksize => Sys2Proof.Machine.execBlocksize s

end Sys2Proof.Machine
end

