-- ==== Sys2Proof/Machine/Issue.lean ====
section
/-! DEFINITION. Performing one move of the host: a command, a store to host memory, a reset. -/

namespace Sys2Proof.Machine

/-- A command at the port: presented, decoded and executed; a reserved encoding is refused with
`STATUS <- IllegalCommand` and no other effect (30_encoding.md R59, 60_exceptions.md R152). -/
def runCommand (c : Command) (s : State) : Host.Outcome State Fault Refusal :=
  match decode c with
  | .ok i    => exec i (s.issue c)
  | .error _ => .next ((s.issue c).raise .illegalCommand)

/-- A move of the host as it reaches the machine: an address or a length has the low `ADDR_BITS` bits (R57, log 3). -/
def HostMove.atPort (addrBits : Nat) (move : HostMove) : HostMove :=
  match move with
  | .command c       => .command (c.atPort addrBits)
  | .store addr byte => .store (addr % 2 ^ addrBits) byte
  | .reset           => .reset

/-- One move of the host. -/
def perform (move : HostMove) (s : State) : Host.Outcome State Fault Refusal :=
  match move with
  | .command c       => runCommand c s
  | .store addr byte => .next (s.hostStore addr byte)
  | .reset           => .next s.afterReset

end Sys2Proof.Machine
end

