-- ==== Sys2Proof/Machine/Step.lean ====
section
/-! DEFINITION. One step of the machine: the host's next move. -/

namespace Sys2Proof.Machine

/-- One step. The host's next move is taken from `State.host` and performed (00_scope.md R4, 20_memory.md R42); with
none to come the CORE is idle and nothing changes (70_reset_and_hazards.md R170, R183; log 1). -/
def step (s : State) : Host.Outcome State Fault Refusal :=
  match s.host with
  | []           => .next s
  | move :: rest => perform (move.atPort s.params.addrBits) { s with host := rest }

/-- `s` with the command whose bits are `w` as the host's next move (log 1, log 13). -/
def State.withFetchWord (s : State) (nbits w : Nat) : State :=
  { s with host := .command (Command.ofBits nbits w) :: s.host }

end Sys2Proof.Machine
end

