-- ==== Sys2Proof/Machine/Stepping.lean ====
section
/-! DEFINITION. The stepping refinement: CONSTRUCT, ENCRYPT and DECRYPT one round per step over the transient
registers of the same state (42_key_schedule.md R112, 43_round_transform.md R140). The command being performed
stands in the operand registers; the end state is that of the command level, which `exec` gives. -/

namespace Sys2Proof.Machine

/-- The sub-states of a running command (R112, R140), and the end. -/
inductive SubState where
  | ksCheck | ksLoad | ksRun | ksPublish
  | rtCheck | rtLoad | rtRun | rtStore
  | done
  deriving DecidableEq, Repr

/-- A CORE in the middle of a command. -/
structure Running where
  sub  : SubState
  core : State
  deriving DecidableEq, Repr

/-- Physical words from words of `w` bits: the bits `w .. 63` are zero. -/
def toPhysical {w : Nat} (l : List (BitVec w)) : List PWord := l.map fun k => k.setWidth 64

/-- Words of `w` bits from physical words. -/
def ofPhysical (w : Nat) (l : List PWord) : List (BitVec w) := l.map fun k => k.setWidth w

/-! ### CONSTRUCT (R112) -/

/-- `I <- I + 1` of a loop that counts up (R112, R140). The last step takes `I` to the end of the loop, where no round is
next: to 72, above the largest index of R15, in BM128_256 (log 18). -/
def countUp (I : BitVec 7) : BitVec 7 := I + 1

/-- `KW[0 .. m-1]` written; the entries from `m` on keep what they held (R18). -/
def loadKw {w : Nat} (kw : List (BitVec w)) (old : Vector PWord 4) : Vector PWord 4 :=
  Vector.ofFn fun i => if h : i.val < kw.length then (kw[i.val]).setWidth 64 else old[i]

/-- `KS_LOAD`: unpack and seed; `LR <- 1` with the shift register; `I <- m` (BooleanMix) or `I <- 0` (AddMix). -/
def ksLoad (v : Variant) (key : Desc) (s : State) : State :=
  let kw := keyWords v s.mem key
  let slots := seedSlots (s.params.keymap v) kw
  { s with scratch := { s.scratch with
      kw  := loadKw kw s.scratch.kw
      k   := toPhysical (match v.family with | .booleanMix => slots | .addMix => slots.take 1)
      aux := match v.family with | .booleanMix => s.scratch.aux | .addMix => toPhysical (slots.drop 1)
      lr  := match s.params.csrc v with | some .registerU => 1 | some (.table _) | none => s.scratch.lr
      i   := match v.family with | .booleanMix => BitVec.ofNat 7 v.m | .addMix => 0 } }

/-- The constant bit of the step: the live register's output, or the table's bit (R92, R93). -/
def ksConstantBit (v : Variant) (s : State) : Bool :=
  match s.params.csrc v with
  | some .registerU         => lfsrOut s.scratch.lr
  | some (.table _) | none => cbit s.params v (s.scratch.i.toNat - v.m)

/-- `KS_RUN` for BooleanMix: one iteration of R106 at `i = I`, the shift register stepped, `I` counted up. -/
def ksRunBm (v : Variant) (s : State) : State :=
  let k := ofPhysical v.w s.scratch.k
  let i := s.scratch.i.toNat
  { s with scratch := { s.scratch with
      tmp := (bmTmp v.m k i).setWidth 64
      k   := s.scratch.k ++ [(bmKey v.m (ksConstantBit v s) k i).setWidth 64]
      lr  := match s.params.csrc v with
        | some .registerU         => lfsrStep s.params.taps.u s.scratch.lr
        | some (.table _) | none => s.scratch.lr
      i   := countUp s.scratch.i } }

/-- `KS_RUN` for AddMix: one iteration of R108 at `i = I`, `I` counted up. -/
def ksRunAm (v : Variant) (s : State) : State :=
  let r := amStep v.rotA v.rotB (ofPhysical v.w s.scratch.k, ofPhysical v.w s.scratch.aux) s.scratch.i.toNat
  { s with scratch := { s.scratch with
      k   := toPhysical r.1
      aux := toPhysical r.2
      i   := countUp s.scratch.i } }

/-- `KS_RUN` (R112). -/
def ksRun (v : Variant) (s : State) : State :=
  match v.family with
  | .booleanMix => ksRunBm v s
  | .addMix     => ksRunAm v s

/-- The last index of the loop: `T-1` (BooleanMix) or `T-2` (AddMix). -/
def ksLast (v : Variant) : Nat :=
  match v.family with
  | .booleanMix => v.T - 1
  | .addMix     => v.T - 2

/-- The sub-state with the iteration at `i` next: another one while `i <= last` (R112). -/
def ksAt (v : Variant) (i : Nat) : SubState := if i ≤ ksLast v then .ksRun else .ksPublish

/-- One step of a running CONSTRUCT (R112). -/
def ksMicro (v : Variant) (key : Desc) (r : Running) : Host.Outcome Running Fault Refusal :=
  match r.sub with
  | .ksCheck =>
    match constructVerdict r.core.params.addrBits v key with
    | .proceed _ => .next ⟨.ksLoad, r.core⟩
    | .ends code => .next ⟨.done, r.core.raise code⟩
    | .stuck f   => .fault f
  | .ksLoad    => let t := ksLoad v key r.core; .next ⟨ksAt v t.scratch.i.toNat, t⟩
  | .ksRun     => .next ⟨ksAt v (r.core.scratch.i.toNat + 1), ksRun v r.core⟩
  | .ksPublish => .next ⟨.done, r.core.publish v r.core.scratch.k⟩
  | .rtCheck | .rtLoad | .rtRun | .rtStore | .done => .next r

/-! ### ENCRYPT and DECRYPT (R140) -/

/-- The index the rounds start from: `I <- 0` (ENCRYPT) or `I <- T-1` (DECRYPT). -/
def rtFirst (dir : Dir) (v : Variant) : Nat :=
  match dir with
  | .encrypt => 0
  | .decrypt => v.T - 1

/-- The index of the round after the one at `I`, none where no round follows (R140). -/
def rtNext (dir : Dir) (v : Variant) (I : Nat) : Option Nat :=
  match dir, v.shape with
  | .encrypt, .double => if I + 1 ≤ v.T / 2 - 1 then some (I + 1) else none
  | .encrypt, _       => if I + 1 ≤ v.T - 1 then some (I + 1) else none
  | .decrypt, .double => if 3 ≤ I then some (I - 2) else none
  | .decrypt, _       => if 1 ≤ I then some (I - 1) else none

/-- The working pair as words of the variant. -/
def workingPair (v : Variant) (s : State) : Pair v.w := (s.scratch.x.setWidth v.w, s.scratch.y.setWidth v.w)

/-- What `I` holds when the machine leaves `RT_RUN` after the round at `I` (R140): an ENCRYPT has counted it up, a
DECRYPT leaves in place of counting below 0. -/
def rtLeave (dir : Dir) (I : BitVec 7) : BitVec 7 :=
  match dir with
  | .encrypt => countUp I
  | .decrypt => I

/-- The working pair and the index written. -/
def withPair (v : Variant) (p : Pair v.w) (I : BitVec 7) (s : State) : State :=
  { s with scratch := { s.scratch with
      x := p.1.setWidth 64, y := p.2.setWidth 64, i := I } }

/-- `RT_RUN` (R140): the round at `I`, and the next index. -/
def rtRun (dir : Dir) (v : Variant) (s : State) : Running :=
  let I := s.scratch.i
  let p := roundAt dir v (s.rkWord v.w) I.toNat (workingPair v s)
  match rtNext dir v I.toNat with
  | some J => ⟨.rtRun, withPair v p (BitVec.ofNat 7 J) s⟩
  | none   => ⟨.rtStore, withPair v p (rtLeave dir I) s⟩

/-- One step of a running ENCRYPT or DECRYPT (R140). -/
def rtMicro (dir : Dir) (dst src : Desc) (r : Running) : Host.Outcome Running Fault Refusal :=
  match r.sub with
  | .rtCheck =>
    match cryptVerdict dst src r.core with
    | .proceed _ => .next ⟨.rtLoad, r.core⟩
    | .ends code => .next ⟨.done, r.core.raise code⟩
    | .stuck f   => .fault f
  | .ksCheck | .ksLoad | .ksRun | .ksPublish | .done => .next r
  | sub =>
    match Variant.ofVsel r.core.vselL with
    | none   => .fault .reservedVariantLatched
    | some v =>
      match sub with
      | .rtLoad => .next ⟨.rtRun, withPair v (loadBlock r.core.params v r.core.mem src) (BitVec.ofNat 7 (rtFirst dir v)) r.core⟩
      | .rtRun  => .next (rtRun dir v r.core)
      | _       => .next ⟨.done, r.core.finishStore (storeBlock r.core.params v r.core.mem dst (workingPair v r.core))⟩

/-! ### The running command -/

/-- One step of the command in the operand registers. The check is step 1 of R100 and of R120 first: a word that does
not decode ends the command with `IllegalCommand` (R152). BLOCKSIZE has no sub-states. -/
def micro (r : Running) : Host.Outcome Running Fault Refusal :=
  if r.sub = .done then .next r
  else
    match decode r.core.current with
    | .error _ => .next ⟨.done, r.core.raise .illegalCommand⟩
    | .ok i    =>
      match i.operation with
      | .construct v key => ksMicro v key r
      | .encrypt dst src => rtMicro .encrypt dst src r
      | .decrypt dst src => rtMicro .decrypt dst src r
      | .blocksize       => .next r

/-- `n` steps of the running command, ending at the first fault. -/
def microRun : Nat → Running → Host.Outcome Running Fault Refusal
  | 0, r     => .next r
  | n + 1, r =>
    match micro r with
    | .next r'   => microRun n r'
    | .fault f   => .fault f
    | .refused x => .refused x

/-- The sub-state in which a command starts, by its `OP` field (R112, R140): BLOCKSIZE and a reserved `OP` have
none. -/
def firstSub (c : Command) : SubState :=
  match c.op.toNat with
  | 1     => .ksCheck
  | 2 | 3 => .rtCheck
  | _     => .done

/-- The number of `KS_RUN` steps: `T-m` (BooleanMix) or `T-1` (AddMix) (R111). -/
def ksTrips (v : Variant) : Nat :=
  match v.family with
  | .booleanMix => v.T - v.m
  | .addMix     => v.T - 1

/-- The number of `RT_RUN` steps: `T/2` (DOUBLE) or `T` (SWAP, ADD) (70_reset_and_hazards.md R182). -/
def rtTrips (v : Variant) : Nat :=
  match v.shape with
  | .double      => v.T / 2
  | .swap | .add => v.T

/-- What of a running command the constant control flow of R181 is about: the sub-state, and the round index while
rounds run. -/
def Running.control (r : Running) : SubState × Option (BitVec 7) :=
  match r.sub with
  | .ksRun | .rtRun => (r.sub, some r.core.scratch.i)
  | _               => (r.sub, none)

end Sys2Proof.Machine
end

