-- ==== Sys2Proof/Safety.lean ====
section
/-! DEFINITION. What counts as a safe run, the invariant of the machine, and the terms the statements use. -/

namespace Sys2Proof.Machine

/-! ### The invariant and safe runs -/

/-- `RK[0 .. T-1]` hold words of `w` bits: the bits `w .. 63` are zero (10_state.md R13, 40_arithmetic.md R79). -/
abbrev State.rkFits (s : State) (v : Variant) : Prop :=
  ∀ i : Fin 72, i.val < v.T → (s.rk[i]).toNat < 2 ^ v.w

/-- Where `PHASE` is 1, `VSEL_L` names a variant and `RK[0 .. T-1]` hold its words (R11 to R13). -/
def State.latchedWell (s : State) : Prop :=
  s.phase = .keyExpanded → ∃ v, Variant.ofVsel s.vselL = some v ∧ s.rkFits v

/-- `RESULT` is its reset value or a block size (R20). -/
abbrev State.resultWell (s : State) : Prop := s.result.toNat ∈ [0, 4, 6, 8, 12, 16]

/-- The operand registers hold numbers of `ADDR_BITS` bits (R10, R22). -/
abbrev State.operandsWell (s : State) : Prop :=
  s.current.a.base < 2 ^ s.params.addrBits ∧ s.current.a.len < 2 ^ s.params.addrBits ∧
  s.current.b.base < 2 ^ s.params.addrBits ∧ s.current.b.len < 2 ^ s.params.addrBits

/-- The invariant of the machine: memory in canonical form, a well latched variant, a well `RESULT`, operands of the
width of an address. -/
structure State.Inv (s : State) : Prop where
  mem     : s.mem.wf s.params.addrBits = true
  latched : s.latchedWell
  result  : s.resultWell
  operand : s.operandsWell

/-- A safe state: a run from it answers a next state at every length (43_round_transform.md R141,
70_reset_and_hazards.md R183). -/
def State.Safe (s : State) : Prop := ∀ k, ∃ t, Host.Core.run core k s = .next t

/-! ### What a command leaves -/

/-- `t` is `s` but for `STATUS`, which holds `code`, and the registers that hold no value between commands: the
effect of an error or a refusal (60_exceptions.md R152, R154). -/
structure State.OnlyStatus (s t : State) (code : Status) : Prop where
  status : t.status = code
  phase  : t.phase = s.phase
  vselL  : t.vselL = s.vselL
  rk     : t.rk = s.rk
  result : t.result = s.result
  mem    : ∀ x, t.mem.read x = s.mem.read x
  host   : t.host = s.host
  params : t.params = s.params

/-- ENCRYPT and DECRYPT meet their conditions: a key is expanded, its variant is `v`, the buffers do not wrap and
are long enough (R156, 43_round_transform.md R139). -/
structure State.CryptReady (s : State) (v : Variant) (dst src : Desc) : Prop where
  phase   : s.phase = .keyExpanded
  variant : Variant.ofVsel s.vselL = some v
  dstFits : dst.fits s.params.addrBits = true
  srcFits : src.fits s.params.addrBits = true
  dstLen  : v.blockBytes ≤ dst.len
  srcLen  : v.blockBytes ≤ src.len

/-- CONSTRUCT of `v` meets its conditions: the key buffer does not wrap and has the valid length
(R156, 42_key_schedule.md R101). -/
structure State.ConstructReady (s : State) (v : Variant) (key : Desc) : Prop where
  fits : key.fits s.params.addrBits = true
  len  : key.len = v.keyBytes

/-! ### Bytes of words and of blocks -/

/-- Byte `j` of a word, little-endian (20_memory.md R33). -/
def byteOf {w : Nat} (k : BitVec w) (j : Nat) : Byte := BitVec.ofNat 8 (k.toNat >>> (8 * j))

/-- The `n` bytes at `addr` are the word `k`, little-endian (R33). -/
def wordBytesAt {w : Nat} (m : Memory) (addr n : Nat) (k : BitVec w) : Prop :=
  ∀ j, j < n → m.read (addr + j) = byteOf k j

/-- The `2n` bytes at `addr` are the block `(x, y)` in the variant's order of halves (R35). -/
def blockAt (p : Parameters) (v : Variant) (m : Memory) (addr : Nat) (xy : Pair v.w) : Prop :=
  match p.halfOrder v with
  | .xFirst => wordBytesAt m addr v.n xy.1 ∧ wordBytesAt m (addr + v.n) v.n xy.2
  | .yFirst => wordBytesAt m addr v.n xy.2 ∧ wordBytesAt m (addr + v.n) v.n xy.1

/-- `S[0 .. m-1]` are the seed slots of the key at `addr`: each is the key word that `KEYMAP` names, and the key
words lie in byte order (20_memory.md R34, 42_key_schedule.md R102, R103). -/
def slotsAt (p : Parameters) (v : Variant) (m : Memory) (addr : Nat) (S : Nat → BitVec v.w) : Prop :=
  ∀ j, j < v.m →
    match p.keymap v with
    | .direct   => wordBytesAt m (addr + j * v.n) v.n (S j)
    | .reversed => wordBytesAt m (addr + (v.m - 1 - j) * v.n) v.n (S j)

/-- A row of the descriptor table (30_encoding.md R53): the variant has this CONSTRUCT word, family, `w`, `m`, `T`, `n`,
`KEYBYTES`, `BLOCKBYTES` and `SHAPE`. -/
abbrev isRow (v : Variant) (word : BitVec 8) (family : Family) (w m T n keyBytes blockBytes : Nat)
    (shape : Shape) : Prop :=
  (0b001 : BitVec 3) ++ v.vsel = word ∧ v.family = family ∧ v.w = w ∧ v.m = m ∧ v.T = T ∧ v.n = n ∧
    v.keyBytes = keyBytes ∧ v.blockBytes = blockBytes ∧ v.shape = shape

/-- The 23 command words the spec calls legal (30_encoding.md R59). -/
def legalWords : List Nat :=
  [0x20, 0x21, 0x22, 0x23, 0x24, 0x25, 0x26, 0x27, 0x28, 0x29,
   0x30, 0x31, 0x32, 0x33, 0x34, 0x35, 0x36, 0x37, 0x38, 0x39, 0x40, 0x60, 0x80]

/-- An instruction of the CONSTRUCT family. -/
def isConstruct (i : Instr) : Bool :=
  match i.operation with
  | .construct _ _                            => true
  | .encrypt _ _ | .decrypt _ _ | .blocksize => false

/-- ENCRYPT or DECRYPT as an instruction. -/
def cryptInstr (dir : Dir) (dst src : Desc) : Instr :=
  match dir with
  | .encrypt => .encrypt dst src
  | .decrypt => .decrypt dst src

/-- The other direction. -/
def Dir.opposite : Dir → Dir
  | .encrypt => .decrypt
  | .decrypt => .encrypt

/-- What the host has as its next move is a command that decodes to `i`. -/
def State.aboutTo (s : State) (i : Instr) : Prop :=
  ∃ c rest, s.host = .command c :: rest ∧ decode (c.atPort s.params.addrBits) = .ok i

/-- Where the control of a running command stands after `n` steps, none after a fault. -/
def controlAfter (n : Nat) (r : Running) : Option (SubState × Option (BitVec 7)) :=
  match microRun n r with
  | .next r'   => some r'.control
  | .fault _   => none
  | .refused _ => none

end Sys2Proof.Machine
end

