-- ==== Sys2Proof/Certificates/Slice0/Obligations.lean ====
section
/-! DEFINITION. The statements for the provers, from the numbered rules of spec/. -/

open Sys2Proof Sys2Proof.Machine

/-! ### Encoding -/

/-- R61 and R50 to R53, both directions: decoding an encoded instruction gives it back; and an instruction that was
decoded encodes to the same word and the same used descriptors. For all 23 constructors of `Instr`. -/
def Obligations.DecodeEncodeRoundTrip : Prop :=
  (∀ i : Instr, decode (encode i) = .ok i) ∧
  ∀ (c : Command) (i : Instr), decode c = .ok i →
    (encode i).cmd = c.cmd ∧ (isConstruct i = true → (encode i).a = c.a) ∧
    (∀ dst src, i = .encrypt dst src ∨ i = .decrypt dst src → (encode i).a = c.a ∧ (encode i).b = c.b)

/-- R50 to R52 and the table of 95_test_vectors.md 8.1, on words written out bit by bit. -/
def Obligations.SpecWordsDecode : Prop :=
  ∀ a b : Desc,
    decode ⟨0b00100000, a, b⟩ = .ok (.constructBm32_64 a) ∧
    decode ⟨0b00100100, a, b⟩ = .ok (.constructBm64_128 a) ∧
    decode ⟨0b00101001, a, b⟩ = .ok (.constructBm128_256 a) ∧
    decode ⟨0b00110000, a, b⟩ = .ok (.constructAm32_64 a) ∧
    decode ⟨0b00111001, a, b⟩ = .ok (.constructAm128_256 a) ∧
    decode ⟨0b01000000, a, b⟩ = .ok (.encrypt a b) ∧
    decode ⟨0b01100000, a, b⟩ = .ok (.decrypt a b) ∧
    decode ⟨0b10000000, a, b⟩ = .ok .blocksize ∧
    decode ⟨0b00000000, a, b⟩ = .error .reservedOp ∧
    decode ⟨0b00101010, a, b⟩ = .error .reservedVsel ∧
    decode ⟨0b01010000, a, b⟩ = .error .strayVsel

/-- R59: the 23 legal words decode, and every other word is refused with `STATUS <- IllegalCommand` and no other
effect: reserved `OP`, CONSTRUCT with a reserved `VSEL`, a stray `VSEL` field elsewhere. -/
def Obligations.ReservedEncodingsRefused : Prop :=
  ∀ c : Command,
    ((∃ i, decode c = .ok i) ↔ c.cmd.toNat ∈ legalWords) ∧
    (c.op.toNat ∈ [0, 5, 6, 7] → c.cmd.toNat ∉ legalWords) ∧
    (c.op = 1 → 10 ≤ c.vsel.toNat % 16 → c.cmd.toNat ∉ legalWords) ∧
    (c.op.toNat ∈ [2, 3, 4] → c.vsel ≠ 0 → c.cmd.toNat ∉ legalWords) ∧
    ∀ (s : State) (rest : List HostMove), s.host = .command c :: rest → c.cmd.toNat ∉ legalWords →
      ∃ t, step s = .next t ∧ State.OnlyStatus { s with host := rest } t .illegalCommand

/-- A step runs the decoded instruction: the command, of which the port takes numbers of `ADDR_BITS` bits (log 3), is
presented in the operand registers (`State.issue`) and taken off the host's moves, and the outcome is that of `exec`. -/
def Obligations.StepRunsDecodedCommand : Prop :=
  ∀ (s : State) (c : Command) (rest : List HostMove) (i : Instr),
    s.host = .command c :: rest → decode (c.atPort s.params.addrBits) = .ok i →
    step s = exec i (({ s with host := rest } : State).issue (c.atPort s.params.addrBits))

/-- R53, R54 and R55: the twenty rows of the descriptor table with the CONSTRUCT word of each, the derived fields, the
rotation amounts, what the rules derive from the table, and the valid key lengths that R101 derives from it. -/
def Obligations.DescriptorFields : Prop :=
  (∀ v : Variant, v.w ∈ [16, 24, 32, 48, 64] ∧ v.w = 8 * v.n ∧ v.m ∈ [2, 3, 4] ∧ v.m < v.T ∧ v.T ≤ 72 ∧
    v.keyBytes = v.n * v.m ∧ v.blockBytes = 2 * v.n ∧
    (v.family = .addMix → v.shape = .add) ∧
    (v.family = .booleanMix → v.w = 64 → v.shape = .swap) ∧
    (v.family = .booleanMix → v.w ≠ 64 → v.shape = .double) ∧
    (v.shape = .double → v.T % 2 = 0)) ∧
  (∀ (c : BitVec 5) (v : Variant), Variant.ofVsel c = some v ↔ v.vsel = c) ∧
  [Variant.bm32_64, .am32_64].map Variant.keyBytes = [8, 8] ∧
  [Variant.bm48_72, .am48_72].map Variant.keyBytes = [9, 9] ∧
  [Variant.bm48_96, .am48_96, .bm64_96, .am64_96, .bm96_96, .am96_96].map Variant.keyBytes = [12, 12, 12, 12, 12, 12] ∧
  [Variant.bm64_128, .am64_128, .bm128_128, .am128_128].map Variant.keyBytes = [16, 16, 16, 16] ∧
  [Variant.bm96_144, .am96_144].map Variant.keyBytes = [18, 18] ∧
  [Variant.bm128_192, .am128_192].map Variant.keyBytes = [24, 24] ∧
  [Variant.bm128_256, .am128_256].map Variant.keyBytes = [32, 32] ∧
  (∀ v : Variant, v.rotA = (if v.w = 16 then 7 else 8) ∧ v.rotB = (if v.w = 16 then 2 else 3)) ∧
  isRow .bm32_64 0x20 .booleanMix 16 4 32 2 8 4 .double ∧
  isRow .bm48_72 0x21 .booleanMix 24 3 36 3 9 6 .double ∧
  isRow .bm48_96 0x22 .booleanMix 24 4 36 3 12 6 .double ∧
  isRow .bm64_96 0x23 .booleanMix 32 3 42 4 12 8 .double ∧
  isRow .bm64_128 0x24 .booleanMix 32 4 44 4 16 8 .double ∧
  isRow .bm96_96 0x25 .booleanMix 48 2 52 6 12 12 .double ∧
  isRow .bm96_144 0x26 .booleanMix 48 3 54 6 18 12 .double ∧
  isRow .bm128_128 0x27 .booleanMix 64 2 68 8 16 16 .swap ∧
  isRow .bm128_192 0x28 .booleanMix 64 3 69 8 24 16 .swap ∧
  isRow .bm128_256 0x29 .booleanMix 64 4 72 8 32 16 .swap ∧
  isRow .am32_64 0x30 .addMix 16 4 22 2 8 4 .add ∧
  isRow .am48_72 0x31 .addMix 24 3 22 3 9 6 .add ∧
  isRow .am48_96 0x32 .addMix 24 4 23 3 12 6 .add ∧
  isRow .am64_96 0x33 .addMix 32 3 26 4 12 8 .add ∧
  isRow .am64_128 0x34 .addMix 32 4 27 4 16 8 .add ∧
  isRow .am96_96 0x35 .addMix 48 2 28 6 12 12 .add ∧
  isRow .am96_144 0x36 .addMix 48 3 29 6 18 12 .add ∧
  isRow .am128_128 0x37 .addMix 64 2 32 8 16 16 .add ∧
  isRow .am128_192 0x38 .addMix 64 3 33 8 24 16 .add ∧
  isRow .am128_256 0x39 .addMix 64 4 34 8 32 16 .add

/-! ### Datapath primitives -/

/-- R72: the formula on unbounded integers for every amount `0 < s < w`, the examples. The clauses the rule marks as
derived are in DatapathLaws. -/
def Obligations.RotateLeftFormula : Prop :=
  (∀ (w : Nat) (n : BitVec w) (s : Nat), 0 < s → s < w →
    (rotl n s).toNat = ((n.toNat <<< s) ||| (n.toNat >>> (w - s))) % 2 ^ w) ∧
  rotl (0x8001 : BitVec 16) 1 = 0x0003 ∧ rotl (0x123456 : BitVec 24) 8 = 0x345612 ∧
  rotl (0x123456789ABC : BitVec 48) 8 = 0x3456789ABC12

/-- R73: rotr is rotl by w - s, the result bit, the examples. That rotr and rotl undo each other is in
DatapathLaws. -/
def Obligations.RotateRightFormula : Prop :=
  (∀ (w : Nat) (n : BitVec w) (s : Nat), 0 < s → s < w →
    rotr n s = rotl n (w - s) ∧ ∀ j, j < w → (rotr n s).getLsbD j = n.getLsbD ((j + s) % w)) ∧
  rotr (0x0001 : BitVec 16) 3 = 0x2000 ∧ rotr (0xABCDEF : BitVec 24) 3 = 0xF579BD ∧
  rotr (0x0123456789ABCDEF : BitVec 64) 8 = 0xEF0123456789ABCD

/-- R74, R75, R76: NOT, addition and subtraction as integers modulo 2^w; the difference is the one word that the
sum takes back; the examples. The clauses the rules mark as derived are in DatapathLaws. -/
def Obligations.MaskedArithmetic : Prop :=
  (∀ (w : Nat) (n : BitVec w), (notW n).toNat = 2 ^ w - 1 - n.toNat ∧ notW n = n ^^^ BitVec.allOnes w) ∧
  (∀ (w : Nat) (a b c : BitVec w), (addW a b).toNat = (a.toNat + b.toNat) % 2 ^ w ∧ addW a b = addW b a ∧
    addW (addW a b) c = addW a (addW b c)) ∧
  (∀ (w : Nat) (a b : BitVec w), (subW a b).toNat = (a.toNat + 2 ^ w - b.toNat) % 2 ^ w ∧
    ∀ d, addW d b = a ↔ d = subW a b) ∧
  notW (0x0100 : BitVec 16) = 0xFEFF ∧ notW (0 : BitVec 24) = 0xFFFFFF ∧
  addW (0xE8CA : BitVec 16) 0x694C = 0x5216 ∧ addW (0xFFFFFF : BitVec 24) 1 = 0 ∧
  addW (0xFFFFFFFFFFFFFFFF : BitVec 64) 0xFFFFFFFFFFFFFFFF = 0xFFFFFFFFFFFFFFFE ∧
  subW (0 : BitVec 16) 1 = 0xFFFF ∧ subW (0 : BitVec 48) 1 = 0xFFFFFFFFFFFF ∧
  subW (0x5216 : BitVec 16) 0x694C = 0xE8CA

/-- R78: the nonlinear core, the same amounts at every width; not invertible; the examples. The corner cases, which
the rule marks as derived, are in DatapathLaws. -/
def Obligations.NonlinearCore : Prop :=
  (∀ (w : Nat) (x : BitVec w), fW x = (rotl x 1 &&& rotl x 8) ^^^ rotl x 2) ∧
  (∃ x y : BitVec 16, x ≠ y ∧ fW x = fW y) ∧
  fW (0x6565 : BitVec 16) = 0xD5D5 ∧ fW (0x612067 : BitVec 24) = 0x84C1DD ∧
  fW (0x6F722067 : BitVec 32) = 0xEFE8C1D3 ∧ fW (0x2072616C6C69 : BitVec 48) = 0xC1A9C5F9F9A4 ∧
  fW (0x6373656420737265 : BitVec 64) = 0xCFA9D590C1AFADD7

/-- What the spec itself infers of the primitives and of MemRead (the clauses of R72, R73, R74, R76, R78 and R33
marked derived): the
result bit of rotl, the corner amounts 0 and w, rotr and rotl undo each other, NOT with 3, the sum and the difference
undo each other, the corner cases of the nonlinear core, an unpacked word below `2^w` with no masking. The two corner
amounts are of no use to the CORE (log 14). -/
def Obligations.DatapathLaws : Prop :=
  (∀ (w : Nat) (n : BitVec w) (s : Nat), 0 < s → s < w →
    (∀ j, j < w → (rotl n s).getLsbD ((j + s) % w) = n.getLsbD j) ∧
    rotr (rotl n s) s = n ∧ rotl (rotr n s) s = n) ∧
  (∀ (w : Nat) (n : BitVec w), rotl n 0 = n ∧ rotl n w = n) ∧
  (∀ (w : Nat) (n : BitVec w), 2 ≤ w → notW n ^^^ 3 = n ^^^ BitVec.ofNat w (2 ^ w - 4)) ∧
  (∀ (w : Nat) (a b : BitVec w), subW (addW a b) b = a ∧ addW (subW a b) b = a) ∧
  (∀ w : Nat, 16 ≤ w → fW (0 : BitVec w) = 0 ∧ fW (BitVec.allOnes w) = 0 ∧ fW (1 : BitVec w) = 4 ∧
    fW (BitVec.twoPow w (w - 1)) = 2) ∧
  ∀ (v : Variant) (m : Memory) (addr : Nat),
    m.readLE addr v.n < 2 ^ v.w ∧ (readWord v.w m addr v.n).toNat = m.readLE addr v.n

/-! ### Constant source -/

/-- R91, R92, R96: the constant bit of a variant is bit `j mod 62` of its table, or the output of register U at
step `j mod 62`, under every setting of the parameters; R6, C8: the 28 bits that BM32_64 consumes are those that the known
vector pins, under every setting; and, under the spec's defaults, bit `j mod 62` of the table that R56
and R97 give the variant, BM32_64 with its register included. The defaults are PRESUMED values (log 6, log 7). -/
def Obligations.ConstantBits : Prop :=
  (∀ (p : Parameters) (v : Variant) (j : Nat),
    (∀ z, p.csrc v = some (.table z) → cbit p v j = (p.tables.get z).getLsbD (j % 62)) ∧
    (p.csrc v = some .registerU → v = .bm32_64 ∧ cbit p v j = lfsrOut (lfsrAfter p.taps.u (j % 62)))) ∧
  (∀ (p : Parameters) (j : Nat), j < 28 → cbit p .bm32_64 j = (0b0011100001101010010001011111 : BitVec 28).getLsbD j) ∧
  ∀ j : Nat,
    cbit .default .bm32_64 j = (0x19C3522FB386A45F : BitVec 62).getLsbD (j % 62) ∧
    cbit .default .bm48_72 j = (0x19C3522FB386A45F : BitVec 62).getLsbD (j % 62) ∧
    cbit .default .bm48_96 j = (0x16864FB8AD0C9F71 : BitVec 62).getLsbD (j % 62) ∧
    cbit .default .bm64_96 j = (0x3369F885192C0EF5 : BitVec 62).getLsbD (j % 62) ∧
    cbit .default .bm64_128 j = (0x3C2CE51207A635DB : BitVec 62).getLsbD (j % 62) ∧
    cbit .default .bm96_96 j = (0x3369F885192C0EF5 : BitVec 62).getLsbD (j % 62) ∧
    cbit .default .bm96_144 j = (0x3C2CE51207A635DB : BitVec 62).getLsbD (j % 62) ∧
    cbit .default .bm128_128 j = (0x3369F885192C0EF5 : BitVec 62).getLsbD (j % 62) ∧
    cbit .default .bm128_192 j = (0x3C2CE51207A635DB : BitVec 62).getLsbD (j % 62) ∧
    cbit .default .bm128_256 j = (0x3DC94C3A046D678B : BitVec 62).getLsbD (j % 62)

/-- R96 and R98: at every step register U gives the bits of z0, V those of z1, and W those of z4 with the alternating
sequence removed; each has the period 31 and is never zero. The taps and the tables are the defaults, PRESUMED values
(log 6, log 7). -/
def Obligations.ShiftRegisterIsTable : Prop :=
  (∀ j, lfsrOut (lfsrAfter Taps.default.u j) = (0x19C3522FB386A45F : BitVec 62).getLsbD (j % 62) ∧
    lfsrOut (lfsrAfter Taps.default.v j) = (0x16864FB8AD0C9F71 : BitVec 62).getLsbD (j % 62) ∧
    lfsrOut (lfsrAfter Taps.default.w j) = ((0x3DC94C3A046D678B : BitVec 62).getLsbD (j % 62) ^^ decide (j % 2 = 1))) ∧
  ∀ (reg : ShiftReg) (j : Nat),
    lfsrAfter (Taps.default.get reg) (j + 31) = lfsrAfter (Taps.default.get reg) j ∧
    lfsrAfter (Taps.default.get reg) j ≠ 0

/-- R93 and R94 of a register step, on integers: double, XOR 37 into the 6-bit value when its bit 5 is set, XOR one
further tap bit, for every tap; then R98, the taps of U, V and W, which are the defaults, PRESUMED values (log 7). -/
def Obligations.ShiftRegisterUpdate : Prop :=
  (∀ (tap : Option Tap) (r : BitVec 5),
    let t := if 32 ≤ 2 * r.toNat then (2 * r.toNat) ^^^ 37 else 2 * r.toNat
    let mask := match tap with
      | none                => 0
      | some ⟨.before b, d⟩ => ((r.toNat >>> b.val) &&& 1) <<< d.val
      | some ⟨.after b, d⟩  => ((t >>> b.val) &&& 1) <<< d.val
    (lfsrStep tap r).toNat = t ^^^ mask ∧ lfsrAfter tap 0 = 1 ∧ lfsrOut r = decide (r.toNat % 2 = 1)) ∧
  ∀ r : BitVec 5,
    let t := if 32 ≤ 2 * r.toNat then (2 * r.toNat) ^^^ 37 else 2 * r.toNat
    (lfsrStep Taps.default.u r).toNat = t ^^^ (r.toNat &&& 1) ∧
    (lfsrStep Taps.default.v r).toNat = t ^^^ (((r.toNat >>> 2) &&& 1) <<< 4) ∧
    (lfsrStep Taps.default.w r).toNat = t

/-! ### CONSTRUCT -/

/-- R105, R106, R110 for the ten BooleanMix forms of CONSTRUCT: with a key buffer that fits and has the valid length,
exec answers a next state whose round-key array starts with the slots and obeys the recurrence; `VSEL_L`, `PHASE`,
`STATUS` as published. `t.rkWord v.w i` is `RK[i]`, and `rkFits` says its upper bits are zero. What `CBIT` is,
ConstantBits says. -/
def Obligations.ConstructBooleanMix : Prop :=
  ∀ (v : Variant) (key : Desc) (s : State) (S : Nat → BitVec v.w),
    v.family = .booleanMix → s.ConstructReady v key → slotsAt s.params v s.mem key.base S →
    ∃ t, exec (Instr.construct v key) s = .next t ∧
      t.status = .ok ∧ t.phase = .keyExpanded ∧ t.vselL = v.vsel ∧ t.rkFits v ∧ t.result = s.result ∧
      (∀ j, j < v.m → t.rkWord v.w j = S j) ∧
      ∀ i, v.m ≤ i → i < v.T →
        let k := t.rkWord v.w
        let tmp1 := rotr (k (i - 1)) 3
        let tmp2 := if v.m = 4 then tmp1 ^^^ k (i - 3) else tmp1
        let tmp3 := tmp2 ^^^ rotr tmp2 1
        k i = notW (k (i - v.m)) ^^^ tmp3 ^^^ bitWord v.w (cbit s.params v (i - v.m)) ^^^ 3

/-- R107, R108, R109, R110 for the ten AddMix forms of CONSTRUCT: the round-key array and the auxiliary stream obey
the recurrence. -/
def Obligations.ConstructAddMix : Prop :=
  ∀ (v : Variant) (key : Desc) (s : State) (S : Nat → BitVec v.w),
    v.family = .addMix → s.ConstructReady v key → slotsAt s.params v s.mem key.base S →
    ∃ t, exec (Instr.construct v key) s = .next t ∧
      t.status = .ok ∧ t.phase = .keyExpanded ∧ t.vselL = v.vsel ∧ t.rkFits v ∧ t.result = s.result ∧
      ∃ aux : Nat → BitVec v.w,
        t.rkWord v.w 0 = S 0 ∧ (∀ j, j + 1 < v.m → aux j = S (j + 1)) ∧
        ∀ i, i + 1 < v.T →
          let k := t.rkWord v.w
          let A := if v.w = 16 then 7 else 8
          let B := if v.w = 16 then 2 else 3
          aux (i + v.m - 1) = addW (k i) (rotr (aux i) A) ^^^ BitVec.ofNat v.w i ∧
          k (i + 1) = rotl (k i) B ^^^ aux (i + v.m - 1)

/-- R103: BM32_64 takes the key words in reversed order under every setting of the parameters; each of the two orders
does what its name says. The order of another variant is a parameter (log 4). -/
def Obligations.SeedOrder : Prop :=
  (∀ p : Parameters, p.keymap .bm32_64 = .reversed) ∧
  ∀ (v : Variant) (kw : List (BitVec v.w)), kw.length = v.m →
    (∀ j, j < v.m → wordAt (seedSlots .direct kw) j = wordAt kw j) ∧
    (∀ j, j < v.m → wordAt (seedSlots .reversed kw) j = wordAt kw (v.m - 1 - j))

/-- R106 and R108, corner cases, which the rules mark as derived: the first generated key of an all-zero and of an
all-ones key, where the first constant bit is 1. It is 1 under the defaults (ConstantBits, log 6). -/
def Obligations.UniformKeys : Prop :=
  (∀ (p : Parameters) (v : Variant), v.family = .booleanMix → cbit p v 0 = true →
    wordAt (expand p v (List.replicate v.m 0)) v.m = BitVec.ofNat v.w (2 ^ v.w - 3) ∧
    wordAt (expand p v (List.replicate v.m (BitVec.allOnes v.w))) v.m = 2) ∧
  ∀ (p : Parameters) (v : Variant), v.family = .addMix →
    wordAt (expand p v (List.replicate v.m 0)) 1 = 0 ∧ wordAt (expand p v (List.replicate v.m 0)) 2 = 1 ∧
    wordAt (expand p v (List.replicate v.m (BitVec.allOnes v.w))) 1 = 1

/-- R101: a key length other than `n*m` ends every form of CONSTRUCT with `InvalidKeyLength` and no other effect,
whatever the bytes of the buffer. The table of the lengths, which the rule marks as derived, is in DescriptorFields. -/
def Obligations.InvalidKeyLengthRaised : Prop :=
  ∀ (v : Variant) (key : Desc) (s : State), key.fits s.params.addrBits = true → key.len ≠ v.w / 8 * v.m →
    ∃ t, exec (Instr.construct v key) s = .next t ∧ State.OnlyStatus s t .invalidKeyLength

/-- R104: the published array depends on the variant and the key bytes only, not on what was there before, on the
place of the key buffer, on `STATUS` or on any other byte of memory. The parameters are those of one CORE. -/
def Obligations.ConstructIsPure : Prop :=
  ∀ (v : Variant) (key key' : Desc) (s s' : State),
    s.params = s'.params → s.ConstructReady v key → s'.ConstructReady v key' →
    (∀ j, j < v.keyBytes → s.mem.read (key.base + j) = s'.mem.read (key'.base + j)) →
    ∃ t t', exec (Instr.construct v key) s = .next t ∧ exec (Instr.construct v key') s' = .next t' ∧
      t.phase = t'.phase ∧ t.vselL = t'.vselL ∧ t.status = t'.status ∧
      ∀ i : Fin 72, i.val < v.T → t.rk[i] = t'.rk[i]

/-- The frame of every form of CONSTRUCT, whatever its outcome: `RESULT`, every byte of memory and the host's moves
are unchanged; where it does not end with OK, so are `PHASE`, `VSEL_L` and `RK` (R24, R37). -/
def Obligations.ConstructFrame : Prop :=
  ∀ (v : Variant) (key : Desc) (s t : State), exec (Instr.construct v key) s = .next t →
    t.result = s.result ∧ (∀ x, t.mem.read x = s.mem.read x) ∧ t.host = s.host ∧
    (t.status ≠ .ok → t.phase = s.phase ∧ t.vselL = s.vselL ∧ t.rk = s.rk)

/-! ### ENCRYPT and DECRYPT -/

/-- R124, R125: ENCRYPT of shape DOUBLE. -/
def Obligations.EncryptDouble : Prop :=
  ∀ (v : Variant) (s : State) (dst src : Desc), v.shape = .double → s.CryptReady v dst src →
    ∃ (t : State) (xy : Nat → Pair v.w), exec (.encrypt dst src) s = .next t ∧ t.status = .ok ∧
      blockAt s.params v s.mem src.base (xy 0) ∧
      (∀ d, d < v.T / 2 →
        (xy (d + 1)).2 = (xy d).2 ^^^ fW (xy d).1 ^^^ s.rkWord v.w (2 * d) ∧
        (xy (d + 1)).1 = (xy d).1 ^^^ fW (xy (d + 1)).2 ^^^ s.rkWord v.w (2 * d + 1)) ∧
      blockAt s.params v t.mem dst.base (xy (v.T / 2))

/-- R128, R129: ENCRYPT of shape SWAP. -/
def Obligations.EncryptSwap : Prop :=
  ∀ (v : Variant) (s : State) (dst src : Desc), v.shape = .swap → s.CryptReady v dst src →
    ∃ (t : State) (xy : Nat → Pair v.w), exec (.encrypt dst src) s = .next t ∧ t.status = .ok ∧
      blockAt s.params v s.mem src.base (xy 0) ∧
      (∀ i, i < v.T → xy (i + 1) = ((xy i).2 ^^^ fW (xy i).1 ^^^ s.rkWord v.w i, (xy i).1)) ∧
      blockAt s.params v t.mem dst.base (xy v.T)

/-- R132, R133: ENCRYPT of shape ADD. -/
def Obligations.EncryptAdd : Prop :=
  ∀ (v : Variant) (s : State) (dst src : Desc), v.shape = .add → s.CryptReady v dst src →
    ∃ (t : State) (xy : Nat → Pair v.w), exec (.encrypt dst src) s = .next t ∧ t.status = .ok ∧
      blockAt s.params v s.mem src.base (xy 0) ∧
      (∀ i, i < v.T →
        (xy (i + 1)).1 = addW (rotr (xy i).1 (if v.w = 16 then 7 else 8)) (xy i).2 ^^^ s.rkWord v.w i ∧
        (xy (i + 1)).2 = rotl (xy i).2 (if v.w = 16 then 2 else 3) ^^^ (xy (i + 1)).1) ∧
      blockAt s.params v t.mem dst.base (xy v.T)

/-- R126, R127: DECRYPT of shape DOUBLE, `i` descending from T-1 by 2; `xy j` is the pair after `j` iterations. -/
def Obligations.DecryptDouble : Prop :=
  ∀ (v : Variant) (s : State) (dst src : Desc), v.shape = .double → s.CryptReady v dst src →
    ∃ (t : State) (xy : Nat → Pair v.w), exec (.decrypt dst src) s = .next t ∧ t.status = .ok ∧
      blockAt s.params v s.mem src.base (xy 0) ∧
      (∀ j, j < v.T / 2 →
        let i := v.T - 1 - 2 * j
        (xy (j + 1)).1 = (xy j).1 ^^^ fW (xy j).2 ^^^ s.rkWord v.w i ∧
        (xy (j + 1)).2 = (xy j).2 ^^^ fW (xy (j + 1)).1 ^^^ s.rkWord v.w (i - 1)) ∧
      blockAt s.params v t.mem dst.base (xy (v.T / 2))

/-- R130, R131: DECRYPT of shape SWAP, `i` descending from T-1. -/
def Obligations.DecryptSwap : Prop :=
  ∀ (v : Variant) (s : State) (dst src : Desc), v.shape = .swap → s.CryptReady v dst src →
    ∃ (t : State) (xy : Nat → Pair v.w), exec (.decrypt dst src) s = .next t ∧ t.status = .ok ∧
      blockAt s.params v s.mem src.base (xy 0) ∧
      (∀ j, j < v.T →
        xy (j + 1) = ((xy j).2, (xy j).1 ^^^ fW (xy j).2 ^^^ s.rkWord v.w (v.T - 1 - j))) ∧
      blockAt s.params v t.mem dst.base (xy v.T)

/-- R134, R135: DECRYPT of shape ADD, `i` descending from T-1. -/
def Obligations.DecryptAdd : Prop :=
  ∀ (v : Variant) (s : State) (dst src : Desc), v.shape = .add → s.CryptReady v dst src →
    ∃ (t : State) (xy : Nat → Pair v.w), exec (.decrypt dst src) s = .next t ∧ t.status = .ok ∧
      blockAt s.params v s.mem src.base (xy 0) ∧
      (∀ j, j < v.T →
        (xy (j + 1)).2 = rotr ((xy j).2 ^^^ (xy j).1) (if v.w = 16 then 2 else 3) ∧
        (xy (j + 1)).1 =
          rotl (subW ((xy j).1 ^^^ s.rkWord v.w (v.T - 1 - j)) (xy (j + 1)).2) (if v.w = 16 then 7 else 8)) ∧
      blockAt s.params v t.mem dst.base (xy v.T)

/-- The frame of ENCRYPT and DECRYPT, whatever the outcome (R23, R37): `PHASE`, `VSEL_L`, `RK`, `RESULT` and the
host's moves are unchanged, and so is every byte outside the first `2n` of the destination, all of memory where no
variant is latched. -/
def Obligations.CryptFrame : Prop :=
  ∀ (dir : Dir) (dst src : Desc) (s t : State), exec (cryptInstr dir dst src) s = .next t →
    t.phase = s.phase ∧ t.vselL = s.vselL ∧ t.rk = s.rk ∧ t.result = s.result ∧ t.host = s.host ∧
    ∀ x, (∀ v, Variant.ofVsel s.vselL = some v → x < dst.base ∨ dst.base + v.blockBytes ≤ x) →
      t.mem.read x = s.mem.read x

/-- R139: ENCRYPT and DECRYPT fail with `BufferTooShort` exactly when a buffer is shorter than the block. -/
def Obligations.BufferTooShortRaised : Prop :=
  ∀ (dir : Dir) (v : Variant) (dst src : Desc) (s : State),
    s.phase = .keyExpanded → Variant.ofVsel s.vselL = some v → dst.fits s.params.addrBits = true → src.fits s.params.addrBits = true →
    ∃ t, exec (cryptInstr dir dst src) s = .next t ∧
      (src.len < v.blockBytes ∨ dst.len < v.blockBytes → State.OnlyStatus s t .bufferTooShort) ∧
      (¬(src.len < v.blockBytes ∨ dst.len < v.blockBytes) → t.status = .ok)

/-- R136: DECRYPT after ENCRYPT, and ENCRYPT after DECRYPT, restore the `2n` block bytes. The second command reads
its block where the first one stored it. -/
def Obligations.CryptRoundTrip : Prop :=
  ∀ (dir : Dir) (v : Variant) (s : State) (dst src dst2 src2 : Desc),
    s.CryptReady v dst src → s.CryptReady v dst2 src2 → src2.base = dst.base →
    ∃ t u, exec (cryptInstr dir dst src) s = .next t ∧ exec (cryptInstr dir.opposite dst2 src2) t = .next u ∧
      u.status = .ok ∧
      ∀ j, j < v.blockBytes → u.mem.read (dst2.base + j) = s.mem.read (src.base + j)

/-- R143: the bytes written depend on the latched variant, `RK[0 .. T-1]`, its half order and the first `2n` source
bytes, and on nothing else. -/
def Obligations.CryptDependsOnSourceOnly : Prop :=
  ∀ (dir : Dir) (v : Variant) (s s' : State) (dst src dst' src' : Desc),
    s.CryptReady v dst src → s'.CryptReady v dst' src' → s.params.halfOrder v = s'.params.halfOrder v →
    (∀ i : Fin 72, i.val < v.T → s.rk[i] = s'.rk[i]) →
    (∀ j, j < v.blockBytes → s.mem.read (src.base + j) = s'.mem.read (src'.base + j)) →
    ∃ t t', exec (cryptInstr dir dst src) s = .next t ∧ exec (cryptInstr dir dst' src') s' = .next t' ∧
      ∀ j, j < v.blockBytes → t.mem.read (dst.base + j) = t'.mem.read (dst'.base + j)

/-- R38 and R174: encrypting or decrypting in place gives the bytes that a disjoint destination gets, and the bytes
of a longer buffer after the block are untouched. -/
def Obligations.InPlaceEqualsDisjoint : Prop :=
  ∀ (dir : Dir) (v : Variant) (s : State) (buf dst : Desc),
    s.CryptReady v buf buf → s.CryptReady v dst buf →
    (dst.base + v.blockBytes ≤ buf.base ∨ buf.base + v.blockBytes ≤ dst.base) →
    ∃ t u, exec (cryptInstr dir buf buf) s = .next t ∧ exec (cryptInstr dir dst buf) s = .next u ∧
      (∀ j, j < v.blockBytes → t.mem.read (buf.base + j) = u.mem.read (dst.base + j)) ∧
      (∀ j, v.blockBytes ≤ j → t.mem.read (buf.base + j) = s.mem.read (buf.base + j)) ∧
      ∀ j, j < v.blockBytes → u.mem.read (buf.base + j) = s.mem.read (buf.base + j)

/-- R163: two ENCRYPT or DECRYPT commands whose destinations are disjoint, and neither of which overwrites the
other's source, give the same bytes in either order. -/
def Obligations.DisjointCommandsCommute : Prop :=
  ∀ (d1 d2 : Dir) (v : Variant) (s : State) (dst1 src1 dst2 src2 : Desc),
    s.CryptReady v dst1 src1 → s.CryptReady v dst2 src2 →
    (∀ i j, i < v.blockBytes → j < v.blockBytes →
      dst1.base + i ≠ dst2.base + j ∧ dst1.base + i ≠ src2.base + j ∧
      dst2.base + i ≠ src1.base + j) →
    ∃ t1 t2 u1 u2,
      exec (cryptInstr d1 dst1 src1) s = .next t1 ∧ exec (cryptInstr d2 dst2 src2) t1 = .next t2 ∧
      exec (cryptInstr d2 dst2 src2) s = .next u1 ∧ exec (cryptInstr d1 dst1 src1) u1 = .next u2 ∧
      ∀ x, t2.mem.read x = u2.mem.read x

/-- R126, R130, R134: each inverse round undoes its forward round, and is undone by it. -/
def Obligations.InverseRoundsUndo : Prop :=
  (∀ (w : Nat) (k0 k1 : BitVec w) (p : Pair w),
    doubleInv k1 k0 (doubleFwd k0 k1 p) = p ∧ doubleFwd k0 k1 (doubleInv k1 k0 p) = p ∧
    swapInv k0 (swapFwd k0 p) = p ∧ swapFwd k0 (swapInv k0 p) = p) ∧
  ∀ (w A B : Nat) (k : BitVec w) (p : Pair w), 0 < A → A < w → 0 < B → B < w →
    addInv A B k (addFwd A B k p) = p ∧ addFwd A B k (addInv A B k p) = p

/-- R137: for an even number of rounds the loops of shape DOUBLE and of shape SWAP compute the same function, in both
directions. -/
def Obligations.DoubleEqualsSwap : Prop :=
  ∀ (w T : Nat) (rk : Nat → BitVec w) (p : Pair w), T % 2 = 0 →
    (List.range (T / 2)).foldl (fun q d => doubleFwd (rk (2 * d)) (rk (2 * d + 1)) q) p =
      (List.range T).foldl (fun q i => swapFwd (rk i) q) p ∧
    (List.range (T / 2)).foldl (fun q j => doubleInv (rk (T - 1 - 2 * j)) (rk (T - 1 - 2 * j - 1)) q) p =
      (List.range T).foldl (fun q j => swapInv (rk (T - 1 - j)) q) p

/-! ### BLOCKSIZE -/

/-- R138, whole: with a key expanded, BLOCKSIZE answers the block size of the latched variant and changes nothing
else, whatever its descriptors; with none it is refused; a word whose `VSEL` field is not zero is illegal. -/
def Obligations.BlocksizeAnswers : Prop :=
  (∀ a b : Desc, decode ⟨0x80, a, b⟩ = .ok .blocksize) ∧
  (∀ (v : Variant) (s : State), s.phase = .keyExpanded → Variant.ofVsel s.vselL = some v →
    ∃ t, exec .blocksize s = .next t ∧ t.status = .ok ∧ t.result.toNat = 2 * (v.w / 8) ∧
      t.result.toNat ∈ [4, 6, 8, 12, 16] ∧
      t.phase = s.phase ∧ t.vselL = s.vselL ∧ t.rk = s.rk ∧ t.host = s.host ∧ ∀ x, t.mem.read x = s.mem.read x) ∧
  (∀ s : State, s.phase = .unconstructed →
    ∃ t, exec .blocksize s = .next t ∧ State.OnlyStatus s t .notConstructed) ∧
  ∀ (s : State) (c : Command) (rest : List HostMove), s.host = .command c :: rest → c.op = 4 → c.vsel ≠ 0 →
    ∃ t, step s = .next t ∧ State.OnlyStatus { s with host := rest } t .illegalCommand

/-- The frame of BLOCKSIZE, whatever the outcome: only `STATUS` and `RESULT` change (R23, R138). -/
def Obligations.BlocksizeFrame : Prop :=
  ∀ s t : State, exec .blocksize s = .next t →
    t.phase = s.phase ∧ t.vselL = s.vselL ∧ t.rk = s.rk ∧ t.host = s.host ∧
    (∀ x, t.mem.read x = s.mem.read x) ∧ (t.status ≠ .ok → t.result = s.result)

/-! ### Errors and refusals -/

/-- R156: the order of the checks after decoding, for every command; each check is stated where the ones before it
pass. Where `VSEL_L` is a reserved code, which no run reaches (log 12), nothing is said after the phase check. -/
def Obligations.CheckPriority : Prop :=
  (∀ (v : Variant) (key : Desc) (s : State), ∃ t, exec (Instr.construct v key) s = .next t ∧
    (key.fits s.params.addrBits = false → State.OnlyStatus s t .illegalCommand) ∧
    (key.fits s.params.addrBits = true → key.len ≠ v.keyBytes → State.OnlyStatus s t .invalidKeyLength) ∧
    (key.fits s.params.addrBits = true → key.len = v.keyBytes → t.status = .ok)) ∧
  (∀ (dir : Dir) (dst src : Desc) (s : State),
    (dst.fits s.params.addrBits = false ∨ src.fits s.params.addrBits = false →
      ∃ t, exec (cryptInstr dir dst src) s = .next t ∧ State.OnlyStatus s t .illegalCommand) ∧
    (dst.fits s.params.addrBits = true → src.fits s.params.addrBits = true → s.phase = .unconstructed →
      ∃ t, exec (cryptInstr dir dst src) s = .next t ∧ State.OnlyStatus s t .notConstructed) ∧
    (∀ v, dst.fits s.params.addrBits = true → src.fits s.params.addrBits = true → s.phase = .keyExpanded → Variant.ofVsel s.vselL = some v →
      ∃ t, exec (cryptInstr dir dst src) s = .next t ∧
        (src.len < v.blockBytes ∨ dst.len < v.blockBytes → State.OnlyStatus s t .bufferTooShort) ∧
        (v.blockBytes ≤ src.len → v.blockBytes ≤ dst.len → t.status = .ok))) ∧
  (∀ s : State, s.phase = .unconstructed →
    ∃ t, exec .blocksize s = .next t ∧ State.OnlyStatus s t .notConstructed) ∧
  ∀ (s : State) (c : Command) (rest : List HostMove), s.host = .command c :: rest →
    (c.op.toNat ∈ [0, 5, 6, 7] ∨ (c.op = 1 ∧ Variant.ofVsel c.vsel = none) ∨
      (c.op.toNat ∈ [2, 3, 4] ∧ c.vsel ≠ 0)) →
    ∃ t, step s = .next t ∧ State.OnlyStatus { s with host := rest } t .illegalCommand

/-- R154: a command that does not end with OK leaves `PHASE`, `VSEL_L`, `RK`, `RESULT` and every host byte as they
were, whichever instruction it is, and whether or not its word decodes. -/
def Obligations.FailureChangesOnlyStatus : Prop :=
  (∀ (i : Instr) (s t : State), exec i s = .next t → t.status ≠ .ok → State.OnlyStatus s t t.status) ∧
  ∀ (s t : State) (c : Command) (rest : List HostMove), s.host = .command c :: rest → step s = .next t →
    t.status ≠ .ok → State.OnlyStatus { s with host := rest } t t.status

/-- The one stop of the model (log 12): a state whose latched variant is a reserved code, which StepKeepsInvariant
rules out of every run, has no step for ENCRYPT, DECRYPT and BLOCKSIZE. -/
def Obligations.ReservedLatchStops : Prop :=
  ∀ s : State, s.phase = .keyExpanded → Variant.ofVsel s.vselL = none →
    exec .blocksize s = .fault .reservedVariantLatched ∧
    ∀ (dir : Dir) (dst src : Desc), dst.fits s.params.addrBits = true → src.fits s.params.addrBits = true →
      exec (cryptInstr dir dst src) s = .fault .reservedVariantLatched

/-- R151 and R58: which command can end with which code, and the numbers of the codes; R11: the numbers of `PHASE`. -/
def Obligations.StatusCauses : Prop :=
  (∀ (i : Instr) (s t : State), exec i s = .next t →
    (t.status = .invalidKeyLength → isConstruct i = true) ∧
    (t.status = .bufferTooShort → ∃ dir dst src, i = cryptInstr dir dst src) ∧
    (t.status = .notConstructed → isConstruct i = false ∧ s.phase = .unconstructed) ∧
    (t.status = .illegalCommand → i.wellFormed s.params.addrBits = false)) ∧
  [Status.ok, .invalidKeyLength, .bufferTooShort, .notConstructed, .illegalCommand].map Status.code = [0, 1, 2, 3, 4] ∧
  [Phase.unconstructed, .keyExpanded].map Phase.code = [0, 1]

/-! ### The whole machine -/

/-- R170: what reset leaves, in the state after power-on and in the step that resets: `PHASE`, `STATUS`, `RESULT`;
host memory untouched. -/
def Obligations.ResetLeaves : Prop :=
  (State.reset.phase.code = 0 ∧ State.reset.status.code = 0 ∧ State.reset.result = 0 ∧ State.reset.host = []) ∧
  ∀ (s : State) (rest : List HostMove), s.host = .reset :: rest →
    ∃ t, step s = .next t ∧ t.phase.code = 0 ∧ t.status.code = 0 ∧ t.result = 0 ∧ t.host = rest ∧
      ∀ x, t.mem.read x = s.mem.read x

/-- The invariant holds at reset. The zeros it meets there are the model's choice (log 2, log 8). -/
def Obligations.ResetMeetsInvariant : Prop := State.reset.Inv

/-- Every step keeps the invariant: memory in canonical form, a latched variant that is legal with round keys of its
width, `RESULT` a block size, operands of `ADDR_BITS` bits. -/
def Obligations.StepKeepsInvariant : Prop :=
  ∀ s t : State, s.Inv → step s = .next t → t.Inv

/-- R141, R150, R183: from a state that meets the invariant no run of any length stops: the CORE never halts and has
no failure but its `STATUS` codes. -/
def Obligations.RunsNeverStop : Prop :=
  ∀ s : State, s.Inv → s.Safe

/-- R176 and R23: `RK`, `VSEL_L` and `PHASE` are written by a step only where the host's move is a reset or a command
that decodes to a CONSTRUCT. -/
def Obligations.OnlyConstructWritesRoundKeys : Prop :=
  ∀ s t : State, step s = .next t → (t.rk ≠ s.rk ∨ t.vselL ≠ s.vselL ∨ t.phase ≠ s.phase) →
    (∃ rest, s.host = .reset :: rest) ∨ ∃ i, s.aboutTo i ∧ isConstruct i = true

/-- R11 and R170: reset is the only way from `PHASE` 1 back to `PHASE` 0, and only a CONSTRUCT sets it to 1. -/
def Obligations.PhaseLifeCycle : Prop :=
  ∀ s t : State, step s = .next t →
    (s.phase = .keyExpanded → t.phase = .unconstructed → ∃ rest, s.host = .reset :: rest) ∧
    (s.phase = .unconstructed → t.phase = .keyExpanded →
      t.status = .ok ∧ ∃ v key, s.aboutTo (Instr.construct v key))

/-- R30 and R37: a byte of host memory changes in a step only where the host stores it, or where it lies in the first
`2n` bytes of the destination of an ENCRYPT or a DECRYPT. -/
def Obligations.WhoWritesMemory : Prop :=
  ∀ (s t : State) (x : Nat), step s = .next t → t.mem.read x ≠ s.mem.read x →
    (∃ addr byte rest, s.host = .store addr byte :: rest ∧ x = addr % 2 ^ s.params.addrBits) ∨
    ∃ dir dst src v, s.aboutTo (cryptInstr dir dst src) ∧ Variant.ofVsel s.vselL = some v ∧
      dst.base ≤ x ∧ x < dst.base + v.blockBytes

/-- R25 and R62: no step changes the parameters of the CORE. -/
def Obligations.ParametersFixed : Prop := ∀ s t : State, step s = .next t → t.params = s.params

/-- R20: `RESULT` changes in a step only where the host's move is a reset or a BLOCKSIZE. -/
def Obligations.OnlyBlocksizeWritesResult : Prop :=
  ∀ s t : State, step s = .next t → t.result ≠ s.result →
    (∃ rest, s.host = .reset :: rest) ∨ s.aboutTo .blocksize

/-- With no move of the host to come the CORE is idle, and a byte the host stores is the one byte of memory that
changes (the model's conventions of log 1 and log 3, with R5 and R170). -/
def Obligations.HostMoves : Prop :=
  (∀ s : State, s.host = [] → step s = .next s) ∧
  ∀ (s : State) (addr : Nat) (byte : Byte) (rest : List HostMove), s.host = .store addr byte :: rest →
    ∃ t, step s = .next t ∧ t.mem.read (addr % 2 ^ s.params.addrBits) = byte ∧
      (∀ x, x ≠ addr % 2 ^ s.params.addrBits → t.mem.read x = s.mem.read x) ∧
      t.phase = s.phase ∧ t.vselL = s.vselL ∧ t.rk = s.rk ∧ t.status = s.status ∧ t.result = s.result ∧
      t.scratch = s.scratch ∧ t.current = s.current ∧ t.params = s.params ∧ t.host = rest

/-- R33: a word has `n = w/8` bytes; MemRead is the little-endian sum of the bytes, MemWrite stores byte `i` of the
value at `addr + i` and leaves every other byte; the examples. That an unpacked word needs no masking, which the rule
marks as derived, is in DatapathLaws. -/
def Obligations.LittleEndianAccess : Prop :=
  (∀ v : Variant, 8 * v.n = v.w ∧ v.n ∈ [2, 3, 4, 6, 8]) ∧
  (∀ (m : Memory) (addr n : Nat),
    m.readLE addr n = ((List.range n).map fun i => (m.read (addr + i)).toNat <<< (8 * i)).sum) ∧
  (∀ (m : Memory) (addr n v x : Nat),
    (m.writeLE addr n v).read x =
      if addr ≤ x ∧ x < addr + n then BitVec.ofNat 8 ((v >>> (8 * (x - addr))) &&& 0xFF) else m.read x) ∧
  Memory.readLE [(0, 0x18), (1, 0x19)] 0 2 = 0x1918 ∧
  Memory.readLE [(0, 0x67), (1, 0x20), (2, 0x61)] 0 3 = 0x612067

/-! ### The stepping refinement -/

/-- R112: the stepping CONSTRUCT ends in the state of the command level, after `T-m` or `T-1` iterations and three
more steps on success and after its check on failure; a CONSTRUCT word with a reserved `VSEL` ends at its check. It holds
under every setting of the parameters: for BM32_64 with register U as its source, the live register gives the bits that
the command level takes from the register's table (log 18), whatever the tables (log 6) and the taps (log 7). -/
def Obligations.ConstructSteppingRefines : Prop :=
  (∀ (v : Variant) (key : Desc) (s t : State),
    decode s.current = .ok (Instr.construct v key) → exec (Instr.construct v key) s = .next t →
    firstSub s.current = .ksCheck ∧
    (t.status = .ok → microRun (ksTrips v + 3) ⟨.ksCheck, s⟩ = .next ⟨.done, t⟩) ∧
    (t.status ≠ .ok → microRun 1 ⟨.ksCheck, s⟩ = .next ⟨.done, t⟩)) ∧
  ∀ (s : State) (e : DecodeError), s.current.op = 1 → decode s.current = .error e →
    firstSub s.current = .ksCheck ∧ microRun 1 ⟨.ksCheck, s⟩ = .next ⟨.done, s.raise .illegalCommand⟩

/-- R140: the stepping ENCRYPT and DECRYPT end in the state of the command level, after `T/2` or `T` rounds and three
more steps on success and after their check on failure; a word with a stray `VSEL` field ends at its check. -/
def Obligations.CryptSteppingRefines : Prop :=
  (∀ (dir : Dir) (dst src : Desc) (s t : State),
    decode s.current = .ok (cryptInstr dir dst src) → exec (cryptInstr dir dst src) s = .next t →
    firstSub s.current = .rtCheck ∧
    (t.status = .ok → ∃ v, Variant.ofVsel s.vselL = some v ∧
      microRun (rtTrips v + 3) ⟨.rtCheck, s⟩ = .next ⟨.done, t⟩) ∧
    (t.status ≠ .ok → microRun 1 ⟨.rtCheck, s⟩ = .next ⟨.done, t⟩)) ∧
  ∀ (s : State) (e : DecodeError), s.current.op = 2 ∨ s.current.op = 3 → decode s.current = .error e →
    firstSub s.current = .rtCheck ∧ microRun 1 ⟨.rtCheck, s⟩ = .next ⟨.done, s.raise .illegalCommand⟩

/-- R112 and R140: what `I` holds as a command runs: in iteration `d` of CONSTRUCT `m + d` or `d`; in round `d` of
ENCRYPT `d`, of DECRYPT `T-1-2d` or `T-1-d`; after the last round one more where the loop counts up (72 in BM128_256,
log 18), and the last index where it counts down. -/
def Obligations.RoundIndexCounts : Prop :=
  (∀ (v : Variant) (key : Desc) (s : State) (d : Nat), decode s.current = .ok (Instr.construct v key) →
    s.ConstructReady v key → d ≤ ksTrips v →
    ∃ r, microRun (d + 2) ⟨.ksCheck, s⟩ = .next r ∧ (r.sub = if d < ksTrips v then .ksRun else .ksPublish) ∧
      r.core.scratch.i.toNat = (match v.family with | .booleanMix => v.m | .addMix => 0) + d) ∧
  ∀ (dir : Dir) (v : Variant) (dst src : Desc) (s : State) (d : Nat),
    decode s.current = .ok (cryptInstr dir dst src) → s.CryptReady v dst src → d ≤ rtTrips v →
    ∃ r, microRun (d + 2) ⟨.rtCheck, s⟩ = .next r ∧ (r.sub = if d < rtTrips v then .rtRun else .rtStore) ∧
      r.core.scratch.i.toNat =
        match dir, v.shape with
        | .encrypt, _       => d
        | .decrypt, .double => v.T - 1 - 2 * min d (v.T / 2 - 1)
        | .decrypt, _       => v.T - 1 - min d (v.T - 1)

/-- R15: from a state with `I` at most 71, `I` is at most 71 as long as the running command has a round to come, and it
never wraps: where all rounds are done (`KS_PUBLISH`, `RT_STORE`) it is at most 72. That the bound 71 is about the
rounds, and 72 the end of the loop, is the model's reading (log 18). -/
def Obligations.RoundIndexBounded : Prop :=
  ∀ (s : State) (n : Nat) (r : Running), s.scratch.i.toNat ≤ 71 →
    microRun n ⟨firstSub s.current, s⟩ = .next r → r.sub ≠ .done →
    r.core.scratch.i.toNat ≤ if r.sub = .ksPublish ∨ r.sub = .rtStore then 72 else 71

/-- R181: the sub-states and round indices a running command goes through depend on the command, `PHASE`, `VSEL_L` and
the CORE's parameters only, never on key, round-key or block values. -/
def Obligations.ConstantControlFlow : Prop :=
  ∀ s s' : State, s'.current = s.current → s'.phase = s.phase → s'.vselL = s.vselL → s'.params = s.params →
    ∀ n, controlAfter n ⟨firstSub s.current, s⟩ = controlAfter n ⟨firstSub s.current, s'⟩

/-- R79: in the physical registers of a running command the bits `w .. 63` are zero: in `KW[0 .. m-1]`, `k[]` and, for AddMix,
`AUX` once the key is loaded, in `TMP` once the BooleanMix loop has run, and in `X` and `Y` once the block is. -/
def Obligations.RunningWordsAreMasked : Prop :=
  (∀ (v : Variant) (key : Desc) (s : State) (n : Nat) (r : Running),
    decode s.current = .ok (Instr.construct v key) → microRun n ⟨.ksCheck, s⟩ = .next r →
    (r.sub = .ksRun ∨ r.sub = .ksPublish) →
    (∀ i : Fin 4, i.val < v.m → (r.core.scratch.kw[i]).toNat < 2 ^ v.w) ∧
    (∀ k ∈ r.core.scratch.k, k.toNat < 2 ^ v.w) ∧
    (v.family = .addMix → ∀ k ∈ r.core.scratch.aux, k.toNat < 2 ^ v.w) ∧
    (v.family = .booleanMix → r.sub = .ksPublish → r.core.scratch.tmp.toNat < 2 ^ v.w)) ∧
  ∀ (dir : Dir) (dst src : Desc) (v : Variant) (s : State) (n : Nat) (r : Running),
    decode s.current = .ok (cryptInstr dir dst src) → Variant.ofVsel s.vselL = some v →
    microRun n ⟨.rtCheck, s⟩ = .next r → (r.sub = .rtRun ∨ r.sub = .rtStore) →
    r.core.scratch.x.toNat < 2 ^ v.w ∧ r.core.scratch.y.toNat < 2 ^ v.w
end

