-- ==== Sys2Proof/Laws/Descriptor.lean ====
section
/-! SUPPORT. Facts of the descriptor table that later proofs cite, and the coding of variants. -/

namespace Sys2Proof

theorem Variant.w_le (v : Variant) : v.w ≤ 64 := by cases v <;> decide
theorem Variant.w_ge (v : Variant) : 16 ≤ v.w := by cases v <;> decide
theorem Variant.w_eq (v : Variant) : v.w = 8 * v.n := by cases v <;> decide
theorem Variant.T_le (v : Variant) : v.T ≤ 72 := by cases v <;> decide
theorem Variant.m_lt_T (v : Variant) : v.m < v.T := by cases v <;> decide
theorem Variant.m_ge (v : Variant) : 2 ≤ v.m := by cases v <;> decide
theorem Variant.T_even (v : Variant) (h : v.shape = .double) : v.T % 2 = 0 := by
  cases v <;> first | rfl | (exact absurd h (by decide))

/-- The two rotation amounts of AddMix lie strictly between 0 and `w`. -/
theorem Variant.rot_bounds (v : Variant) : 0 < v.rotA ∧ v.rotA < v.w ∧ 0 < v.rotB ∧ v.rotB < v.w := by
  cases v <;> decide

/-- A latched `VSEL` code names its variant. -/
@[simp] theorem Variant.ofVsel_vsel (v : Variant) : Variant.ofVsel v.vsel = some v := by cases v <;> rfl

/-- Storing and loading a word through a physical register changes nothing. -/
@[simp] theorem Variant.setWidth_physical (v : Variant) (k : BitVec v.w) : (k.setWidth 64).setWidth v.w = k :=
  BitVec.eq_of_toNat_eq <| by
    have := Nat.pow_le_pow_right (n := 2) (by decide) v.w_le
    rw [BitVec.toNat_setWidth, BitVec.toNat_setWidth, Nat.mod_eq_of_lt (a := k.toNat) (by omega),
      Nat.mod_eq_of_lt k.isLt]

/-- A physical word made from a word of `w` bits has the upper bits zero. -/
theorem Variant.physical_lt (v : Variant) (k : BitVec v.w) : (k.setWidth 64).toNat < 2 ^ v.w := by
  rw [BitVec.toNat_setWidth]
  exact Nat.lt_of_le_of_lt (Nat.mod_le _ _) k.isLt

namespace Machine

/-- A descriptor wraps exactly when it does not fit. -/
theorem wraps_eq_not_fits (bits : Nat) (d : Desc) : wraps bits d = !d.fits bits := by
  simp only [wraps, Desc.fits, ← decide_not, Nat.not_le]

end Machine

end Sys2Proof
end

