-- ==== Sys2Proof/Laws/Datapath.lean ====
section
/-! SUPPORT. Laws of the datapath: the lengths of the arrays of the key schedule, loops that undo each other, and
what publishing leaves in the round-key store. -/

namespace Sys2Proof.Machine

variable {w : Nat}

theorem wordAt_append_lt (k l : List (BitVec w)) {i : Nat} (h : i < k.length) : wordAt (k ++ l) i = wordAt k i := by
  simp [wordAt, List.getElem?_append_left h]

theorem wordAt_append_last (k : List (BitVec w)) (x : BitVec w) : wordAt (k ++ [x]) k.length = x := by
  simp [wordAt]

/-- A loop that appends one word a step has one word more for each step. -/
theorem length_foldl_append {α : Type} (f : List (BitVec w) → α → BitVec w) (l : List α) (k : List (BitVec w)) :
    (l.foldl (fun k a => k ++ [f k a]) k).length = k.length + l.length := by
  induction l generalizing k with
  | nil => rfl
  | cons a l ih => simp [ih]; omega

/-- BooleanMix expansion gives `T` round keys from `m` slots (42_key_schedule.md R111). -/
theorem length_bmExpand {m T : Nat} (cb : Nat → Bool) (slots : List (BitVec w)) (hs : slots.length = m) (hm : m ≤ T) :
    (bmExpand m T cb slots).length = T := by
  unfold bmExpand
  rw [length_foldl_append (fun k j => bmKey m (cb j) k (m + j))]
  simp [hs]
  omega

/-- The AddMix loop extends both streams by one word a step. -/
theorem length_foldl_amStep (A B : Nat) (l : List Nat) (p : List (BitVec w) × List (BitVec w)) :
    (l.foldl (amStep A B) p).1.length = p.1.length + l.length ∧
    (l.foldl (amStep A B) p).2.length = p.2.length + l.length := by
  induction l generalizing p with
  | nil => exact ⟨rfl, rfl⟩
  | cons i l ih =>
    obtain ⟨h1, h2⟩ := ih (amStep A B p i)
    rw [List.foldl_cons, h1, h2]
    simp only [amStep, List.length_append, List.length_cons, List.length_nil]
    omega

/-- AddMix expansion gives `T` round keys, and `T+m-2` auxiliary words, from `m` slots (R108, R111). -/
theorem length_amExpand (A B : Nat) {m T : Nat} (slots : List (BitVec w)) (hs : slots.length = m) (hm : 0 < m)
    (hT : 0 < T) :
    (amExpand A B T slots).1.length = T ∧ (amExpand A B T slots).2.length = T + m - 2 := by
  unfold amExpand
  obtain ⟨h1, h2⟩ := length_foldl_amStep A B (List.range (T - 1)) (slots.take 1, slots.drop 1)
  rw [h1, h2]
  simp [hs]
  omega

theorem length_keyWords (v : Variant) (m : Memory) (key : Desc) : (keyWords v m key).length = v.m := by
  simp [keyWords]

@[simp] theorem length_seedSlots (map : KeyMap) (kw : List (BitVec w)) : (seedSlots map kw).length = kw.length := by
  cases map <;> simp [seedSlots]

/-- A variant's expansion gives `T` round keys (R111). -/
theorem length_expand (p : Parameters) (v : Variant) (slots : List (BitVec v.w)) (hs : slots.length = v.m) :
    (expand p v slots).length = v.T := by
  have := v.m_lt_T
  unfold expand
  split
  · exact length_bmExpand _ _ hs (by omega)
  · exact (length_amExpand _ _ slots hs (by have := v.m_ge; omega) (by omega)).1

/-- What publishing leaves at an index below `T`. -/
theorem publishedRk_lt {T : Nat} (k : List PWord) (fresh : Nat) (i : Fin 72) (h : i.val < T) :
    (publishedRk T k fresh)[i] = k.getD i.val 0 := by
  simp [publishedRk, h]

/-- Words in the round-key store after CONSTRUCT are words of the variant's width. -/
theorem roundKeys_lt (p : Parameters) (v : Variant) (m : Memory) (key : Desc) (i : Nat) :
    ((roundKeys p v m key).getD i 0).toNat < 2 ^ v.w := by
  unfold roundKeys
  rw [List.getD_eq_getElem?_getD, List.getElem?_map]
  cases (expand p v (seedSlots (p.keymap v) (keyWords v m key)))[i]? with
  | none => simp
  | some k => simpa using v.physical_lt k

/-- A loop over a list, then over its reverse with inverses, gives the start back. -/
theorem foldl_reverse_undo {α β : Type} (f g : α → β → α) (l : List β) (h : ∀ x, ∀ b ∈ l, g (f x b) b = x) (x : α) :
    l.reverse.foldl g (l.foldl f x) = x := by
  induction l generalizing x with
  | nil => rfl
  | cons b l ih =>
    have hl := ih (fun y c hc => h y c (List.mem_cons_of_mem _ hc)) (f x b)
    rw [List.foldl_cons, List.reverse_cons, List.foldl_append, hl]
    exact h x b List.mem_cons_self

end Sys2Proof.Machine
end

