-- ==== Sys2Proof/Laws/Decode.lean ====
section
/-! SUPPORT. What the decoder reads from a command word, whatever the descriptors. -/

namespace Sys2Proof

/-- The fields of the word of a CONSTRUCT: `OP` is 0b001 and `VSEL` the variant's code. -/
theorem op_construct (v : Variant) (a b : Desc) : Command.op ⟨(0b001 : BitVec 3) ++ v.vsel, a, b⟩ = 1 := by
  show ((0b001 : BitVec 3) ++ v.vsel).extractLsb' 5 3 = 1
  cases v <;> decide

theorem vsel_construct (v : Variant) (a b : Desc) : Command.vsel ⟨(0b001 : BitVec 3) ++ v.vsel, a, b⟩ = v.vsel := by
  show ((0b001 : BitVec 3) ++ v.vsel).extractLsb' 0 5 = v.vsel
  cases v <;> decide

/-- The word of a CONSTRUCT decodes to it, with descriptor `A` its key buffer; `B` is ignored (R51). -/
theorem decode_construct (v : Variant) (a b : Desc) :
    decode ⟨(0b001 : BitVec 3) ++ v.vsel, a, b⟩ = .ok (Instr.construct v a) := by
  have h : Variant.ofVsel v.vsel = some v := by cases v <;> rfl
  unfold decode
  rw [op_construct, vsel_construct, h]
  rfl

theorem decode_encrypt (a b : Desc) : decode ⟨0x40, a, b⟩ = .ok (.encrypt a b) := by
  simp [decode, decodeNoVsel, Command.op, Command.vsel]

theorem decode_decrypt (a b : Desc) : decode ⟨0x60, a, b⟩ = .ok (.decrypt a b) := by
  simp [decode, decodeNoVsel, Command.op, Command.vsel]

theorem decode_blocksize (a b : Desc) : decode ⟨0x80, a, b⟩ = .ok .blocksize := by
  simp [decode, decodeNoVsel, Command.op, Command.vsel]

end Sys2Proof
end

