-- ==== Sys2Proof/Laws/State.lean ====
section
/-! SUPPORT. What each named update of the state leaves in each field. -/

namespace Sys2Proof.Machine

/-! ### endCommand -/

@[simp] theorem State.endCommand_phase (s : State) : s.endCommand.phase = s.phase := rfl
@[simp] theorem State.endCommand_vselL (s : State) : s.endCommand.vselL = s.vselL := rfl
@[simp] theorem State.endCommand_rk (s : State) : s.endCommand.rk = s.rk := rfl
@[simp] theorem State.endCommand_status (s : State) : s.endCommand.status = s.status := rfl
@[simp] theorem State.endCommand_result (s : State) : s.endCommand.result = s.result := rfl
@[simp] theorem State.endCommand_scratch (s : State) : s.endCommand.scratch = freeScratch s.fresh := rfl
@[simp] theorem State.endCommand_current (s : State) : s.endCommand.current = freeCommand s.params.addrBits s.fresh := rfl
@[simp] theorem State.endCommand_mem (s : State) : s.endCommand.mem = s.mem := rfl
@[simp] theorem State.endCommand_host (s : State) : s.endCommand.host = s.host := rfl
@[simp] theorem State.endCommand_fresh (s : State) : s.endCommand.fresh = s.fresh + 1 := rfl
@[simp] theorem State.endCommand_params (s : State) : s.endCommand.params = s.params := rfl

/-! ### raise -/

@[simp] theorem State.raise_phase (s : State) (code : Status) : (s.raise code).phase = s.phase := rfl
@[simp] theorem State.raise_vselL (s : State) (code : Status) : (s.raise code).vselL = s.vselL := rfl
@[simp] theorem State.raise_rk (s : State) (code : Status) : (s.raise code).rk = s.rk := rfl
@[simp] theorem State.raise_status (s : State) (code : Status) : (s.raise code).status = code := rfl
@[simp] theorem State.raise_result (s : State) (code : Status) : (s.raise code).result = s.result := rfl
@[simp] theorem State.raise_scratch (s : State) (code : Status) : (s.raise code).scratch = freeScratch s.fresh := rfl
@[simp] theorem State.raise_current (s : State) (code : Status) : (s.raise code).current = freeCommand s.params.addrBits s.fresh := rfl
@[simp] theorem State.raise_mem (s : State) (code : Status) : (s.raise code).mem = s.mem := rfl
@[simp] theorem State.raise_host (s : State) (code : Status) : (s.raise code).host = s.host := rfl
@[simp] theorem State.raise_fresh (s : State) (code : Status) : (s.raise code).fresh = s.fresh + 1 := rfl
@[simp] theorem State.raise_params (s : State) (code : Status) : (s.raise code).params = s.params := rfl

/-! ### publish -/

@[simp] theorem State.publish_phase (s : State) (v : Variant) (k : List PWord) : (s.publish v k).phase = .keyExpanded := rfl
@[simp] theorem State.publish_vselL (s : State) (v : Variant) (k : List PWord) : (s.publish v k).vselL = v.vsel := rfl
@[simp] theorem State.publish_rk (s : State) (v : Variant) (k : List PWord) : (s.publish v k).rk = publishedRk v.T k s.fresh := rfl
@[simp] theorem State.publish_status (s : State) (v : Variant) (k : List PWord) : (s.publish v k).status = .ok := rfl
@[simp] theorem State.publish_result (s : State) (v : Variant) (k : List PWord) : (s.publish v k).result = s.result := rfl
@[simp] theorem State.publish_scratch (s : State) (v : Variant) (k : List PWord) : (s.publish v k).scratch = freeScratch s.fresh := rfl
@[simp] theorem State.publish_current (s : State) (v : Variant) (k : List PWord) : (s.publish v k).current = freeCommand s.params.addrBits s.fresh := rfl
@[simp] theorem State.publish_mem (s : State) (v : Variant) (k : List PWord) : (s.publish v k).mem = s.mem := rfl
@[simp] theorem State.publish_host (s : State) (v : Variant) (k : List PWord) : (s.publish v k).host = s.host := rfl
@[simp] theorem State.publish_fresh (s : State) (v : Variant) (k : List PWord) : (s.publish v k).fresh = s.fresh + 1 := rfl
@[simp] theorem State.publish_params (s : State) (v : Variant) (k : List PWord) : (s.publish v k).params = s.params := rfl

/-! ### finishStore -/

@[simp] theorem State.finishStore_phase (s : State) (m : Memory) : (s.finishStore m).phase = s.phase := rfl
@[simp] theorem State.finishStore_vselL (s : State) (m : Memory) : (s.finishStore m).vselL = s.vselL := rfl
@[simp] theorem State.finishStore_rk (s : State) (m : Memory) : (s.finishStore m).rk = s.rk := rfl
@[simp] theorem State.finishStore_status (s : State) (m : Memory) : (s.finishStore m).status = .ok := rfl
@[simp] theorem State.finishStore_result (s : State) (m : Memory) : (s.finishStore m).result = s.result := rfl
@[simp] theorem State.finishStore_scratch (s : State) (m : Memory) : (s.finishStore m).scratch = freeScratch s.fresh := rfl
@[simp] theorem State.finishStore_current (s : State) (m : Memory) : (s.finishStore m).current = freeCommand s.params.addrBits s.fresh := rfl
@[simp] theorem State.finishStore_mem (s : State) (m : Memory) : (s.finishStore m).mem = m := rfl
@[simp] theorem State.finishStore_host (s : State) (m : Memory) : (s.finishStore m).host = s.host := rfl
@[simp] theorem State.finishStore_fresh (s : State) (m : Memory) : (s.finishStore m).fresh = s.fresh + 1 := rfl
@[simp] theorem State.finishStore_params (s : State) (m : Memory) : (s.finishStore m).params = s.params := rfl

/-! ### finishResult -/

@[simp] theorem State.finishResult_phase (s : State) (r : BitVec 8) : (s.finishResult r).phase = s.phase := rfl
@[simp] theorem State.finishResult_vselL (s : State) (r : BitVec 8) : (s.finishResult r).vselL = s.vselL := rfl
@[simp] theorem State.finishResult_rk (s : State) (r : BitVec 8) : (s.finishResult r).rk = s.rk := rfl
@[simp] theorem State.finishResult_status (s : State) (r : BitVec 8) : (s.finishResult r).status = .ok := rfl
@[simp] theorem State.finishResult_result (s : State) (r : BitVec 8) : (s.finishResult r).result = r := rfl
@[simp] theorem State.finishResult_scratch (s : State) (r : BitVec 8) : (s.finishResult r).scratch = freeScratch s.fresh := rfl
@[simp] theorem State.finishResult_current (s : State) (r : BitVec 8) : (s.finishResult r).current = freeCommand s.params.addrBits s.fresh := rfl
@[simp] theorem State.finishResult_mem (s : State) (r : BitVec 8) : (s.finishResult r).mem = s.mem := rfl
@[simp] theorem State.finishResult_host (s : State) (r : BitVec 8) : (s.finishResult r).host = s.host := rfl
@[simp] theorem State.finishResult_fresh (s : State) (r : BitVec 8) : (s.finishResult r).fresh = s.fresh + 1 := rfl
@[simp] theorem State.finishResult_params (s : State) (r : BitVec 8) : (s.finishResult r).params = s.params := rfl

/-! ### issue -/

@[simp] theorem State.issue_phase (s : State) (c : Command) : (s.issue c).phase = s.phase := rfl
@[simp] theorem State.issue_vselL (s : State) (c : Command) : (s.issue c).vselL = s.vselL := rfl
@[simp] theorem State.issue_rk (s : State) (c : Command) : (s.issue c).rk = s.rk := rfl
@[simp] theorem State.issue_status (s : State) (c : Command) : (s.issue c).status = s.status := rfl
@[simp] theorem State.issue_result (s : State) (c : Command) : (s.issue c).result = s.result := rfl
@[simp] theorem State.issue_scratch (s : State) (c : Command) : (s.issue c).scratch = s.scratch := rfl
@[simp] theorem State.issue_current (s : State) (c : Command) : (s.issue c).current = c := rfl
@[simp] theorem State.issue_mem (s : State) (c : Command) : (s.issue c).mem = s.mem := rfl
@[simp] theorem State.issue_host (s : State) (c : Command) : (s.issue c).host = s.host := rfl
@[simp] theorem State.issue_fresh (s : State) (c : Command) : (s.issue c).fresh = s.fresh := rfl
@[simp] theorem State.issue_params (s : State) (c : Command) : (s.issue c).params = s.params := rfl

/-! ### hostStore -/

@[simp] theorem State.hostStore_phase (s : State) (addr : Nat) (byte : Byte) : (s.hostStore addr byte).phase = s.phase := rfl
@[simp] theorem State.hostStore_vselL (s : State) (addr : Nat) (byte : Byte) : (s.hostStore addr byte).vselL = s.vselL := rfl
@[simp] theorem State.hostStore_rk (s : State) (addr : Nat) (byte : Byte) : (s.hostStore addr byte).rk = s.rk := rfl
@[simp] theorem State.hostStore_status (s : State) (addr : Nat) (byte : Byte) : (s.hostStore addr byte).status = s.status := rfl
@[simp] theorem State.hostStore_result (s : State) (addr : Nat) (byte : Byte) : (s.hostStore addr byte).result = s.result := rfl
@[simp] theorem State.hostStore_scratch (s : State) (addr : Nat) (byte : Byte) : (s.hostStore addr byte).scratch = s.scratch := rfl
@[simp] theorem State.hostStore_current (s : State) (addr : Nat) (byte : Byte) : (s.hostStore addr byte).current = s.current := rfl
@[simp] theorem State.hostStore_mem (s : State) (addr : Nat) (byte : Byte) : (s.hostStore addr byte).mem = s.mem.write addr byte := rfl
@[simp] theorem State.hostStore_host (s : State) (addr : Nat) (byte : Byte) : (s.hostStore addr byte).host = s.host := rfl
@[simp] theorem State.hostStore_fresh (s : State) (addr : Nat) (byte : Byte) : (s.hostStore addr byte).fresh = s.fresh := rfl
@[simp] theorem State.hostStore_params (s : State) (addr : Nat) (byte : Byte) : (s.hostStore addr byte).params = s.params := rfl

/-! ### afterReset -/

@[simp] theorem State.afterReset_phase (s : State) : s.afterReset.phase = .unconstructed := rfl
@[simp] theorem State.afterReset_vselL (s : State) : s.afterReset.vselL = (Config.freeWord s.fresh 10).setWidth 5 := rfl
@[simp] theorem State.afterReset_rk (s : State) : s.afterReset.rk = Vector.ofFn fun i => Config.freeRk s.fresh i.val := rfl
@[simp] theorem State.afterReset_status (s : State) : s.afterReset.status = .ok := rfl
@[simp] theorem State.afterReset_result (s : State) : s.afterReset.result = 0 := rfl
@[simp] theorem State.afterReset_scratch (s : State) : s.afterReset.scratch = freeScratch s.fresh := rfl
@[simp] theorem State.afterReset_current (s : State) : s.afterReset.current = freeCommand s.params.addrBits s.fresh := rfl
@[simp] theorem State.afterReset_mem (s : State) : s.afterReset.mem = s.mem := rfl
@[simp] theorem State.afterReset_host (s : State) : s.afterReset.host = s.host := rfl
@[simp] theorem State.afterReset_fresh (s : State) : s.afterReset.fresh = s.fresh + 1 := rfl
@[simp] theorem State.afterReset_params (s : State) : s.afterReset.params = s.params := rfl

end Sys2Proof.Machine
end

