-- ==== Sys2Proof/Laws/Exec.lean ====
section
/-! SUPPORT. What each instruction and each step can do, said once: the verdicts of the checks, the outcomes of the
shared operations, the outcomes of a step. -/

namespace Sys2Proof.Machine

/-! ### The instructions by operation -/

@[simp] theorem operation_construct (v : Variant) (key : Desc) :
    (Instr.construct v key).operation = .construct v key := by cases v <;> rfl

/-- Every CONSTRUCT form is the shared operation on its variant. -/
theorem exec_construct (v : Variant) (key : Desc) (s : State) :
    exec (Instr.construct v key) s = construct v key s := by cases v <;> rfl

theorem exec_encrypt (dst src : Desc) (s : State) : exec (.encrypt dst src) s = crypt .encrypt dst src s := rfl

theorem exec_decrypt (dst src : Desc) (s : State) : exec (.decrypt dst src) s = crypt .decrypt dst src s := rfl

theorem exec_blocksize (s : State) : exec .blocksize s = execBlocksize s := rfl

/-- Every instruction is one of the four operations. -/
theorem instr_cases (i : Instr) :
    (∃ v key, i = Instr.construct v key) ∨ (∃ dst src, i = .encrypt dst src) ∨ (∃ dst src, i = .decrypt dst src) ∨
      i = .blocksize := by
  cases i with
  | encrypt dst src => exact .inr (.inl ⟨dst, src, rfl⟩)
  | decrypt dst src => exact .inr (.inr (.inl ⟨dst, src, rfl⟩))
  | blocksize => exact .inr (.inr (.inr rfl))
  | constructBm32_64 key => exact .inl ⟨.bm32_64, key, rfl⟩
  | constructBm48_72 key => exact .inl ⟨.bm48_72, key, rfl⟩
  | constructBm48_96 key => exact .inl ⟨.bm48_96, key, rfl⟩
  | constructBm64_96 key => exact .inl ⟨.bm64_96, key, rfl⟩
  | constructBm64_128 key => exact .inl ⟨.bm64_128, key, rfl⟩
  | constructBm96_96 key => exact .inl ⟨.bm96_96, key, rfl⟩
  | constructBm96_144 key => exact .inl ⟨.bm96_144, key, rfl⟩
  | constructBm128_128 key => exact .inl ⟨.bm128_128, key, rfl⟩
  | constructBm128_192 key => exact .inl ⟨.bm128_192, key, rfl⟩
  | constructBm128_256 key => exact .inl ⟨.bm128_256, key, rfl⟩
  | constructAm32_64 key => exact .inl ⟨.am32_64, key, rfl⟩
  | constructAm48_72 key => exact .inl ⟨.am48_72, key, rfl⟩
  | constructAm48_96 key => exact .inl ⟨.am48_96, key, rfl⟩
  | constructAm64_96 key => exact .inl ⟨.am64_96, key, rfl⟩
  | constructAm64_128 key => exact .inl ⟨.am64_128, key, rfl⟩
  | constructAm96_96 key => exact .inl ⟨.am96_96, key, rfl⟩
  | constructAm96_144 key => exact .inl ⟨.am96_144, key, rfl⟩
  | constructAm128_128 key => exact .inl ⟨.am128_128, key, rfl⟩
  | constructAm128_192 key => exact .inl ⟨.am128_192, key, rfl⟩
  | constructAm128_256 key => exact .inl ⟨.am128_256, key, rfl⟩

/-! ### The verdicts -/

/-- The checks of CONSTRUCT proceed on its own variant, under its two conditions. -/
theorem constructVerdict_proceed {bits : Nat} {v u : Variant} {key : Desc} :
    constructVerdict bits v key = .proceed u ↔ u = v ∧ key.fits bits = true ∧ key.len = v.keyBytes := by
  unfold constructVerdict
  rw [wraps_eq_not_fits]
  by_cases hf : key.fits bits = true <;> by_cases hl : key.len = v.keyBytes <;> simp [hf, hl, eq_comm]

/-- CONSTRUCT ends early with one of two codes. -/
theorem constructVerdict_ends {bits : Nat} {v : Variant} {key : Desc} {code : Status} :
    constructVerdict bits v key = .ends code ↔
      (key.fits bits = false ∧ code = .illegalCommand) ∨
      (key.fits bits = true ∧ key.len ≠ v.keyBytes ∧ code = .invalidKeyLength) := by
  unfold constructVerdict
  rw [wraps_eq_not_fits]
  by_cases hf : key.fits bits = true <;> by_cases hl : key.len = v.keyBytes <;> simp [hf, hl, eq_comm]

theorem constructVerdict_not_stuck {bits : Nat} {v : Variant} {key : Desc} {r : Fault} : constructVerdict bits v key ≠ .stuck r := by
  unfold constructVerdict
  split
  · exact nofun
  · split <;> exact nofun

/-- The phase check proceeds where a key is expanded and a variant is latched. -/
theorem latchedVerdict_proceed {s : State} {v : Variant} :
    latchedVerdict s = .proceed v ↔ s.phase = .keyExpanded ∧ Variant.ofVsel s.vselL = some v := by
  unfold latchedVerdict
  cases s.phase with
  | unconstructed => simp
  | keyExpanded => cases Variant.ofVsel s.vselL <;> simp

theorem latchedVerdict_ends {s : State} {code : Status} :
    latchedVerdict s = .ends code ↔ s.phase = .unconstructed ∧ code = .notConstructed := by
  unfold latchedVerdict
  cases s.phase with
  | unconstructed => simp [eq_comm]
  | keyExpanded => cases Variant.ofVsel s.vselL <;> simp

theorem latchedVerdict_stuck {s : State} {r : Fault} :
    latchedVerdict s = .stuck r ↔ s.phase = .keyExpanded ∧ Variant.ofVsel s.vselL = none := by
  unfold latchedVerdict
  cases s.phase with
  | unconstructed => simp
  | keyExpanded => cases Variant.ofVsel s.vselL <;> cases r <;> simp

/-- The checks of ENCRYPT and DECRYPT proceed under all their conditions. -/
theorem cryptVerdict_proceed {dst src : Desc} {s : State} {v : Variant} :
    cryptVerdict dst src s = .proceed v ↔
      dst.fits s.params.addrBits = true ∧ src.fits s.params.addrBits = true ∧ s.phase = .keyExpanded ∧ Variant.ofVsel s.vselL = some v ∧
      v.blockBytes ≤ src.len ∧ v.blockBytes ≤ dst.len := by
  unfold cryptVerdict
  rw [wraps_eq_not_fits, wraps_eq_not_fits]
  by_cases hf : dst.fits s.params.addrBits = true ∧ src.fits s.params.addrBits = true
  · rw [if_neg (by simp [hf])]
    cases hl : latchedVerdict s with
    | proceed u =>
      obtain ⟨hp, hu⟩ := latchedVerdict_proceed.mp hl
      by_cases hlen : src.len < u.blockBytes ∨ dst.len < u.blockBytes
      · simp only [lengthVerdict, if_pos hlen, reduceCtorEq, hu, Option.some.injEq, false_iff]
        rintro ⟨-, -, -, rfl, h1, h2⟩
        omega
      · simp only [lengthVerdict, if_neg hlen, Verdict.proceed.injEq, hu, Option.some.injEq, hp, hf, true_and]
        refine ⟨?_, fun h => h.1⟩
        rintro rfl
        exact ⟨rfl, by omega, by omega⟩
    | ends code => simp [(latchedVerdict_ends.mp hl).1]
    | stuck r => simp [(latchedVerdict_stuck.mp hl).2]
  · rw [if_pos (by simpa [imp_iff_not_or] using hf)]
    simp only [reduceCtorEq, false_iff]
    exact fun h => hf ⟨h.1, h.2.1⟩

/-- ENCRYPT and DECRYPT end early with one of three codes. -/
theorem cryptVerdict_ends {dst src : Desc} {s : State} {code : Status} (h : cryptVerdict dst src s = .ends code) :
    ((dst.fits s.params.addrBits = false ∨ src.fits s.params.addrBits = false) ∧ code = .illegalCommand) ∨
    (s.phase = .unconstructed ∧ code = .notConstructed) ∨
    (∃ v, Variant.ofVsel s.vselL = some v ∧
      (src.len < v.blockBytes ∨ dst.len < v.blockBytes) ∧ code = .bufferTooShort) := by
  unfold cryptVerdict at h
  rw [wraps_eq_not_fits, wraps_eq_not_fits] at h
  split at h
  · next hw =>
    refine .inl ⟨?_, by cases h; rfl⟩
    simpa using hw
  · split at h
    · next v hl =>
      unfold lengthVerdict at h
      split at h
      · next hlen => exact .inr (.inr ⟨v, (latchedVerdict_proceed.mp hl).2, hlen, by cases h; rfl⟩)
      · cases h
    · exact .inr (.inl (latchedVerdict_ends.mp h))

/-! ### The outcomes of the shared operations -/

/-- A command answers a next state in two ways: its effect, or an error or refusal. -/
theorem conclude_next {verdict : Verdict} {effect : Variant → State} {s t : State} :
    conclude verdict effect s = .next t ↔
      (∃ v, verdict = .proceed v ∧ t = effect v) ∨ ∃ code, verdict = .ends code ∧ t = s.raise code := by
  cases verdict <;> simp [conclude, eq_comm]

/-- All that CONSTRUCT can do. -/
theorem construct_next {v : Variant} {key : Desc} {s t : State} :
    construct v key s = .next t ↔
      (key.fits s.params.addrBits = true ∧ key.len = v.keyBytes ∧ t = s.publish v (roundKeys s.params v s.mem key)) ∨
      ∃ code, constructVerdict s.params.addrBits v key = .ends code ∧ t = s.raise code := by
  unfold construct
  rw [conclude_next]
  refine or_congr_left ⟨?_, ?_⟩
  · rintro ⟨u, hu, rfl⟩
    obtain ⟨rfl, hf, hl⟩ := constructVerdict_proceed.mp hu
    exact ⟨hf, hl, rfl⟩
  · rintro ⟨hf, hl, rfl⟩
    exact ⟨v, constructVerdict_proceed.mpr ⟨rfl, hf, hl⟩, rfl⟩

/-- CONSTRUCT always answers a next state. -/
theorem construct_total (v : Variant) (key : Desc) (s : State) : ∃ t, construct v key s = .next t := by
  unfold construct conclude
  split
  · exact ⟨_, rfl⟩
  · exact ⟨_, rfl⟩
  · next h => exact absurd h constructVerdict_not_stuck

/-- All that ENCRYPT and DECRYPT can do. -/
theorem crypt_next {dir : Dir} {dst src : Desc} {s t : State} :
    crypt dir dst src s = .next t ↔
      (∃ v, cryptVerdict dst src s = .proceed v ∧ t = s.finishStore (cryptMemory dir v dst src s)) ∨
      ∃ code, cryptVerdict dst src s = .ends code ∧ t = s.raise code := conclude_next

/-- All that BLOCKSIZE can do. -/
theorem execBlocksize_next {s t : State} :
    execBlocksize s = .next t ↔
      (∃ v, s.phase = .keyExpanded ∧ Variant.ofVsel s.vselL = some v ∧
        t = s.finishResult (BitVec.ofNat 8 v.blockBytes)) ∨
      (s.phase = .unconstructed ∧ t = s.raise .notConstructed) := by
  unfold execBlocksize blocksizeVerdict
  rw [conclude_next]
  refine or_congr ⟨?_, ?_⟩ ⟨?_, ?_⟩
  · rintro ⟨v, hv, rfl⟩
    obtain ⟨hp, hv⟩ := latchedVerdict_proceed.mp hv
    exact ⟨v, hp, hv, rfl⟩
  · rintro ⟨v, hp, hv, rfl⟩
    exact ⟨v, latchedVerdict_proceed.mpr ⟨hp, hv⟩, rfl⟩
  · rintro ⟨code, hc, rfl⟩
    obtain ⟨hp, rfl⟩ := latchedVerdict_ends.mp hc
    exact ⟨hp, rfl⟩
  · rintro ⟨hp, rfl⟩
    exact ⟨_, latchedVerdict_ends.mpr ⟨hp, rfl⟩, rfl⟩

/-- All that an instruction can do: publish, store, answer the block size, or raise. -/
theorem exec_next {i : Instr} {s t : State} (h : exec i s = .next t) :
    (∃ v key, i = Instr.construct v key ∧ key.fits s.params.addrBits = true ∧ key.len = v.keyBytes ∧
      t = s.publish v (roundKeys s.params v s.mem key)) ∨
    (∃ dir dst src v, (i = .encrypt dst src ∧ dir = .encrypt ∨ i = .decrypt dst src ∧ dir = .decrypt) ∧
      cryptVerdict dst src s = .proceed v ∧ t = s.finishStore (cryptMemory dir v dst src s)) ∨
    (∃ v, i = .blocksize ∧ s.phase = .keyExpanded ∧ Variant.ofVsel s.vselL = some v ∧
      t = s.finishResult (BitVec.ofNat 8 v.blockBytes)) ∨
    ∃ code, code ≠ .ok ∧ t = s.raise code := by
  rcases instr_cases i with ⟨v, key, rfl⟩ | ⟨dst, src, rfl⟩ | ⟨dst, src, rfl⟩ | rfl
  · rw [exec_construct] at h
    rcases construct_next.mp h with ⟨hf, hl, rfl⟩ | ⟨code, hc, rfl⟩
    · exact .inl ⟨v, key, rfl, hf, hl, rfl⟩
    · refine .inr (.inr (.inr ⟨code, ?_, rfl⟩))
      rcases constructVerdict_ends.mp hc with ⟨-, rfl⟩ | ⟨-, -, rfl⟩ <;> exact nofun
  · rcases crypt_next.mp h with ⟨v, hv, rfl⟩ | ⟨code, hc, rfl⟩
    · exact .inr (.inl ⟨.encrypt, dst, src, v, .inl ⟨rfl, rfl⟩, hv, rfl⟩)
    · refine .inr (.inr (.inr ⟨code, ?_, rfl⟩))
      rcases cryptVerdict_ends hc with ⟨-, rfl⟩ | ⟨-, rfl⟩ | ⟨_, -, -, rfl⟩ <;> exact nofun
  · rcases crypt_next.mp h with ⟨v, hv, rfl⟩ | ⟨code, hc, rfl⟩
    · exact .inr (.inl ⟨.decrypt, dst, src, v, .inr ⟨rfl, rfl⟩, hv, rfl⟩)
    · refine .inr (.inr (.inr ⟨code, ?_, rfl⟩))
      rcases cryptVerdict_ends hc with ⟨-, rfl⟩ | ⟨-, rfl⟩ | ⟨_, -, -, rfl⟩ <;> exact nofun
  · rcases execBlocksize_next.mp h with ⟨v, hp, hv, rfl⟩ | ⟨hp, rfl⟩
    · exact .inr (.inr (.inl ⟨v, rfl, hp, hv, rfl⟩))
    · exact .inr (.inr (.inr ⟨.notConstructed, nofun, rfl⟩))

/-! ### The outcomes of a step -/

/-- All that a step can do: idle, perform a store or a reset of the host, execute a command, refuse a word. -/
theorem step_next {s t : State} (h : step s = .next t) :
    (s.host = [] ∧ t = s) ∨
    ∃ move rest, s.host = move :: rest ∧
      ((∃ addr byte, move = .store addr byte ∧ t = State.hostStore { s with host := rest } (addr % 2 ^ s.params.addrBits) byte) ∨
       (move = .reset ∧ t = State.afterReset { s with host := rest }) ∨
       (∃ c i, move = .command c ∧ decode (c.atPort s.params.addrBits) = .ok i ∧
         exec i (State.issue { s with host := rest } (c.atPort s.params.addrBits)) = .next t) ∨
       (∃ c e, move = .command c ∧ decode (c.atPort s.params.addrBits) = .error e ∧
         t = (State.issue { s with host := rest } (c.atPort s.params.addrBits)).raise .illegalCommand)) := by
  unfold step at h
  split at h
  · next hh => exact .inl ⟨hh, by cases h; rfl⟩
  · next move rest hh =>
    refine .inr ⟨move, rest, hh, ?_⟩
    cases move with
    | store addr byte => exact .inl ⟨addr, byte, rfl, by cases h; rfl⟩
    | reset => exact .inr (.inl ⟨rfl, by cases h; rfl⟩)
    | command c =>
      simp only [HostMove.atPort, perform, runCommand] at h
      split at h
      · next i hi => exact .inr (.inr (.inl ⟨c, i, rfl, hi, h⟩))
      · next e he => exact .inr (.inr (.inr ⟨c, e, rfl, he, by cases h; rfl⟩))

end Sys2Proof.Machine
end

