-- ==== Sys2Proof/Laws/Memory.lean ====
section
/-! SUPPORT. Laws of host memory: read after write, and that every memory operation keeps the canonical form. -/

namespace Sys2Proof.Machine

@[simp] theorem Memory.read_nil (x : Nat) : Memory.read [] x = Memory.unlisted := rfl

theorem Memory.read_cons (a : Nat) (b : Byte) (m : Memory) (x : Nat) :
    Memory.read ((a, b) :: m) x = if x = a then b else m.read x := rfl

theorem Memory.read_unlist (m : Memory) (x y : Nat) :
    (m.unlist x).read y = if y = x then Memory.unlisted else m.read y := by
  induction m with
  | nil => simp [Memory.unlist]
  | cons c m ih =>
    obtain ⟨a, b⟩ := c
    by_cases h : a = x
    · have : Memory.unlist ((a, b) :: m) x = Memory.unlist m x := by simp [Memory.unlist, h]
      rw [this, ih, Memory.read_cons]
      by_cases hy : y = x <;> simp [hy, h]
    · have : Memory.unlist ((a, b) :: m) x = (a, b) :: Memory.unlist m x := by simp [Memory.unlist, h]
      rw [this, Memory.read_cons, Memory.read_cons, ih]
      by_cases hy : y = x
      · subst hy
        simp [Ne.symm h]
      · simp [hy]

theorem Memory.read_enlist (m : Memory) (x y : Nat) (c : Byte) (h : ∀ d ∈ m, d.1 ≠ x) :
    (m.enlist x c).read y = if y = x then c else m.read y := by
  induction m with
  | nil => simp [Memory.enlist, Memory.read_cons]
  | cons d m ih =>
    obtain ⟨a, b⟩ := d
    have ha : a ≠ x := h (a, b) List.mem_cons_self
    have ih := ih fun d hd => h d (List.mem_cons_of_mem _ hd)
    unfold Memory.enlist
    split
    · simp [Memory.read_cons]
    · rw [Memory.read_cons, ih, Memory.read_cons]
      by_cases hy : y = x
      · subst hy
        simp [Ne.symm ha]
      · simp [hy]

theorem Memory.mem_unlist_ne {m : Memory} {x : Nat} {d : Host.Cell} (h : d ∈ m.unlist x) : d ∈ m ∧ d.1 ≠ x := by
  simpa [Memory.unlist] using h

/-- A read after a write: the byte written at its address, the old byte everywhere else. -/
theorem Memory.read_write (m : Memory) (x y : Nat) (c : Byte) :
    (m.write x c).read y = if y = x then c else m.read y := by
  unfold Memory.write
  split
  · next h => rw [Memory.read_unlist, h]
  · rw [Memory.read_enlist _ _ _ _ fun d hd => (Memory.mem_unlist_ne hd).2, Memory.read_unlist]
    split <;> rfl

@[simp] theorem Memory.read_write_same (m : Memory) (x : Nat) (c : Byte) : (m.write x c).read x = c := by
  simp [Memory.read_write]

theorem Memory.read_write_other (m : Memory) (x y : Nat) (c : Byte) (h : y ≠ x) :
    (m.write x c).read y = m.read y := by
  simp [Memory.read_write, h]

/-! ### The canonical form -/

variable {bits : Nat}

theorem Memory.wf_cons {c : Host.Cell} {m : Memory} :
    Memory.wf bits (c :: m) = true ↔ Memory.cellOk bits c = true ∧ (∀ d ∈ m, c.1 < d.1) ∧ m.wf bits = true := by
  simp [Memory.wf, and_assoc]

theorem Memory.wf_unlist {m : Memory} (x : Nat) (h : m.wf bits = true) : (m.unlist x).wf bits = true := by
  induction m with
  | nil => rfl
  | cons c m ih =>
    obtain ⟨hc, hlt, hm⟩ := Memory.wf_cons.mp h
    by_cases hx : c.1 = x
    · have : Memory.unlist (c :: m) x = Memory.unlist m x := by simp [Memory.unlist, hx]
      rw [this]
      exact ih hm
    · have : Memory.unlist (c :: m) x = c :: Memory.unlist m x := by simp [Memory.unlist, hx]
      rw [this]
      exact Memory.wf_cons.mpr ⟨hc, fun d hd => hlt d (Memory.mem_unlist_ne hd).1, ih hm⟩

theorem Memory.mem_enlist {m : Memory} {x : Nat} {c : Byte} {d : Host.Cell} (h : d ∈ m.enlist x c) :
    d = (x, c) ∨ d ∈ m := by
  induction m with
  | nil => simpa [Memory.enlist] using h
  | cons e m ih =>
    obtain ⟨a, b⟩ := e
    unfold Memory.enlist at h
    split at h
    · simpa using h
    · rcases List.mem_cons.mp h with h | h
      · exact .inr (h ▸ List.mem_cons_self)
      · exact (ih h).imp_right (List.mem_cons_of_mem _)

theorem Memory.wf_enlist {m : Memory} {x : Nat} {c : Byte} (h : m.wf bits = true) (hx : ∀ d ∈ m, d.1 ≠ x)
    (hc : Memory.cellOk bits (x, c) = true) : (m.enlist x c).wf bits = true := by
  induction m with
  | nil => exact Memory.wf_cons.mpr ⟨hc, by simp, rfl⟩
  | cons e m ih =>
    obtain ⟨a, b⟩ := e
    obtain ⟨he, hlt, hm⟩ := Memory.wf_cons.mp h
    have hax : a ≠ x := hx (a, b) List.mem_cons_self
    unfold Memory.enlist
    split
    · next hxa =>
      refine Memory.wf_cons.mpr ⟨hc, fun d hd => ?_, h⟩
      rcases List.mem_cons.mp hd with rfl | hd
      · exact hxa
      · exact Nat.lt_trans hxa (hlt d hd)
    · next hxa =>
      refine Memory.wf_cons.mpr ⟨he, fun d hd => ?_, ih hm fun d hd => hx d (List.mem_cons_of_mem _ hd)⟩
      rcases Memory.mem_enlist hd with rfl | hd
      · exact Nat.lt_of_le_of_ne (Nat.le_of_not_lt hxa) hax
      · exact hlt d hd

/-- A write inside the address space keeps the canonical form. -/
theorem Memory.wf_write {m : Memory} {x : Nat} (c : Byte) (hx : x < 2 ^ bits) (h : m.wf bits = true) :
    (m.write x c).wf bits = true := by
  unfold Memory.write
  split
  · exact Memory.wf_unlist x h
  · next hc =>
    refine Memory.wf_enlist (Memory.wf_unlist x h) (fun d hd => (Memory.mem_unlist_ne hd).2) ?_
    simp only [Memory.cellOk, Bool.and_eq_true, decide_eq_true_eq]
    exact ⟨hx, hc⟩

/-- MemWrite inside the address space keeps the canonical form. -/
theorem Memory.wf_writeLE {m : Memory} {addr n : Nat} (v : Nat) (ha : addr + n ≤ 2 ^ bits) (h : m.wf bits = true) :
    (m.writeLE addr n v).wf bits = true := by
  induction n generalizing m addr v with
  | zero => exact h
  | succ n ih => exact ih _ (by omega) (Memory.wf_write _ (by omega) h)

/-- Storing a block inside the address space keeps the canonical form. -/
theorem wf_storeBlock {p : Parameters} {v : Variant} {m : Memory} {dst : Desc} (xy : BitVec v.w × BitVec v.w)
    (ha : dst.base + v.blockBytes ≤ 2 ^ bits) (h : m.wf bits = true) :
    (storeBlock p v m dst xy).wf bits = true := by
  unfold Variant.blockBytes at ha
  exact Memory.wf_writeLE _ (by omega) (Memory.wf_writeLE _ (by omega) h)

/-- Two memories in canonical form that read alike at every address are the same list. -/
theorem Memory.ext_of_read {m m' : Memory} (h : m.wf bits = true) (h' : m'.wf bits = true)
    (hr : ∀ x, m.read x = m'.read x) : m = m' := by
  have below : ∀ {l : Memory} {x : Nat}, (∀ d ∈ l, x < d.1) → l.read x = Memory.unlisted := by
    intro l x hl
    induction l with
    | nil => rfl
    | cons d l ih =>
      obtain ⟨a, b⟩ := d
      have : x ≠ a := Nat.ne_of_lt (hl (a, b) List.mem_cons_self)
      rw [Memory.read_cons, if_neg this]
      exact ih fun d hd => hl d (List.mem_cons_of_mem _ hd)
  have listed : ∀ {a : Nat} {b : Byte} {l : Memory}, Memory.wf bits ((a, b) :: l) = true → b ≠ Memory.unlisted := by
    intro a b l hl
    have := (Memory.wf_cons.mp hl).1
    simp only [Memory.cellOk, Bool.and_eq_true, decide_eq_true_eq] at this
    exact this.2
  have low : ∀ {a : Nat} {b : Byte} {l : Memory} {x : Nat}, Memory.wf bits ((a, b) :: l) = true → x < a →
      Memory.read ((a, b) :: l) x = Memory.unlisted := by
    intro a b l x hl hx
    refine below fun d hd => ?_
    rcases List.mem_cons.mp hd with rfl | hd
    · exact hx
    · exact Nat.lt_trans hx ((Memory.wf_cons.mp hl).2.1 d hd)
  induction m generalizing m' with
  | nil =>
    cases m' with
    | nil => rfl
    | cons c' m' =>
      obtain ⟨a', b'⟩ := c'
      have := hr a'
      simp only [Memory.read_nil, Memory.read_cons, if_true] at this
      exact absurd this.symm (listed h')
  | cons c m ih =>
    obtain ⟨a, b⟩ := c
    cases m' with
    | nil =>
      have := hr a
      simp only [Memory.read_nil, Memory.read_cons, if_true] at this
      exact absurd this (listed h)
    | cons c' m' =>
      obtain ⟨a', b'⟩ := c'
      have haa : a = a' := by
        rcases Nat.lt_trichotomy a a' with hlt | heq | hgt
        · have := hr a
          rw [low h' hlt, Memory.read_cons, if_pos rfl] at this
          exact absurd this (listed h)
        · exact heq
        · have := hr a'
          rw [low h hgt, Memory.read_cons, if_pos rfl] at this
          exact absurd this.symm (listed h')
      subst haa
      have hbb : b = b' := by
        have := hr a
        simpa [Memory.read_cons] using this
      subst hbb
      obtain ⟨-, hlt, hm⟩ := Memory.wf_cons.mp h
      obtain ⟨-, hlt', hm'⟩ := Memory.wf_cons.mp h'
      refine congrArg _ (ih hm hm' fun x => ?_)
      by_cases hx : x = a
      · subst hx
        rw [below hlt, below hlt']
      · have := hr x
        simpa [Memory.read_cons, hx] using this

end Sys2Proof.Machine
end

