-- ==== Sys2Proof/Laws/Parameters.lean ====
section
/-! SUPPORT. Facts of the parameters of a CORE that later proofs cite, and what the command port does to a move. -/

namespace Sys2Proof

/-- Only BM32_64 may use register U (30_encoding.md R56). -/
theorem Parameters.csrc_registerU {p : Parameters} {v : Variant} (h : p.csrc v = some .registerU) : v = .bm32_64 := by
  cases v <;> first | rfl | (simp [Parameters.csrc] at h)

/-- Every BooleanMix variant has a constant source, and no AddMix variant has one. -/
theorem Parameters.csrc_isSome (p : Parameters) (v : Variant) :
    (p.csrc v).isSome = decide (v.family = .booleanMix) := by cases v <;> rfl

/-- HALFORDER is X_FIRST for every variant of shape DOUBLE (20_memory.md R35). -/
theorem Parameters.halfOrder_double (p : Parameters) {v : Variant} (h : v.shape = .double) :
    p.halfOrder v = .xFirst := by cases v <;> first | rfl | (exact absurd h (by decide))

@[simp] theorem Command.atPort_cmd (bits : Nat) (c : Command) : (c.atPort bits).cmd = c.cmd := rfl
@[simp] theorem Command.atPort_op (bits : Nat) (c : Command) : (c.atPort bits).op = c.op := rfl
@[simp] theorem Command.atPort_vsel (bits : Nat) (c : Command) : (c.atPort bits).vsel = c.vsel := rfl
@[simp] theorem Command.atPort_a (bits : Nat) (c : Command) : (c.atPort bits).a = c.a.atPort bits := rfl
@[simp] theorem Command.atPort_b (bits : Nat) (c : Command) : (c.atPort bits).b = c.b.atPort bits := rfl

/-- The port takes numbers of `ADDR_BITS` bits. -/
theorem Desc.atPort_lt (bits : Nat) (d : Desc) : (d.atPort bits).base < 2 ^ bits ∧ (d.atPort bits).len < 2 ^ bits :=
  ⟨Nat.mod_lt _ (Nat.two_pow_pos _), Nat.mod_lt _ (Nat.two_pow_pos _)⟩

/-- A descriptor of such numbers passes the port unchanged. -/
theorem Desc.atPort_eq {bits : Nat} {d : Desc} (hb : d.base < 2 ^ bits) (hl : d.len < 2 ^ bits) : d.atPort bits = d := by
  simp only [Desc.atPort, Nat.mod_eq_of_lt hb, Nat.mod_eq_of_lt hl]

namespace Machine

/-- A table's bit is the constant bit of a variant that uses it (41_constant_source.md R92). -/
theorem cbit_table {p : Parameters} {v : Variant} {z : ZName} (h : p.csrc v = some (.table z)) (j : Nat) :
    cbit p v j = (p.tables.get z).getLsbD (j % 62) := by simp [cbit, h, sourceBit]

/-- The output of register U is the constant bit of a variant that uses it (R93, R96). -/
theorem cbit_registerU {p : Parameters} {v : Variant} (h : p.csrc v = some .registerU) (j : Nat) :
    cbit p v j = lfsrOut (lfsrAfter p.taps.u (j % 62)) := by simp [cbit, h, sourceBit]

/-- Under every setting BM32_64 consumes the bits that the known vector pins (00_scope.md R6). -/
theorem cbit_bm32_64 (p : Parameters) {j : Nat} (h : j < 28) : cbit p .bm32_64 j = knownBits.getLsbD j := by
  have hp := p.pinned
  simp only [pinsKnownBits, List.all_eq_true, List.mem_range, beq_iff_eq] at hp
  rw [← hp j h]
  simp [cbit, Parameters.csrc, Nat.mod_eq_of_lt (show j < 62 by omega)]

end Machine

end Sys2Proof
end

