-- ==== Sys2Proof/Laws/PerInstr.lean ====
section
/-! SUPPORT. Families of statements about the syntax of every instruction, one lemma per constructor. -/

namespace Sys2Proof.Laws.RoundTrip

/-- Decoding the command that encodes an instruction gives the instruction (30_encoding.md R51 to R53, R61). -/
def Statement (i : Instr) : Prop := decode (encode i) = .ok i

theorem constructBm32_64 (key : Desc) : Statement (.constructBm32_64 key) := decode_construct .bm32_64 key Desc.zero
theorem constructBm48_72 (key : Desc) : Statement (.constructBm48_72 key) := decode_construct .bm48_72 key Desc.zero
theorem constructBm48_96 (key : Desc) : Statement (.constructBm48_96 key) := decode_construct .bm48_96 key Desc.zero
theorem constructBm64_96 (key : Desc) : Statement (.constructBm64_96 key) := decode_construct .bm64_96 key Desc.zero
theorem constructBm64_128 (key : Desc) : Statement (.constructBm64_128 key) := decode_construct .bm64_128 key Desc.zero
theorem constructBm96_96 (key : Desc) : Statement (.constructBm96_96 key) := decode_construct .bm96_96 key Desc.zero
theorem constructBm96_144 (key : Desc) : Statement (.constructBm96_144 key) := decode_construct .bm96_144 key Desc.zero
theorem constructBm128_128 (key : Desc) : Statement (.constructBm128_128 key) := decode_construct .bm128_128 key Desc.zero
theorem constructBm128_192 (key : Desc) : Statement (.constructBm128_192 key) := decode_construct .bm128_192 key Desc.zero
theorem constructBm128_256 (key : Desc) : Statement (.constructBm128_256 key) := decode_construct .bm128_256 key Desc.zero
theorem constructAm32_64 (key : Desc) : Statement (.constructAm32_64 key) := decode_construct .am32_64 key Desc.zero
theorem constructAm48_72 (key : Desc) : Statement (.constructAm48_72 key) := decode_construct .am48_72 key Desc.zero
theorem constructAm48_96 (key : Desc) : Statement (.constructAm48_96 key) := decode_construct .am48_96 key Desc.zero
theorem constructAm64_96 (key : Desc) : Statement (.constructAm64_96 key) := decode_construct .am64_96 key Desc.zero
theorem constructAm64_128 (key : Desc) : Statement (.constructAm64_128 key) := decode_construct .am64_128 key Desc.zero
theorem constructAm96_96 (key : Desc) : Statement (.constructAm96_96 key) := decode_construct .am96_96 key Desc.zero
theorem constructAm96_144 (key : Desc) : Statement (.constructAm96_144 key) := decode_construct .am96_144 key Desc.zero
theorem constructAm128_128 (key : Desc) : Statement (.constructAm128_128 key) := decode_construct .am128_128 key Desc.zero
theorem constructAm128_192 (key : Desc) : Statement (.constructAm128_192 key) := decode_construct .am128_192 key Desc.zero
theorem constructAm128_256 (key : Desc) : Statement (.constructAm128_256 key) := decode_construct .am128_256 key Desc.zero
theorem encrypt (dst src : Desc) : Statement (.encrypt dst src) := decode_encrypt dst src
theorem decrypt (dst src : Desc) : Statement (.decrypt dst src) := decode_decrypt dst src
theorem blocksize : Statement .blocksize := decode_blocksize Desc.zero Desc.zero

end Sys2Proof.Laws.RoundTrip
end

