-- ==== Sys2Proof/Tests/Slice0.lean ====
section
/-! SUPPORT. The model's own tests: expected results from spec/ (95_test_vectors.md, 96_round_key_arrays.md and the
worked examples of the rules), and a witness for the hypotheses of each statement. -/

set_option Elab.async false

namespace Sys2Proof.Tests

open Sys2Proof.Machine

/-! ### Small states -/

/-- A buffer descriptor from numbers. -/
def buf (base len : Nat) : Desc := ⟨base, len⟩

/-- Memory with the listed bytes at consecutive addresses. -/
def bytesAt (addr : Nat) : List Nat → Memory → Memory
  | [], m      => m
  | b :: bs, m => bytesAt (addr + 1) bs (m.write addr (BitVec.ofNat 8 b))

/-- The bytes of memory from an address. -/
def dump (m : Memory) (addr n : Nat) : List Nat := (List.range n).map fun i => (m.read (addr + i)).toNat

/-- A key of the variant is expanded, with these round keys and zeros after them. -/
def ready (v : Variant) (rk : List Nat := []) (mem : Memory := []) : State :=
  { State.reset with
    phase := .keyExpanded
    vselL := v.vsel
    rk    := Vector.ofFn fun i => BitVec.ofNat 64 (rk.getD i.val 0)
    mem   := mem }

/-- Whether an outcome is a next state with a property. -/
def nextWith (o : Host.Outcome State Fault Refusal) (p : State → Bool) : Bool :=
  match o with
  | .next t    => p t
  | .fault _   => false
  | .refused _ => false

/-! ### Well-formedness: one ill-formed term for each check -/

theorem test_key_wraps : (Instr.constructBm32_64 (buf (2 ^ 64 - 7) 8)).wellFormed 64 = false := by decide
theorem test_key_fits : (Instr.constructBm32_64 (buf (2 ^ 64 - 8) 8)).wellFormed 64 = true := by decide
theorem test_dst_wraps : (Instr.encrypt (buf (2 ^ 64 - 2) 4) (buf 0 4)).wellFormed 64 = false := by decide
theorem test_src_wraps : (Instr.decrypt (buf 0 4) (buf (2 ^ 64 - 2) 4)).wellFormed 64 = false := by decide

/-! ### Decoding: words written out from 30_encoding.md R50 to R53 (and 95_test_vectors.md 8.1) -/

theorem test_decode_bm32_64 : decodeTableWord 8 0b00100000 = some (.constructBm32_64 Desc.zero) := by decide
theorem test_decode_bm48_72 : decodeTableWord 8 0b00100001 = some (.constructBm48_72 Desc.zero) := by decide
theorem test_decode_bm48_96 : decodeTableWord 8 0b00100010 = some (.constructBm48_96 Desc.zero) := by decide
theorem test_decode_bm64_96 : decodeTableWord 8 0b00100011 = some (.constructBm64_96 Desc.zero) := by decide
theorem test_decode_bm64_128 : decodeTableWord 8 0b00100100 = some (.constructBm64_128 Desc.zero) := by decide
theorem test_decode_bm96_96 : decodeTableWord 8 0b00100101 = some (.constructBm96_96 Desc.zero) := by decide
theorem test_decode_bm96_144 : decodeTableWord 8 0b00100110 = some (.constructBm96_144 Desc.zero) := by decide
theorem test_decode_bm128_128 : decodeTableWord 8 0b00100111 = some (.constructBm128_128 Desc.zero) := by decide
theorem test_decode_bm128_192 : decodeTableWord 8 0b00101000 = some (.constructBm128_192 Desc.zero) := by decide
theorem test_decode_bm128_256 : decodeTableWord 8 0b00101001 = some (.constructBm128_256 Desc.zero) := by decide
theorem test_decode_am32_64 : decodeTableWord 8 0b00110000 = some (.constructAm32_64 Desc.zero) := by decide
theorem test_decode_am48_72 : decodeTableWord 8 0b00110001 = some (.constructAm48_72 Desc.zero) := by decide
theorem test_decode_am48_96 : decodeTableWord 8 0b00110010 = some (.constructAm48_96 Desc.zero) := by decide
theorem test_decode_am64_96 : decodeTableWord 8 0b00110011 = some (.constructAm64_96 Desc.zero) := by decide
theorem test_decode_am64_128 : decodeTableWord 8 0b00110100 = some (.constructAm64_128 Desc.zero) := by decide
theorem test_decode_am96_96 : decodeTableWord 8 0b00110101 = some (.constructAm96_96 Desc.zero) := by decide
theorem test_decode_am96_144 : decodeTableWord 8 0b00110110 = some (.constructAm96_144 Desc.zero) := by decide
theorem test_decode_am128_128 : decodeTableWord 8 0b00110111 = some (.constructAm128_128 Desc.zero) := by decide
theorem test_decode_am128_192 : decodeTableWord 8 0b00111000 = some (.constructAm128_192 Desc.zero) := by decide
theorem test_decode_am128_256 : decodeTableWord 8 0b00111001 = some (.constructAm128_256 Desc.zero) := by decide
theorem test_decode_encrypt : decodeTableWord 8 0b01000000 = some (.encrypt Desc.zero Desc.zero) := by decide
theorem test_decode_decrypt : decodeTableWord 8 0b01100000 = some (.decrypt Desc.zero Desc.zero) := by decide
theorem test_decode_blocksize : decodeTableWord 8 0b10000000 = some .blocksize := by decide
theorem test_decode_reserved : [0x00, 0x1F, 0x2A, 0x2F, 0x3A, 0x3F, 0x41, 0x50, 0x7F, 0x81, 0xA0, 0xC0, 0xE0, 0xFF].map
    (decodeTableWord 8) = List.replicate 14 none := by decide

/-- R59: of the 256 command words exactly the 23 are legal. -/
theorem test_legal_words :
    (List.range 256).filter (fun w => (decodeTableWord 8 w).isSome) = legalWords := by decide

/-- The descriptors above the command word, as log 13 lays them out. -/
theorem test_decode_descriptors :
    decodeTableWord 256 (0x40 + 0x210 * 2 ^ 8 + 4 * 2 ^ 72 + 0x200 * 2 ^ 136 + 5 * 2 ^ 200) =
      some (.encrypt (buf 0x210 4) (buf 0x200 5)) := by decide

/-- The next step from reset runs the placed word: ENCRYPT before any CONSTRUCT is refused (95 program 3). -/
theorem test_fetch_encrypt : nextWith (step (State.reset.withFetchWord 8 0x40))
    (fun t => t.status == .notConstructed && t.host == []) = true := by decide
theorem test_fetch_construct : nextWith (step (State.reset.withFetchWord 8 0x31))
    (fun t => t.status == .invalidKeyLength && t.phase == .unconstructed) = true := by decide
theorem test_fetch_illegal : nextWith (step (State.reset.withFetchWord 8 0x41))
    (fun t => t.status == .illegalCommand) = true := by decide

/-! ### Primitives: the tables of 95_test_vectors.md section 2 -/

theorem test_rotl_24 : rotl (0x123456 : BitVec 24) 8 = 0x345612 := by decide
theorem test_rotl_48 : rotl (0xFEDCBA987654 : BitVec 48) 3 = 0xF6E5D4C3B2A7 := by decide
theorem test_rotr_32 : rotr (0xDEADBEEF : BitVec 32) 3 = 0xFBD5B7DD := by decide
theorem test_rotr_64 : rotr (0xFEDCBA9876543210 : BitVec 64) 3 = 0x1FDB97530ECA8642 := by decide
theorem test_f_48 : fW (0x2072616C6C69 : BitVec 48) = 0xC1A9C5F9F9A4 := by decide
theorem test_sub_24 : subW (0x001234 : BitVec 24) 0x00FEDC = 0xFF1358 := by decide

/-! ### Constant source: 41_constant_source.md R98, R99 and 95_test_vectors.md section 3 -/

/-- The first 64 output bits of a register, bit `j` at bit `j`. -/
def firstBits (tap : Option Tap) : Nat :=
  ((List.range 64).map fun j => if lfsrOut (lfsrAfter tap j) then 2 ^ j else 0).sum

theorem test_lfsr_u : firstBits Taps.default.u = 0xD9C3522FB386A45F := by decide +kernel
theorem test_lfsr_v : firstBits Taps.default.v = 0x56864FB8AD0C9F71 := by decide +kernel
theorem test_lfsr_w : firstBits Taps.default.w = 0x5763E690AEC7CD21 := by decide +kernel
theorem test_lfsr_u_states : (List.range 9).map (fun j => (lfsrAfter Taps.default.u j).toNat) = [1, 3, 7, 15, 31, 26, 17, 6, 12] := by
  decide
theorem test_cbit_register : ((List.range 62).all fun j => cbit .default .bm32_64 j == Tables.default.z0.getLsbD j) = true := by
  decide +kernel
/-- The bits pinned by the known vector: kept by the other tap of U that R98 names, refused for z1 and for no tap. -/
theorem test_pinned_bits :
    pinsKnownBits { Taps.default with u := some ⟨.after 1, 0⟩ } Tables.default .registerU = true ∧
    pinsKnownBits Taps.default Tables.default (.table .z0) = true ∧
    pinsKnownBits Taps.default Tables.default (.table .z1) = false ∧
    pinsKnownBits { Taps.default with u := none } Tables.default .registerU = false := by decide +kernel
theorem test_cbit_wraps : cbit .default .bm128_256 67 = false ∧ cbit .default .bm128_128 65 = false ∧ cbit .default .bm128_192 65 = true := by
  decide

/-! ### CONSTRUCT: the arrays of 96_round_key_arrays.md, from slots (independent of `KEYMAP`) -/

/-- The round key at an index, from slot values. -/
def keyAt (v : Variant) (slots : List Nat) (i : Nat) : Nat :=
  (wordAt (expand .default v (slots.map (BitVec.ofNat v.w))) i).toNat

theorem test_expand_bm32_64 :
    [4, 31].map (keyAt .bm32_64 [0x0100, 0x0908, 0x1110, 0x1918]) =
      [0x71C3, 0x8D14] := by decide +kernel
theorem test_expand_bm48_72 :
    [3, 35].map (keyAt .bm48_72 [0x020100, 0x0A0908, 0x121110]) =
      [0xFE9DCE, 0x5AFDFE] := by decide +kernel
theorem test_expand_bm48_96 :
    [4, 35].map (keyAt .bm48_96 [0x020100, 0x0A0908, 0x121110, 0x1A1918]) =
      [0x7011C3, 0x326B37] := by decide +kernel
theorem test_expand_bm64_96 :
    [3, 41].map (keyAt .bm64_96 [0x03020100, 0x0B0A0908, 0x13121110]) =
      [0xFFAE9DCE, 0xB082BDDC] := by decide +kernel
theorem test_expand_bm64_128 :
    [4, 43].map (keyAt .bm64_128 [0x03020100, 0x0B0A0908, 0x13121110, 0x1B1A1918]) =
      [0x70A011C3, 0x15DF4696] := by decide +kernel
theorem test_expand_bm96_96 :
    [2, 51].map (keyAt .bm96_96 [0x050403020100, 0x0D0C0B0A0908]) =
      [0x7B8ABD2C1F4C, 0x10244F6EC759] := by decide +kernel
theorem test_expand_bm96_144 :
    [3, 53].map (keyAt .bm96_144 [0x050403020100, 0x0D0C0B0A0908, 0x151413121110]) =
      [0xF9083FAE9DCE, 0x3AB7419F4FC5] := by decide +kernel
theorem test_expand_bm128_128 :
    [2, 67].map (keyAt .bm128_128 [0x0706050403020100, 0x0F0E0D0C0B0A0908]) =
      [0x79E8DB8ABD2C1F4C, 0x29B0397872648490] := by decide +kernel
theorem test_expand_bm128_192 :
    [3, 68].map (keyAt .bm128_192 [0x0706050403020100, 0x0F0E0D0C0B0A0908, 0x1716151413121110]) =
      [0xFB6A59083FAE9DCE, 0x94464FC0475A17C7] := by decide +kernel
theorem test_expand_bm128_256 :
    [4, 71].map (keyAt .bm128_256 [0x0706050403020100, 0x0F0E0D0C0B0A0908, 0x1716151413121110, 0x1F1E1D1C1B1A1918]) =
      [0x7262D303B0A011C3, 0xC46D2A8DF85CA638] := by decide +kernel
theorem test_expand_am32_64 :
    [1, 21].map (keyAt .am32_64 [0x0100, 0x0908, 0x1110, 0x1918]) =
      [0x1512, 0xED64] := by decide +kernel
theorem test_expand_am48_72 :
    [1, 21].map (keyAt .am48_72 [0x020100, 0x0A0908, 0x121110]) =
      [0x1A0309, 0x5A0E3A] := by decide +kernel
theorem test_expand_am48_96 :
    [1, 22].map (keyAt .am48_96 [0x020100, 0x0A0908, 0x121110, 0x1A1918]) =
      [0x1A0309, 0xCB6915] := by decide +kernel
theorem test_expand_am64_96 :
    [1, 25].map (keyAt .am64_96 [0x03020100, 0x0B0A0908, 0x13121110]) =
      [0x131D0309, 0x2FA7E901] := by decide +kernel
theorem test_expand_am64_128 :
    [1, 26].map (keyAt .am64_128 [0x03020100, 0x0B0A0908, 0x13121110, 0x1B1A1918]) =
      [0x131D0309, 0xFE6B523A] := by decide +kernel
theorem test_expand_am96_96 :
    [1, 27].map (keyAt .am96_96 [0x050403020100, 0x0D0C0B0A0908]) =
      [0x2531171D0309, 0xF0A930DDF377] := by decide +kernel
theorem test_expand_am96_144 :
    [1, 28].map (keyAt .am96_144 [0x050403020100, 0x0D0C0B0A0908, 0x151413121110]) =
      [0x2531171D0309, 0xC0FAA108B5CF] := by decide +kernel
theorem test_expand_am128_128 :
    [1, 31].map (keyAt .am128_128 [0x0706050403020100, 0x0F0E0D0C0B0A0908]) =
      [0x37253B31171D0309, 0x2199C870DB8EC93F] := by decide +kernel
theorem test_expand_am128_192 :
    [1, 32].map (keyAt .am128_192 [0x0706050403020100, 0x0F0E0D0C0B0A0908, 0x1716151413121110]) =
      [0x37253B31171D0309, 0x372DD2B830C61709] := by decide +kernel
theorem test_expand_am128_256 :
    [1, 33].map (keyAt .am128_256 [0x0706050403020100, 0x0F0E0D0C0B0A0908, 0x1716151413121110, 0x1F1E1D1C1B1A1918]) =
      [0x37253B31171D0309, 0xF4D26F589A56B276] := by decide +kernel

/-- The known vector's key (95_test_vectors.md 1.3, program 1): CONSTRUCT BM32_64 reads it and publishes. -/
theorem test_construct_known_key :
    nextWith (exec (.constructBm32_64 (buf 0x100 8)) { State.reset with mem := bytesAt 0x100 [0x18, 0x19, 0x10, 0x11, 0x08, 0x09, 0x00, 0x01] [] })
      (fun t => t.status == .ok && t.phase == .keyExpanded && t.vselL == 0 &&
        [0, 4, 31].map (fun i => (t.rkWord 16 i).toNat) == [0x0100, 0x71C3, 0x8D14]) = true := by decide +kernel

/-- 95 program 3: `InvalidKeyLength` for 8 and 10, and the old cipher kept when re-keying fails. -/
theorem test_construct_invalid_length :
    ([8, 10].all fun n => nextWith (exec (.constructBm48_72 (buf 0 n)) State.reset)
      (fun t => t.status == .invalidKeyLength && t.phase == .unconstructed)) = true := by decide
theorem test_construct_failed_rekey : nextWith (exec (.constructBm48_96 (buf 0 9)) (ready .bm48_72))
    (fun t => t.status == .invalidKeyLength && t.phase == .keyExpanded && t.vselL == 1) = true := by decide +kernel
theorem test_construct_wraps : nextWith (exec (.constructAm32_64 (buf (2 ^ 64 - 7) 8)) State.reset)
    (fun t => t.status == .illegalCommand) = true := by decide

/-- Another width of an address: with 8 bits a buffer wraps at 256 (R32), and the port takes 8 bits. -/
theorem test_addr_bits :
    ([(248, Status.ok), (249, .illegalCommand), (504, .ok)].all fun r =>
      nextWith (step { State.reset with
          params := { Parameters.default with addrBits := 8 }
          host   := [.command ⟨0x20, buf r.1 8, Desc.zero⟩] })
        (fun t => t.status == r.2)) = true := by decide +kernel

/-- The two orders of the key words (95_test_vectors.md 7.1): the first and the last round key of AM32_64 in each. -/
theorem test_key_maps :
    ([(KeyMap.direct, 0x0100, 0xED64), (.reversed, 0x1918, 0x2D67)].all fun r =>
      nextWith (exec (.constructAm32_64 (buf 0 8)) { State.reset with
          params := { Parameters.default with keymaps := Vector.replicate 19 r.1 }
          mem    := bytesAt 0 [0x00, 0x01, 0x08, 0x09, 0x10, 0x11, 0x18, 0x19] [] })
        (fun t => [0, 21].map (fun i => (t.rkWord 16 i).toNat) == [r.2.1, r.2.2])) = true := by decide +kernel

/-! ### ENCRYPT and DECRYPT -/

/-- The pair that ENCRYPT gives, and the pair DECRYPT gives back, from slots. -/
def cryptWords (v : Variant) (slots : List Nat) (x y : Nat) : List Nat :=
  let k := wordAt (expand .default v (slots.map (BitVec.ofNat v.w)))
  let p := transform .encrypt v k (BitVec.ofNat v.w x, BitVec.ofNat v.w y)
  let q := transform .decrypt v k p
  [p.1.toNat, p.2.toNat, q.1.toNat, q.2.toNat]

theorem test_crypt_bm48_72 :
    cryptWords .bm48_72 [0x020100, 0x0A0908, 0x121110] 0x612067 0x6E696C =
      [0xDAE5AC, 0x292CAC, 0x612067, 0x6E696C] := by decide +kernel
theorem test_crypt_bm96_144 :
    cryptWords .bm96_144 [0x050403020100, 0x0D0C0B0A0908, 0x151413121110] 0x746168742074 0x73756420666F =
      [0xECAD1C6C451E, 0x3F59C5DB1AE9, 0x746168742074, 0x73756420666F] := by decide +kernel
theorem test_crypt_bm128_128 :
    cryptWords .bm128_128 [0x0706050403020100, 0x0F0E0D0C0B0A0908] 0x6373656420737265 0x6C6C657661727420 =
      [0x49681B1E1E54FE3F, 0x65AA832AF84E0BBC, 0x6373656420737265, 0x6C6C657661727420] := by decide +kernel
theorem test_crypt_bm128_192 :
    cryptWords .bm128_192 [0x0706050403020100, 0x0F0E0D0C0B0A0908, 0x1716151413121110] 0x206572656874206E 0x6568772065626972 =
      [0xC4AC61EFFCDC0D4F, 0x6C9C8D6E2597B85B, 0x206572656874206E, 0x6568772065626972] := by decide +kernel
theorem test_crypt_am32_64 :
    cryptWords .am32_64 [0x0100, 0x0908, 0x1110, 0x1918] 0x6574 0x694C =
      [0xA868, 0x42F2, 0x6574, 0x694C] := by decide +kernel
theorem test_crypt_am48_96 :
    cryptWords .am48_96 [0x020100, 0x0A0908, 0x121110, 0x1A1918] 0x6D2073 0x696874 =
      [0x735E10, 0xB6445D, 0x6D2073, 0x696874] := by decide +kernel
theorem test_crypt_am128_256 :
    cryptWords .am128_256 [0x0706050403020100, 0x0F0E0D0C0B0A0908, 0x1716151413121110, 0x1F1E1D1C1B1A1918] 0x65736F6874206E49 0x202E72656E6F6F70 =
      [0x4109010405C0F53E, 0x4EEEB48D9C188F43, 0x65736F6874206E49, 0x202E72656E6F6F70] := by decide +kernel

/-- The round keys of the known vector (95_test_vectors.md 1.3). -/
def knownKeys : List Nat :=
  [0x0100, 0x0908, 0x1110, 0x1918, 0x71C3, 0xB649, 0x56D4, 0xE070,
   0xF15A, 0xC535, 0xDD94, 0x4010, 0x250A, 0x6F66, 0xE96B, 0x4BD8,
   0x0FE5, 0x7C47, 0xE0EF, 0x3E21, 0x065B, 0x438C, 0xF26A, 0xB5C0,
   0x8609, 0x9F8E, 0xD8BF, 0x09AC, 0xE812, 0x2710, 0x2CAA, 0x8D14]

/-- The known vector (95_test_vectors.md 1.4, program 1): ENCRYPT writes the ciphertext and nothing after it. -/
theorem test_encrypt_known_vector :
    nextWith (exec (.encrypt (buf 0x210 4) (buf 0x200 4))
        (ready .bm32_64 knownKeys (bytesAt 0x214 [0xAA] (bytesAt 0x200 [0x65, 0x65, 0x77, 0x68] []))))
      (fun t => t.status == .ok && dump t.mem 0x210 5 == [0x9B, 0xC6, 0xBB, 0xE9, 0xAA]) = true := by decide +kernel
theorem test_decrypt_known_vector :
    nextWith (exec (.decrypt (buf 0x220 4) (buf 0x210 4))
        (ready .bm32_64 knownKeys (bytesAt 0x210 [0x9B, 0xC6, 0xBB, 0xE9] [])))
      (fun t => t.status == .ok && dump t.mem 0x220 4 == [0x65, 0x65, 0x77, 0x68]) = true := by decide +kernel

/-- The two orders of the block halves (95_test_vectors.md 7.1, KEYMAP DIRECT). -/
theorem test_half_orders :
    ([(HalfOrder.xFirst, [0x68, 0xA8, 0xF2, 0x42]), (.yFirst, [0x4B, 0xD6, 0x18, 0xBF])].all fun r =>
      nextWith (exec (.encrypt (buf 8 4) (buf 0 4)) { ready .am32_64
          ((List.range 22).map (keyAt .am32_64 [0x0100, 0x0908, 0x1110, 0x1918]))
          (bytesAt 0 [0x74, 0x65, 0x4C, 0x69] []) with
          params := { Parameters.default with halfOrders := Vector.replicate 13 r.1 } })
        (fun t => dump t.mem 8 4 == r.2)) = true := by decide +kernel

/-- In place, and partial overlap (20_memory.md R38): the source is read whole before the destination is written. -/
theorem test_encrypt_overlap :
    ([0x200, 0x202].all fun d => nextWith (exec (.encrypt (buf d 4) (buf 0x200 4))
        (ready .bm32_64 knownKeys (bytesAt 0x200 [0x65, 0x65, 0x77, 0x68] [])))
      (fun t => dump t.mem d 4 == [0x9B, 0xC6, 0xBB, 0xE9])) = true := by decide +kernel

/-- 95_test_vectors.md 8.4 on BM48_72: the length check at its boundary. -/
theorem test_buffer_too_short :
    ([(5, 6), (6, 5), (0, 0), (5, 5)].all fun p =>
      nextWith (exec (.encrypt (buf 0x30 p.1) (buf 0x20 p.2)) (ready .bm48_72))
        (fun t => t.status == .bufferTooShort && t.mem == [])) = true := by decide +kernel
theorem test_decrypt_not_constructed : nextWith (exec (.decrypt (buf 0 4) (buf 0 4)) State.reset)
    (fun t => t.status == .notConstructed) = true := by decide
theorem test_decrypt_wrap_before_phase : nextWith (exec (.decrypt (buf 0 4) (buf (2 ^ 64 - 2) 4)) State.reset)
    (fun t => t.status == .illegalCommand) = true := by decide

/-! ### BLOCKSIZE (43_round_transform.md R138) -/

theorem test_blocksize :
    [Variant.bm32_64, .bm48_72, .am64_96, .bm96_96, .am128_256].all (fun v =>
      nextWith (exec .blocksize (ready v)) (fun t => t.status == .ok && t.result == BitVec.ofNat 8 (v.w / 4))) = true := by
  decide +kernel
theorem test_blocksize_refused : nextWith (exec .blocksize State.reset)
    (fun t => t.status == .notConstructed && t.result == 0) = true := by decide

/-! ### The host's moves -/

theorem test_reset_move : nextWith (step { ready .bm32_64 with host := [.reset], mem := [(5, 7)], result := 4 })
    (fun t => t.phase == .unconstructed && t.status == .ok && t.result == 0 && t.mem == [(5, 7)]) = true := by decide
theorem test_store_move : nextWith (step { State.reset with host := [.store 9 3], mem := [(5, 7)] })
    (fun t => t.mem == [(5, 7), (9, 3)]) = true := by decide
theorem test_store_unlisted : nextWith (step { State.reset with host := [.store 5 0], mem := [(5, 7)] })
    (fun t => t.mem == []) = true := by decide

/-! ### The stepping machine (95_test_vectors.md program 5) -/

/-- The known key being expanded. -/
def constructing : Running :=
  ⟨.ksCheck, { State.reset with
    mem := bytesAt 0x100 [0x18, 0x19, 0x10, 0x11, 0x08, 0x09, 0x00, 0x01] []
    current := ⟨0x20, buf 0x100 8, Desc.zero⟩ }⟩

/-- Whether the running command stands at a sub-state with a property after `n` steps. -/
def runsTo (n : Nat) (r : Running) (sub : SubState) (p : State → Bool) : Bool :=
  match microRun n r with
  | .next r'   => r'.sub == sub && p r'.core
  | .fault _   => false
  | .refused _ => false

theorem test_stepping_construct_first : runsTo 3 constructing .ksRun (fun t =>
    t.scratch.i == 5 && t.scratch.lr == 3 && t.scratch.kw == #v[0x1918, 0x1110, 0x0908, 0x0100] && t.scratch.tmp == 0x8F3E && t.scratch.k.getLast? == some 0x71C3) = true := by
  decide +kernel
theorem test_stepping_construct_last : runsTo 30 constructing .ksPublish (fun t =>
    t.scratch.i == 32 && t.scratch.lr == 13 && t.scratch.k.getLast? == some 0x8D14) = true := by decide +kernel
theorem test_stepping_encrypt : runsTo 18
    ⟨.rtCheck, { ready .bm32_64 knownKeys (bytesAt 0x200 [0x65, 0x65, 0x77, 0x68] []) with
      current := ⟨0x40, buf 0x210 4, buf 0x200 4⟩ }⟩ .rtStore
    (fun t => t.scratch.i == 16 && t.scratch.x == 0xC69B && t.scratch.y == 0xE9BB) = true := by decide +kernel

/-- The last `RT_RUN` step of an ENCRYPT of BM128_256, at `I = T-1 = 71`, counts `I` up to 72 (R140). -/
theorem test_stepping_encrypt_last_index : runsTo 1
    ⟨.rtRun, { ready .bm128_256 with
      current := ⟨0x40, buf 0x210 16, buf 0x200 16⟩, scratch := { State.reset.scratch with i := 71 } }⟩ .rtStore
    (fun t => t.scratch.i == 72) = true := by decide +kernel

/-- Reserved words end at the check of the stepping machine (R112, R140). -/
theorem test_stepping_reserved :
    ([(0x2A, SubState.ksCheck), (0x41, .rtCheck), (0x7F, .rtCheck)].all fun r =>
      firstSub ⟨r.1, Desc.zero, Desc.zero⟩ == r.2 &&
      runsTo 1 ⟨r.2, { State.reset with current := ⟨r.1, Desc.zero, Desc.zero⟩ }⟩ .done
        (fun t => t.status == .illegalCommand)) = true := by decide

/-! ### Witnesses: states and operands that meet the hypotheses of the statements -/

/-- A command whose `CMD` is a word. -/
def cmdOf (w : Nat) (a b : Desc) : Command := ⟨BitVec.ofNat 8 w, a, b⟩

/-- A state whose host is about to issue a command. -/
def about (c : Command) (s : State := State.reset) : State := { s with host := [.command c] }

theorem witness_DecodeEncodeRoundTrip :
    (∃ c i, decode c = .ok i ∧ isConstruct i = true) ∧
    (∃ c dst src, decode c = .ok (.encrypt dst src)) ∧ ∃ c dst src, decode c = .ok (.decrypt dst src) :=
  ⟨⟨_, _, decode_construct .am48_72 (buf 1 9) Desc.zero, rfl⟩, ⟨_, buf 1 2, buf 3 4, decode_encrypt _ _⟩,
    ⟨_, buf 1 2, buf 3 4, decode_decrypt _ _⟩⟩

/-- Each clause at words on its boundaries: 0x1F and 0xA0 (`OP`), 0x2A and 0x3F (`VSEL` of CONSTRUCT), 0x41 and 0x9F. -/
theorem witness_ReservedEncodingsRefused :
    (∃ c : Command, c.cmd.toNat ∈ legalWords) ∧
    ([0x1F, 0xA0].all fun w => (cmdOf w Desc.zero Desc.zero).op.toNat ∈ [0, 5, 6, 7]) = true ∧
    ([0x2A, 0x3F].all fun w => (cmdOf w Desc.zero Desc.zero).op = 1 ∧
      10 ≤ (cmdOf w Desc.zero Desc.zero).vsel.toNat % 16) = true ∧
    ([0x41, 0x9F].all fun w => (cmdOf w Desc.zero Desc.zero).op.toNat ∈ [2, 3, 4] ∧
      (cmdOf w Desc.zero Desc.zero).vsel ≠ 0) = true ∧
    ∃ (s : State) (c : Command) (rest : List HostMove), s.host = .command c :: rest ∧ c.cmd.toNat ∉ legalWords :=
  ⟨⟨cmdOf 0x20 Desc.zero Desc.zero, by decide⟩, by decide, by decide, by decide,
    about (cmdOf 0x2A Desc.zero Desc.zero), _, _, rfl, by decide⟩

theorem witness_StepRunsDecodedCommand :
    ∃ (s : State) (c : Command) (rest : List HostMove) (i : Instr), s.host = .command c :: rest ∧
      decode (c.atPort s.params.addrBits) = .ok i :=
  ⟨about ⟨0x40, buf 1 4, buf 9 4⟩, ⟨0x40, buf 1 4, buf 9 4⟩, [], .encrypt (buf 1 4) (buf 9 4), rfl,
    decode_encrypt (buf 1 4) (buf 9 4)⟩

theorem witness_DescriptorFields :
    (Variant.family .am32_64 = .addMix) ∧ (Variant.family .bm128_192 = .booleanMix ∧ Variant.w .bm128_192 = 64) ∧
    (Variant.family .bm96_96 = .booleanMix ∧ Variant.w .bm96_96 ≠ 64) ∧ Variant.shape .bm64_96 = .double := by decide

/-- The least and the greatest amount of a 16-bit word, and the top bit. -/
theorem witness_RotateLeftFormula_RotateRightFormula_DatapathLaws :
    (∃ w s j : Nat, 0 < s ∧ s < w ∧ j < w ∧ 16 ≤ w ∧ 2 ≤ w ∧ s = 1) ∧ ∃ w s j : Nat, 0 < s ∧ s < w ∧ j < w ∧ s + 1 = w :=
  ⟨⟨16, 1, 15, by decide⟩, 16, 15, 15, by decide⟩

theorem witness_MaskedArithmetic : ∃ (w : Nat) (a b d : BitVec w), addW d b = a := ⟨2, 3, 0, 3, by decide⟩

/-- The slots of an all-zero key are zero, in either order of the key words. -/
theorem zero_slots (p : Parameters) (v : Variant) (addr : Nat) : slotsAt p v [] addr (fun _ => 0) := by
  intro j _
  cases p.keymap v <;> · intro i _; simp [byteOf, Memory.unlisted]

/-- A key buffer of the variant's length. -/
def keyOf (v : Variant) : Desc := buf 0x100 v.keyBytes

theorem keyOf_ready (v : Variant) : State.reset.ConstructReady v (keyOf v) := by cases v <;> exact ⟨by decide, by decide⟩

theorem witness_ConstructBooleanMix :
    ∃ (v : Variant) (key : Desc) (s : State) (S : Nat → BitVec v.w),
      v.family = .booleanMix ∧ s.ConstructReady v key ∧ slotsAt s.params v s.mem key.base S :=
  ⟨.bm128_256, keyOf _, State.reset, _, rfl, keyOf_ready _, zero_slots _ _ _⟩

theorem witness_ConstructAddMix :
    ∃ (v : Variant) (key : Desc) (s : State) (S : Nat → BitVec v.w),
      v.family = .addMix ∧ s.ConstructReady v key ∧ slotsAt s.params v s.mem key.base S :=
  ⟨.am48_72, keyOf _, State.reset, _, rfl, keyOf_ready _, zero_slots _ _ _⟩

theorem witness_SeedOrder : ∃ (v : Variant) (kw : List (BitVec v.w)) (j : Nat), kw.length = v.m ∧ j < v.m :=
  ⟨.bm32_64, [1, 2, 3, 4], 3, by decide⟩

theorem witness_UniformKeys :
    (∃ (p : Parameters) (v : Variant), v.family = .booleanMix ∧ cbit p v 0 = true) ∧ ∃ v : Variant, v.family = .addMix :=
  ⟨⟨.default, .bm96_96, rfl, by decide⟩, ⟨.am96_96, rfl⟩⟩

/-- One byte too few and one too many. -/
theorem witness_InvalidKeyLengthRaised :
    ([buf 0 8, buf 0 10].all fun key => key.fits 64 && decide (key.len ≠ Variant.w .bm48_72 / 8 * Variant.m .bm48_72)) = true := by
  decide

theorem witness_ConstructIsPure :
    ∃ (v : Variant) (key key' : Desc) (s s' : State), s.params = s'.params ∧ s.ConstructReady v key ∧ s'.ConstructReady v key' ∧
      (∀ j, j < v.keyBytes → s.mem.read (key.base + j) = s'.mem.read (key'.base + j)) ∧
      key ≠ key' ∧ s ≠ s' :=
  ⟨.bm32_64, buf 0 8, buf 16 8,
    { State.reset with mem := [(0, 7)] }, { State.reset with mem := [(16, 7)] }, rfl,
    ⟨by decide, by decide⟩, ⟨by decide, by decide⟩, by decide, by decide, fun h => absurd (congrArg State.mem h) (by decide)⟩

theorem witness_ConstructFrame :
    (∃ v key s t, exec (Instr.construct v key) s = .next t ∧ t.status = .ok) ∧
    ∃ v key s t, exec (Instr.construct v key) s = .next t ∧ t.status ≠ .ok := by
  refine ⟨⟨.am128_256, keyOf .am128_256, State.reset,
    State.publish State.reset .am128_256 (roundKeys .default .am128_256 [] (keyOf .am128_256)), ?_, rfl⟩,
    ⟨.bm48_72, buf 0 8, State.reset, _, rfl, by decide⟩⟩
  rw [exec_construct]
  exact construct_next.mpr (.inl ⟨by decide, by decide, rfl⟩)

/-- Buffers of just the block size. -/
def blockBuf (v : Variant) (base : Nat) : Desc := buf base v.blockBytes

theorem ready_crypt (v : Variant) (mem : Memory) :
    (ready v [] mem).CryptReady v (blockBuf v 0x200) (blockBuf v 0x100) := by
  cases v <;> exact ⟨rfl, rfl, rfl, rfl, by decide, by decide⟩

/-- A buffer at the very top of the address space fits. -/
theorem ready_crypt_top : (ready .bm32_64).CryptReady .bm32_64 (buf (2 ^ 64 - 4) 4) (buf (2 ^ 64 - 4) 4) :=
  ⟨rfl, rfl, by decide, by decide, by decide, by decide⟩

theorem witness_EncryptDouble_DecryptDouble :
    ∃ v s dst src, Variant.shape v = .double ∧ State.CryptReady s v dst src :=
  ⟨.bm96_144, _, _, _, rfl, ready_crypt _ []⟩

theorem witness_EncryptSwap_DecryptSwap :
    ∃ v s dst src, Variant.shape v = .swap ∧ State.CryptReady s v dst src :=
  ⟨.bm128_192, _, _, _, rfl, ready_crypt _ []⟩

theorem witness_EncryptAdd_DecryptAdd :
    ∃ v s dst src, Variant.shape v = .add ∧ State.CryptReady s v dst src :=
  ⟨.am48_96, _, _, _, rfl, ready_crypt _ []⟩

/-- Both a successful command, for a byte outside its destination, and one that ends with a refusal. -/
theorem witness_CryptFrame :
    (∃ dst src s t v x, exec (cryptInstr .encrypt dst src) s = .next t ∧ Variant.ofVsel s.vselL = some v ∧
      t.status = .ok ∧ x = dst.base + v.blockBytes) ∧
    ∃ dst src s t, exec (cryptInstr .decrypt dst src) s = .next t ∧ t.status = .notConstructed :=
  ⟨⟨buf 0x200 4, buf 0x100 4, ready .bm32_64, _, .bm32_64, _, rfl, rfl, rfl, rfl⟩,
    ⟨buf 0 4, buf 0 4, State.reset, _, rfl, rfl⟩⟩

/-- At the boundary: a buffer one byte short, and one just long enough. -/
theorem witness_BufferTooShortRaised :
    ∃ v s, State.phase s = .keyExpanded ∧ Variant.ofVsel s.vselL = some v ∧
      (buf 0 5).fits 64 = true ∧ (buf 0 6).fits 64 = true ∧ (buf 0 5).len < v.blockBytes ∧
      ¬ (buf 0 6).len < v.blockBytes := ⟨.bm48_72, ready .bm48_72, by decide +kernel⟩

theorem witness_CryptRoundTrip :
    ∃ v s dst src dst2 src2, State.CryptReady s v dst src ∧ State.CryptReady s v dst2 src2 ∧ src2.base = dst.base :=
  ⟨.bm32_64, ready .bm32_64, buf 0x200 4, buf 0x100 4, buf 0x300 4, buf 0x200 5,
    ⟨rfl, rfl, by decide, by decide, by decide, by decide⟩, ⟨rfl, rfl, by decide, by decide, by decide, by decide⟩, rfl⟩

theorem witness_CryptDependsOnSourceOnly :
    ∃ v s s' dst src dst' src', State.CryptReady s v dst src ∧ State.CryptReady s' v dst' src' ∧ s ≠ s' ∧
      s.params.halfOrder v = s'.params.halfOrder v ∧
      (∀ i : Fin 72, i.val < v.T → s.rk[i] = s'.rk[i]) ∧
      (∀ j, j < v.blockBytes → s.mem.read (src.base + j) = s'.mem.read (src'.base + j)) :=
  ⟨.am32_64, ready .am32_64 [] [(0x100, 1)], ready .am32_64 [] [(0x100, 1), (0x104, 9)],
    blockBuf .am32_64 0x200, blockBuf .am32_64 0x100, blockBuf .am32_64 0x200, blockBuf .am32_64 0x100,
    ready_crypt _ _, ready_crypt _ _, fun h => absurd (congrArg State.mem h) (by decide), rfl, fun _ _ => rfl,
    by decide⟩

theorem witness_InPlaceEqualsDisjoint :
    ∃ v s buf1 dst, State.CryptReady s v buf1 buf1 ∧ State.CryptReady s v dst buf1 ∧
      (dst.base + v.blockBytes ≤ buf1.base ∨ buf1.base + v.blockBytes ≤ dst.base) :=
  ⟨.am32_64, ready .am32_64, buf 0x100 8, buf 0x104 4,
    ⟨rfl, rfl, by decide, by decide, by decide, by decide⟩, ⟨rfl, rfl, by decide, by decide, by decide, by decide⟩,
    by decide⟩

theorem witness_DisjointCommandsCommute :
    ∃ v s dst1 src1 dst2 src2, State.CryptReady s v dst1 src1 ∧ State.CryptReady s v dst2 src2 ∧
      ∀ i j, i < Variant.blockBytes v → j < v.blockBytes →
        dst1.base + i ≠ dst2.base + j ∧ dst1.base + i ≠ src2.base + j ∧
        dst2.base + i ≠ src1.base + j :=
  ⟨.bm32_64, ready .bm32_64, buf 0 4, buf 4 4, buf 8 4, buf 12 4,
    ⟨rfl, rfl, by decide, by decide, by decide, by decide⟩, ⟨rfl, rfl, by decide, by decide, by decide, by decide⟩, by
      intro i j hi hj
      change i < 4 at hi
      change j < 4 at hj
      change 0 + i ≠ 8 + j ∧ 0 + i ≠ 12 + j ∧ 8 + i ≠ 4 + j
      omega⟩

theorem witness_InverseRoundsUndo : ∃ w A B : Nat, 0 < A ∧ A < w ∧ 0 < B ∧ B < w := ⟨16, 7, 2, by decide⟩

theorem witness_DoubleEqualsSwap : ∃ T : Nat, T % 2 = 0 ∧ 0 < T := ⟨2, by decide⟩

theorem witness_BlocksizeAnswers :
    (∃ v s, State.phase s = .keyExpanded ∧ Variant.ofVsel s.vselL = some v) ∧ State.reset.phase = .unconstructed ∧
    ∃ (s : State) (c : Command) (rest : List HostMove), s.host = .command c :: rest ∧ c.op = 4 ∧ c.vsel ≠ 0 :=
  ⟨⟨.am128_256, ready .am128_256, rfl, rfl⟩, rfl, about (cmdOf 0x9F Desc.zero Desc.zero), _, _, rfl, by decide, by decide⟩

theorem witness_BlocksizeFrame :
    (∃ s t, exec .blocksize s = .next t ∧ t.status = .ok) ∧ ∃ s t, exec .blocksize s = .next t ∧ t.status ≠ .ok :=
  ⟨⟨ready .bm48_72, _, rfl, rfl⟩, ⟨State.reset, _, rfl, by decide⟩⟩

/-- Each row of R156 at its boundaries. -/
theorem witness_CheckPriority :
    (buf (2 ^ 64 - 7) 8).fits 64 = false ∧ (buf (2 ^ 64 - 8) 8).fits 64 = true ∧
    (buf 0 7).len ≠ Variant.keyBytes .bm32_64 ∧ (buf 0 8).len = Variant.keyBytes .bm32_64 ∧
    State.reset.phase = .unconstructed ∧
    (ready .bm32_64).phase = .keyExpanded ∧ Variant.ofVsel (ready .bm32_64).vselL = some .bm32_64 ∧
    (buf 0 3).len < Variant.blockBytes .bm32_64 ∧ Variant.blockBytes .bm32_64 ≤ (buf 0 4).len ∧
    (about (cmdOf 0x1F Desc.zero Desc.zero)).host = [.command (cmdOf 0x1F Desc.zero Desc.zero)] ∧
    (cmdOf 0x1F Desc.zero Desc.zero).op.toNat ∈ [0, 5, 6, 7] ∧
    ((cmdOf 0x2A Desc.zero Desc.zero).op = 1 ∧ Variant.ofVsel (cmdOf 0x2A Desc.zero Desc.zero).vsel = none) ∧
    (cmdOf 0x41 Desc.zero Desc.zero).op.toNat ∈ [2, 3, 4] ∧ (cmdOf 0x41 Desc.zero Desc.zero).vsel ≠ 0 := by
  decide +kernel

theorem witness_FailureChangesOnlyStatus :
    (∃ i s t, exec i s = .next t ∧ t.status ≠ .ok) ∧
    ∃ s t c rest, State.host s = .command c :: rest ∧ step s = .next t ∧ t.status ≠ .ok :=
  ⟨⟨.encrypt (buf 0 3) (buf 0 4), ready .bm32_64, _, rfl, by decide⟩,
    about ⟨0xA0, Desc.zero, Desc.zero⟩, _, _, _, rfl, rfl, by decide⟩

theorem witness_ReservedLatchStops :
    ∃ s, State.phase s = .keyExpanded ∧ Variant.ofVsel s.vselL = none ∧ (buf (2 ^ 64 - 1) 1).fits 64 = true :=
  ⟨{ ready .bm32_64 with vselL := 10 }, rfl, by decide, by decide⟩

/-- Each of the four codes is the outcome of some command. -/
theorem witness_StatusCauses :
    (∃ i s t, exec i s = .next t ∧ t.status = .invalidKeyLength) ∧
    (∃ i s t, exec i s = .next t ∧ t.status = .bufferTooShort) ∧
    (∃ i s t, exec i s = .next t ∧ t.status = .notConstructed) ∧
    ∃ i s t, exec i s = .next t ∧ t.status = .illegalCommand :=
  ⟨⟨.constructAm64_96 (buf 0 11), State.reset, _, rfl, rfl⟩,
    ⟨.decrypt (buf 0 4) (buf 0 3), ready .bm32_64, _, rfl, rfl⟩, ⟨.blocksize, State.reset, _, rfl, rfl⟩,
    ⟨.constructBm64_96 (buf (2 ^ 64 - 11) 12), State.reset, _, rfl, rfl⟩⟩

theorem witness_ResetLeaves : ∃ (s : State) (rest : List HostMove), s.host = .reset :: rest ∧ s.phase = .keyExpanded :=
  ⟨{ ready .bm32_64 with host := [.reset] }, [], rfl, rfl⟩

/-- A state with a key expanded meets the invariant. -/
theorem ready_inv : (ready .bm48_72 [] [(3, 1), (9, 2)]).Inv :=
  ⟨by decide, fun _ => ⟨.bm48_72, rfl, by decide +kernel⟩, by decide, by decide⟩

theorem witness_StepKeepsInvariant_RunsNeverStop : ∃ s t : State, s.Inv ∧ step s = .next t :=
  ⟨_, _, ready_inv, rfl⟩

theorem witness_OnlyConstructWritesRoundKeys :
    ∃ s t : State, step s = .next t ∧ (t.rk ≠ s.rk ∨ t.vselL ≠ s.vselL ∨ t.phase ≠ s.phase) :=
  ⟨{ ready .bm32_64 with host := [.reset] }, _, rfl, .inr (.inr (by decide))⟩

theorem witness_PhaseLifeCycle :
    (∃ s t, step s = .next t ∧ s.phase = .keyExpanded ∧ t.phase = .unconstructed) ∧
    ∃ s t, step s = .next t ∧ s.phase = .unconstructed ∧ t.phase = .keyExpanded := by
  refine ⟨⟨{ ready .bm32_64 with host := [.reset] }, _, rfl, rfl, rfl⟩, ?_⟩
  refine ⟨about ⟨(0b001 : BitVec 3) ++ Variant.vsel .am32_64, buf 0x100 8, Desc.zero⟩,
    State.publish (State.issue { State.reset with host := [] }
      ⟨(0b001 : BitVec 3) ++ Variant.vsel .am32_64, buf 0x100 8, Desc.zero⟩) .am32_64
      (roundKeys .default .am32_64 [] (buf 0x100 8)), ?_, rfl, rfl⟩
  simp only [step, about, HostMove.atPort, Command.atPort, perform, runCommand, decode_construct]
  rw [exec_construct]
  exact construct_next.mpr (.inl ⟨by decide, by decide, rfl⟩)

theorem witness_WhoWritesMemory : ∃ (s t : State) (x : Nat), step s = .next t ∧ t.mem.read x ≠ s.mem.read x :=
  ⟨{ State.reset with host := [.store 9 3] }, _, 9, rfl, by decide⟩

theorem witness_ParametersFixed : ∃ s t : State, step s = .next t ∧ s ≠ t :=
  ⟨{ State.reset with host := [.store 9 3] }, _, rfl, fun h => absurd (congrArg State.mem h) (by decide)⟩

/-- Both kinds of source, and the last pinned bit. -/
theorem witness_ConstantBits :
    (∃ j, j < 28 ∧ j + 1 = 28) ∧ Parameters.default.csrc .bm48_72 = some (.table .z0) ∧ Parameters.default.csrc .bm32_64 = some .registerU :=
  ⟨⟨27, by decide⟩, by decide⟩

theorem witness_OnlyBlocksizeWritesResult : ∃ s t : State, step s = .next t ∧ t.result ≠ s.result :=
  ⟨about ⟨0x80, Desc.zero, Desc.zero⟩ (ready .bm32_64), _, rfl, by decide⟩

theorem witness_HostMoves :
    State.reset.host = [] ∧
    ∃ (s : State) (addr : Nat) (byte : Byte) (rest : List HostMove), s.host = .store addr byte :: rest :=
  ⟨rfl, { State.reset with host := [.store (2 ^ 64 - 1) 3] }, _, _, _, rfl⟩

/-- A CONSTRUCT word with a reserved `VSEL`. -/
theorem witness_ConstructSteppingRefines_reserved :
    (cmdOf 0x2A Desc.zero Desc.zero).op = 1 ∧ decode (cmdOf 0x2A Desc.zero Desc.zero) = .error .reservedVsel := by decide

/-- Both outcomes of a stepping CONSTRUCT. -/
theorem witness_ConstructSteppingRefines :
    (∃ v key s t, decode (State.current s) = .ok (Instr.construct v key) ∧ exec (Instr.construct v key) s = .next t ∧
      t.status = .ok) ∧
    ∃ v key s t, decode (State.current s) = .ok (Instr.construct v key) ∧ exec (Instr.construct v key) s = .next t ∧
      t.status ≠ .ok :=
  ⟨⟨.am48_72, keyOf .am48_72, { State.reset with current := ⟨(0b001 : BitVec 3) ++ Variant.vsel .am48_72, keyOf .am48_72, Desc.zero⟩ }, _,
      decode_construct _ _ _, rfl, rfl⟩,
    ⟨.am48_72, buf 0 8, { State.reset with current := ⟨(0b001 : BitVec 3) ++ Variant.vsel .am48_72, buf 0 8, Desc.zero⟩ }, _,
      decode_construct _ _ _, rfl, by decide⟩⟩

/-- Both outcomes of a stepping ENCRYPT and of a stepping DECRYPT, and a word of each with a stray `VSEL` field. -/
theorem witness_CryptSteppingRefines :
    (∃ dst src s t, decode (State.current s) = .ok (cryptInstr .encrypt dst src) ∧
      exec (cryptInstr .encrypt dst src) s = .next t ∧ t.status = .ok) ∧
    (∃ dst src s t, decode (State.current s) = .ok (cryptInstr .decrypt dst src) ∧
      exec (cryptInstr .decrypt dst src) s = .next t ∧ t.status = .ok) ∧
    (∃ dst src s t, decode (State.current s) = .ok (cryptInstr .encrypt dst src) ∧
      exec (cryptInstr .encrypt dst src) s = .next t ∧ t.status ≠ .ok) ∧
    (∃ dst src s t, decode (State.current s) = .ok (cryptInstr .decrypt dst src) ∧
      exec (cryptInstr .decrypt dst src) s = .next t ∧ t.status ≠ .ok) ∧
    ([0x41, 0x7F].all fun w => (cmdOf w Desc.zero Desc.zero).op = 2 ∨ (cmdOf w Desc.zero Desc.zero).op = 3) = true ∧
    ([0x41, 0x7F].all fun w => decode (cmdOf w Desc.zero Desc.zero) = .error .strayVsel) = true :=
  ⟨⟨buf 0x200 4, buf 0x100 4, { ready .bm32_64 with current := ⟨0x40, buf 0x200 4, buf 0x100 4⟩ }, _,
      decode_encrypt _ _, rfl, rfl⟩,
    ⟨buf 0x200 4, buf 0x100 4, { ready .am32_64 with current := ⟨0x60, buf 0x200 4, buf 0x100 4⟩ }, _,
      decode_decrypt _ _, rfl, rfl⟩,
    ⟨buf 0 4, buf 0 4, { State.reset with current := ⟨0x40, buf 0 4, buf 0 4⟩ }, _, decode_encrypt _ _, rfl, by decide⟩,
    ⟨buf 0 4, buf 0 4, { State.reset with current := ⟨0x60, buf 0 4, buf 0 4⟩ }, _, decode_decrypt _ _, rfl, by decide⟩,
    by decide, by decide⟩

theorem witness_ConstantControlFlow :
    ∃ s s' : State, s'.current = s.current ∧ s'.phase = s.phase ∧ s'.vselL = s.vselL ∧ s'.params = s.params ∧ s ≠ s' :=
  ⟨{ ready .bm32_64 with current := ⟨0x40, buf 0x200 4, buf 0x100 4⟩ },
    { ready .bm32_64 [] [(0x100, 1)] with current := ⟨0x40, buf 0x200 4, buf 0x100 4⟩ },
    rfl, rfl, rfl, rfl, fun h => absurd (congrArg State.mem h) (by decide)⟩

/-- CONSTRUCT of BM128_256, whose index ends at 72, and a DECRYPT of each way of counting down. -/
theorem witness_RoundIndexCounts_RoundIndexBounded :
    (∃ v key s d, decode (State.current s) = .ok (Instr.construct v key) ∧ s.ConstructReady v key ∧ d = ksTrips v ∧
      s.scratch.i.toNat ≤ 71 ∧ firstSub s.current ≠ .done) ∧
    [Variant.bm32_64, .am32_64].all (fun v => [Dir.encrypt, .decrypt].all fun dir => 
      runsTo (rtTrips v + 2) ⟨.rtCheck, { ready v with current := encode (cryptInstr dir (buf 0x200 4) (buf 0x100 4)) }⟩
        .rtStore fun _ => true) = true :=
  ⟨⟨.bm128_256, keyOf .bm128_256,
      { State.reset with current := ⟨(0b001 : BitVec 3) ++ Variant.vsel .bm128_256, keyOf .bm128_256, Desc.zero⟩ },
      _, decode_construct _ _ _, ⟨by decide, by decide⟩, rfl, by decide, by decide⟩, by decide +kernel⟩

/-- A CONSTRUCT in its loop and about to publish, an ENCRYPT in its rounds and about to store. -/
theorem witness_RunningWordsAreMasked :
    decode constructing.core.current = .ok (Instr.construct .bm32_64 (buf 0x100 8)) ∧
    ([(2, SubState.ksRun), (30, .ksPublish)].all fun p => runsTo p.1 constructing p.2 fun _ => true) = true ∧
    ([(2, SubState.rtRun), (18, .rtStore)].all fun p => runsTo p.1
      ⟨.rtCheck, { ready .bm32_64 with current := ⟨0x40, buf 0x200 4, buf 0x100 4⟩ }⟩ p.2 fun _ => true) = true :=
  ⟨decode_construct .bm32_64 _ _, by decide +kernel, by decide +kernel⟩

end Sys2Proof.Tests
end

section
/-! Little-endian access to host memory (20_memory.md R33): what MemRead and MemWrite do, byte by byte. -/

namespace Sys2Proof

/-- A variant's words have one of the five byte counts of R33. -/
theorem Variant.n_mem (v : Variant) : v.n ∈ [2, 3, 4, 6, 8] := by cases v <;> decide

namespace Machine

@[simp] theorem Memory.readLE_zero (m : Memory) (addr : Nat) : m.readLE addr 0 = 0 := rfl

theorem Memory.readLE_succ (m : Memory) (addr n : Nat) :
    m.readLE addr (n + 1) = (m.read addr).toNat + 2 ^ 8 * m.readLE (addr + 1) n := rfl

@[simp] theorem Memory.writeLE_zero (m : Memory) (addr v : Nat) : m.writeLE addr 0 v = m := rfl

theorem Memory.writeLE_succ (m : Memory) (addr n v : Nat) :
    m.writeLE addr (n + 1) v = (m.write addr (BitVec.ofNat 8 v)).writeLE (addr + 1) n (v >>> 8) := rfl

/-- MemRead is the sum of the bytes, byte `i` in the place of weight `2 ^ (8i)`. -/
theorem Memory.readLE_eq_sum (m : Memory) (addr n : Nat) :
    m.readLE addr n = ((List.range n).map fun i => (m.read (addr + i)).toNat <<< (8 * i)).sum := by
  induction n generalizing addr with
  | zero => rw [Memory.readLE_zero, List.range_zero, List.map_nil, List.sum_nil]
  | succ n ih =>
    have shiftPlace (i : Nat) : 2 ^ 8 * ((m.read (addr + 1 + i)).toNat <<< (8 * i)) =
        (m.read (addr + (i + 1))).toNat <<< (8 * (i + 1)) := by
      rw [Nat.add_right_comm, Nat.add_assoc, Nat.shiftLeft_eq, Nat.shiftLeft_eq, Nat.mul_add, Nat.pow_add]
      ring
    rw [Memory.readLE_succ, ih, ← List.sum_map_mul_left, List.range_succ_eq_map, List.map_cons, List.sum_cons,
      List.map_map]
    simp only [shiftPlace, Function.comp_def, Nat.add_zero, Nat.mul_zero, Nat.shiftLeft_zero, Nat.succ_eq_add_one]

/-- Masking with `0xFF` is what storing a value in a byte does. -/
theorem ofNat_and_byteMask (v : Nat) : BitVec.ofNat 8 (v &&& 0xFF) = BitVec.ofNat 8 v :=
  BitVec.eq_of_toNat_eq <| by
    rw [BitVec.toNat_ofNat, BitVec.toNat_ofNat, Nat.and_two_pow_sub_one_eq_mod v 8, Nat.mod_mod]

/-- MemWrite leaves every byte outside its `n` bytes. -/
theorem Memory.read_writeLE_outside (m : Memory) {addr n x : Nat} (v : Nat) (h : x < addr ∨ addr + n ≤ x) :
    (m.writeLE addr n v).read x = m.read x := by
  induction n generalizing m addr v with
  | zero => rw [Memory.writeLE_zero]
  | succ n ih => rw [Memory.writeLE_succ, ih _ _ (by omega), Memory.read_write_other _ _ _ _ (by omega)]

/-- MemWrite stores byte `i` of the value at `addr + i`. -/
theorem Memory.read_writeLE_inside (m : Memory) (addr v : Nat) {n i : Nat} (h : i < n) :
    (m.writeLE addr n v).read (addr + i) = BitVec.ofNat 8 (v >>> (8 * i)) := by
  induction n generalizing m addr v i with
  | zero => omega
  | succ n ih =>
    rw [Memory.writeLE_succ]
    cases i with
    | zero => rw [Memory.read_writeLE_outside _ _ (by omega), Nat.add_zero, Memory.read_write_same, Nat.mul_zero,
        Nat.shiftRight_zero]
    | succ i =>
      rw [show addr + (i + 1) = addr + 1 + i by omega, ih _ _ _ (by omega), ← Nat.shiftRight_add,
        show 8 * (i + 1) = 8 + 8 * i by omega]

/-- A read after MemWrite: the byte of the value inside the `n` bytes, the old byte everywhere else. -/
theorem Memory.read_writeLE (m : Memory) (addr n v x : Nat) :
    (m.writeLE addr n v).read x =
      if addr ≤ x ∧ x < addr + n then BitVec.ofNat 8 ((v >>> (8 * (x - addr))) &&& 0xFF) else m.read x := by
  split
  · next h =>
    obtain ⟨hlow, hhigh⟩ := h
    obtain ⟨i, rfl⟩ := Nat.exists_eq_add_of_le hlow
    rw [Memory.read_writeLE_inside _ _ _ (by omega), Nat.add_sub_cancel_left, ofNat_and_byteMask]
  · exact Memory.read_writeLE_outside _ _ (by omega)

/-- Settles O49: MemRead by induction on the bytes, MemWrite from what it does inside and outside its `n` bytes. -/
theorem littleEndianAccess : Obligations.LittleEndianAccess :=
  ⟨fun v => ⟨v.w_eq.symm, v.n_mem⟩, Memory.readLE_eq_sum, Memory.read_writeLE, by decide, by decide⟩

end Machine

end Sys2Proof
end

section
/-! Legal command words (30_encoding.md R59): the two fields of a word say whether it decodes, and a word that does not
decode is refused. -/

namespace Sys2Proof

open Machine

/-- A command word is its `OP` field above its `VSEL` field (R50). -/
theorem Command.cmd_toNat (c : Command) : c.cmd.toNat = 32 * c.op.toNat + c.vsel.toNat := by
  simp only [Command.op, Command.vsel, BitVec.extractLsb'_toNat, Nat.shiftRight_eq_div_pow]
  omega

/-- R59 by the fields: CONSTRUCT with a size index below 10, or another operation with the `VSEL` field zero. -/
def Command.FieldsLegal (c : Command) : Prop :=
  (c.op.toNat = 1 ∧ c.vsel.toNat % 16 < 10) ∨ (2 ≤ c.op.toNat ∧ c.op.toNat ≤ 4 ∧ c.vsel = 0)

/-- The list of the 23 legal words says the same as their fields. -/
theorem Command.fieldsLegal_iff (c : Command) : c.FieldsLegal ↔ c.cmd.toNat ∈ legalWords := by
  have hvsel : c.vsel = 0 ↔ c.vsel.toNat = 0 := BitVec.toNat_eq
  simp only [Command.FieldsLegal, hvsel, c.cmd_toNat, legalWords, List.mem_cons, List.not_mem_nil, or_false]
  omega

/-- A `VSEL` code names a variant iff its size index is below 10 (R52). -/
theorem Variant.exists_ofVsel_iff (code : BitVec 5) :
    (∃ v, Variant.ofVsel code = some v) ↔ code.toNat % 16 < 10 := by
  rw [← Option.isSome_iff_exists]
  revert code
  decide

/-- Outside CONSTRUCT a command decodes iff its `VSEL` field is zero. -/
theorem exists_decodeNoVsel_iff (c : Command) (i : Instr) : (∃ j, decodeNoVsel c i = .ok j) ↔ c.vsel = 0 := by
  unfold decodeNoVsel
  split
  · next hzero => exact ⟨fun _ => hzero, fun _ => ⟨i, rfl⟩⟩
  · next hstray => exact ⟨nofun, fun hzero => absurd hzero hstray⟩

/-- The decoder accepts the commands whose fields are legal, by cases on the `OP` field. -/
theorem exists_decode_iff (c : Command) : (∃ i, decode c = .ok i) ↔ c.FieldsLegal := by
  unfold decode Command.FieldsLegal
  split
  · next hop =>
    rw [← Variant.exists_ofVsel_iff]
    cases Variant.ofVsel c.vsel <;> simp [hop]
  · next hop => simp [hop, exists_decodeNoVsel_iff]
  · next hop => simp [hop, exists_decodeNoVsel_iff]
  · next hop => simp [hop, exists_decodeNoVsel_iff]
  · next hne1 hne2 hne3 hne4 =>
    refine ⟨nofun, fun hlegal => ?_⟩
    rcases hlegal with ⟨hone, -⟩ | ⟨hlow, hhigh, -⟩
    · exact absurd hone hne1
    · have hop : c.op.toNat = 2 ∨ c.op.toNat = 3 ∨ c.op.toNat = 4 := by omega
      exact False.elim (hop.elim hne2 (Or.elim · hne3 hne4))

theorem exists_decode_iff_legal (c : Command) : (∃ i, decode c = .ok i) ↔ c.cmd.toNat ∈ legalWords :=
  (exists_decode_iff c).trans c.fieldsLegal_iff

/-- The port narrows the descriptors, not the word, so a word that is not legal stays refused there. -/
theorem exists_decode_atPort_error {c : Command} (addrBits : Nat) (hc : c.cmd.toNat ∉ legalWords) :
    ∃ e, decode (c.atPort addrBits) = .error e := by
  cases hd : decode (c.atPort addrBits) with
  | error e => exact ⟨e, rfl⟩
  | ok i => exact absurd ((exists_decode_iff_legal _).mp ⟨i, hd⟩) hc

namespace Machine

/-- An error or a refusal changes STATUS only (60_exceptions.md R152, R154). -/
theorem State.onlyStatus_raise (s : State) (code : Status) : State.OnlyStatus s (s.raise code) code :=
  ⟨rfl, rfl, rfl, rfl, rfl, fun _ => rfl, rfl, rfl⟩

/-- Presenting a command writes its operand registers only, which `OnlyStatus` does not speak of. -/
theorem State.OnlyStatus.of_issue {s t : State} {c : Command} {code : Status}
    (h : State.OnlyStatus (s.issue c) t code) : State.OnlyStatus s t code :=
  ⟨h.status, h.phase, h.vselL, h.rk, h.result, h.mem, h.host, h.params⟩

/-- A step whose command does not decode at the port raises `IllegalCommand`. -/
theorem step_of_decode_error {s : State} {c : Command} {rest : List HostMove} {e : DecodeError}
    (hhost : s.host = .command c :: rest) (hd : decode (c.atPort s.params.addrBits) = .error e) :
    step s = .next ((State.issue { s with host := rest } (c.atPort s.params.addrBits)).raise .illegalCommand) := by
  simp only [step, hhost, HostMove.atPort, perform, runCommand, hd]

/-- R59: a step whose command word is not legal changes STATUS only, to `IllegalCommand`. -/
theorem step_of_not_legal {s : State} {c : Command} {rest : List HostMove}
    (hhost : s.host = .command c :: rest) (hc : c.cmd.toNat ∉ legalWords) :
    ∃ t, step s = .next t ∧ State.OnlyStatus { s with host := rest } t .illegalCommand := by
  obtain ⟨e, hd⟩ := exists_decode_atPort_error s.params.addrBits hc
  exact ⟨_, step_of_decode_error hhost hd, (State.onlyStatus_raise _ _).of_issue⟩

end Machine

/-- Settles O3: the decoder and the list of legal words both say what the fields of the word say, and a word that does
not decode raises `IllegalCommand`. -/
theorem reservedEncodingsRefused : Obligations.ReservedEncodingsRefused := by
  intro c
  refine ⟨exists_decode_iff_legal c, ?reservedOp, ?reservedVsel, ?strayVsel,
    fun _ _ hhost hc => step_of_not_legal hhost hc⟩ <;> rw [← c.fieldsLegal_iff]
  case reservedOp =>
    intro hop hlegal
    simp only [List.mem_cons, List.not_mem_nil, or_false] at hop
    rcases hlegal with ⟨hone, -⟩ | ⟨hlow, hhigh, -⟩ <;> omega
  case reservedVsel =>
    intro hop hindex hlegal
    have hone : c.op.toNat = 1 := by rw [hop]; rfl
    rcases hlegal with ⟨-, hsize⟩ | ⟨hlow, -⟩ <;> omega
  case strayVsel =>
    intro hop hstray hlegal
    simp only [List.mem_cons, List.not_mem_nil, or_false] at hop
    rcases hlegal with ⟨hone, -⟩ | ⟨-, -, hzero⟩
    · omega
    · exact hstray hzero

end Sys2Proof
end

section
/-! The datapath primitives (40_arithmetic.md R72 to R78): the rotations as integers and bit by bit, the masked
operations as integers modulo `2^w`, the nonlinear core. -/

namespace Sys2Proof

namespace Machine

variable {w : Nat}

/-- R72: the bits the left shift drops are the ones `mod 2^w` drops, and the right shift brings none above `w`. -/
theorem toNat_rotl (n : BitVec w) (s : Nat) :
    (rotl n s).toNat = ((n.toNat <<< s) ||| (n.toNat >>> (w - s))) % 2 ^ w := by
  have hright : n.toNat >>> (w - s) < 2 ^ w := Nat.lt_of_le_of_lt (Nat.shiftRight_le _ _) n.isLt
  rw [rotl, BitVec.toNat_or, BitVec.toNat_shiftLeft, BitVec.toNat_ushiftRight, Nat.or_mod_two_pow,
    Nat.mod_eq_of_lt hright]

/-- On the amounts the CORE uses (log 14), `rotr` is the library's rotation. -/
theorem rotr_eq_rotateRight (n : BitVec w) {s : Nat} (hs : s < w) : rotr n s = n.rotateRight s := by
  rw [rotr, rotl, Nat.sub_sub_self (Nat.le_of_lt hs), BitVec.rotateRight_def, Nat.mod_eq_of_lt hs, BitVec.or_comm]

/-- R73: the low `w - s` bits come from `s` places above, the others from the bottom of the word. -/
theorem getLsbD_rotr (n : BitVec w) {s j : Nat} (hs : s < w) (hj : j < w) :
    (rotr n s).getLsbD j = n.getLsbD ((j + s) % w) := by
  rw [rotr_eq_rotateRight n hs, BitVec.getLsbD_rotateRight, Nat.mod_eq_of_lt hs]
  by_cases hlow : j < w - s
  · have hindex : (j + s) % w = s + j := by rw [Nat.mod_eq_of_lt (by omega), Nat.add_comm]
    simp [hlow, hindex]
  · have hindex : (j + s) % w = j - (w - s) := by
      rw [Nat.mod_eq_sub_mod (by omega), Nat.mod_eq_of_lt (by omega)]
      omega
    simp [hlow, hj, hindex]

theorem toNat_notW (n : BitVec w) : (notW n).toNat = 2 ^ w - 1 - n.toNat := BitVec.toNat_not

theorem notW_eq_xor_allOnes (n : BitVec w) : notW n = n ^^^ BitVec.allOnes w := BitVec.xor_allOnes.symm

theorem toNat_addW (a b : BitVec w) : (addW a b).toNat = (a.toNat + b.toNat) % 2 ^ w := BitVec.toNat_add a b

theorem addW_comm (a b : BitVec w) : addW a b = addW b a := BitVec.add_comm a b

theorem addW_assoc (a b c : BitVec w) : addW (addW a b) c = addW a (addW b c) := BitVec.add_assoc a b c

/-- R76: a word is below `2^w`, so the integer `a + 2^w - b` is not cut off at zero. -/
theorem toNat_subW (a b : BitVec w) : (subW a b).toNat = (a.toNat + 2 ^ w - b.toNat) % 2 ^ w := by
  rw [subW, BitVec.toNat_sub', Nat.add_sub_assoc (Nat.le_of_lt b.isLt)]

/-- R76: the difference is the one word that the sum takes back. -/
theorem addW_eq_iff_eq_subW (a b d : BitVec w) : addW d b = a ↔ d = subW a b := BitVec.eq_sub_iff_add_eq.symm

/-- R78: `0` and the word of ones have the same image, so the nonlinear core has no inverse. -/
theorem fW_not_injective : ∃ x y : BitVec 16, x ≠ y ∧ fW x = fW y := ⟨0x0000, 0xFFFF, by decide, by decide⟩

end Machine

open Machine

/-- Settles O7: the definition, the two cases of the result bit, the examples by evaluation. -/
theorem rotateRightFormula : Obligations.RotateRightFormula :=
  ⟨fun _ n _ _ hs => ⟨rfl, fun _ hj => getLsbD_rotr n hs hj⟩, by decide, by decide, by decide⟩

/-- Settles O8: each operation by its integer value and its laws, the examples by evaluation. -/
theorem maskedArithmetic : Obligations.MaskedArithmetic := by
  refine ⟨fun _ n => ⟨toNat_notW n, notW_eq_xor_allOnes n⟩,
    fun _ a b c => ⟨toNat_addW a b, addW_comm a b, addW_assoc a b c⟩,
    fun _ a b => ⟨toNat_subW a b, addW_eq_iff_eq_subW a b⟩, ?examples⟩
  case examples => decide

/-- Settles O6: the formula holds at every amount, the examples by evaluation. -/
theorem rotateLeftFormula : Obligations.RotateLeftFormula :=
  ⟨fun _ n s _ _ => toNat_rotl n s, by decide, by decide, by decide⟩

/-- Settles O9: the formula is the definition, two words with one image, the examples by evaluation. -/
theorem nonlinearCore : Obligations.NonlinearCore :=
  ⟨fun _ _ => rfl, fW_not_injective, by decide, by decide, by decide, by decide, by decide⟩

end Sys2Proof
end

section
/-! Reading the key buffer (20_memory.md R33, R34): the words its bytes are, the words of two buffers with the same bytes,
the seed slots of a key (42_key_schedule.md R102, R103). -/

namespace Sys2Proof.Machine

/-- MemRead of bytes that are the low `n` bytes of `x` gives `x` modulo `2 ^ (8n)`. -/
theorem Memory.readLE_eq_mod {m : Memory} {addr n x : Nat}
    (hbytes : ∀ j, j < n → m.read (addr + j) = BitVec.ofNat 8 (x >>> (8 * j))) : m.readLE addr n = x % 2 ^ (8 * n) := by
  induction n generalizing addr x with
  | zero => rw [Memory.readLE_zero, Nat.mul_zero, Nat.pow_zero, Nat.mod_one]
  | succ n ih =>
    have hfirst : m.read addr = BitVec.ofNat 8 x := hbytes 0 n.succ_pos
    have hrest : m.readLE (addr + 1) n = (x >>> 8) % 2 ^ (8 * n) := ih fun j hj => by
      rw [← Nat.shiftRight_add, show 8 + 8 * j = 8 * (j + 1) by omega, ← hbytes (j + 1) (by omega), Nat.add_assoc,
        Nat.add_comm 1 j]
    rw [Memory.readLE_succ, hfirst, hrest, BitVec.toNat_ofNat, Nat.shiftRight_eq_div_pow, Nat.mul_succ,
      Nat.add_comm (8 * n), Nat.pow_add, Nat.mod_mul]

/-- MemRead gives the same integer at two places with the same bytes. -/
theorem Memory.readLE_congr {m m' : Memory} {addr addr' n : Nat}
    (hbytes : ∀ j, j < n → m.read (addr + j) = m'.read (addr' + j)) : m.readLE addr n = m'.readLE addr' n := by
  rw [Memory.readLE_eq_sum, Memory.readLE_eq_sum]
  exact congrArg List.sum (List.map_congr_left fun j hj => by rw [hbytes j (List.mem_range.mp hj)])

/-- Where the bytes of a word of `8n` bits lie, that word is read. -/
theorem readWord_eq_of_wordBytesAt {w n : Nat} {m : Memory} {addr : Nat} {k : BitVec w} (hw : w = 8 * n)
    (hk : wordBytesAt m addr n k) : readWord w m addr n = k := by
  rw [readWord, maskW, Memory.readLE_eq_mod hk, ← hw, Nat.mod_eq_of_lt k.isLt, BitVec.ofNat_toNat, BitVec.setWidth_eq]

/-- Byte `i` of key word `j` lies inside a key buffer of the valid length (R34, R101). -/
theorem Variant.keyByte_lt (v : Variant) {j i : Nat} (hj : j < v.m) (hi : i < v.n) : j * v.n + i < v.keyBytes :=
  calc j * v.n + i < j * v.n + v.n := Nat.add_lt_add_left hi _
    _ = (j + 1) * v.n := (Nat.succ_mul j v.n).symm
    _ ≤ v.m * v.n := Nat.mul_le_mul_right _ hj
    _ = v.keyBytes := Nat.mul_comm _ _

/-- Two key buffers with the same bytes hold the same key words. -/
theorem keyWords_congr {v : Variant} {m m' : Memory} {key key' : Desc}
    (hbytes : ∀ j, j < v.keyBytes → m.read (key.base + j) = m'.read (key'.base + j)) :
    keyWords v m key = keyWords v m' key' :=
  List.map_congr_left fun j hj => congrArg (maskW v.w) <| Memory.readLE_congr fun i hi => by
    rw [Nat.add_assoc, Nat.add_assoc]
    exact hbytes _ (Variant.keyByte_lt v (List.mem_range.mp hj) hi)

theorem wordAt_keyWords {v : Variant} (m : Memory) (key : Desc) {j : Nat} (hj : j < v.m) :
    wordAt (keyWords v m key) j = readWord v.w m (key.base + j * v.n) v.n := by
  simp [wordAt, keyWords, hj]

theorem length_seedSlots_keyWords (map : KeyMap) (v : Variant) (m : Memory) (key : Desc) :
    (seedSlots map (keyWords v m key)).length = v.m :=
  (length_seedSlots map _).trans (length_keyWords v m key)

/-- REVERSED reads the key words from the last one back (R103). -/
theorem wordAt_seedSlots_reversed {w : Nat} (kw : List (BitVec w)) {j : Nat} (hj : j < kw.length) :
    wordAt (seedSlots .reversed kw) j = wordAt kw (kw.length - 1 - j) := by
  simp [wordAt, seedSlots, List.getElem?_reverse hj]

/-- The slots CONSTRUCT takes from a key buffer are the seed slots its bytes are (R102, R103). -/
theorem wordAt_seedSlots_keyWords {p : Parameters} {v : Variant} {m : Memory} {key : Desc} {S : Nat → BitVec v.w}
    (hS : slotsAt p v m key.base S) {j : Nat} (hj : j < v.m) :
    wordAt (seedSlots (p.keymap v) (keyWords v m key)) j = S j := by
  have hslot := hS j hj
  cases hmap : p.keymap v with
  | direct =>
    rw [hmap] at hslot
    exact (wordAt_keyWords m key hj).trans (readWord_eq_of_wordBytesAt v.w_eq hslot)
  | reversed =>
    rw [hmap] at hslot
    rw [wordAt_seedSlots_reversed _ (by rwa [length_keyWords]), length_keyWords, wordAt_keyWords m key (by omega)]
    exact readWord_eq_of_wordBytesAt v.w_eq hslot

end Sys2Proof.Machine
end

section
/-! The expansion of the seed slots (42_key_schedule.md R105 to R108): each stream only grows, so the whole array obeys
the recurrence its entries were made by. -/

namespace Sys2Proof.Machine

variable {w : Nat}

/-- A longer stream agrees with its beginning. -/
theorem wordAt_of_prefix {k l : List (BitVec w)} (h : k <+: l) {i : Nat} (hi : i < k.length) :
    wordAt l i = wordAt k i := by
  obtain ⟨rest, rfl⟩ := h
  exact wordAt_append_lt k rest hi

/-- The word just appended, read at its index. -/
theorem wordAt_append_at {k : List (BitVec w)} {i : Nat} (hi : k.length = i) (x : BitVec w) : wordAt (k ++ [x]) i = x :=
  hi ▸ wordAt_append_last k x

/-! ### BooleanMix -/

@[simp] theorem bmExpand_self (m : Nat) (cb : Nat → Bool) (slots : List (BitVec w)) : bmExpand m m cb slots = slots := by
  simp [bmExpand]

/-- One more round key (R106). -/
theorem bmExpand_succ {m T : Nat} (hm : m ≤ T) (cb : Nat → Bool) (slots : List (BitVec w)) :
    bmExpand m (T + 1) cb slots =
      bmExpand m T cb slots ++ [bmKey m (cb (T - m)) (bmExpand m T cb slots) T] := by
  simp only [bmExpand, Nat.sub_add_comm hm, List.range_succ, List.foldl_append, List.foldl_cons, List.foldl_nil,
    Nat.add_sub_cancel' hm]

/-- More rounds only extend the array. -/
theorem bmExpand_prefix {m T T' : Nat} (hm : m ≤ T) (hT : T ≤ T') (cb : Nat → Bool) (slots : List (BitVec w)) :
    bmExpand m T cb slots <+: bmExpand m T' cb slots := by
  induction T', hT using Nat.le_induction with
  | base => exact List.prefix_rfl
  | succ T' hT ih =>
    rw [bmExpand_succ (hm.trans hT)]
    exact ih.trans (List.prefix_append _ _)

/-- A BooleanMix step at `i` reads entries below `i` only. -/
theorem bmKey_of_prefix {m i : Nat} {k l : List (BitVec w)} (h : k <+: l) (hlen : k.length = i) (hm : 0 < m)
    (hi : m ≤ i) (cb : Bool) : bmKey m cb l i = bmKey m cb k i := by
  have hread (d : Nat) (hd : 0 < d) : wordAt l (i - d) = wordAt k (i - d) := wordAt_of_prefix h (by omega)
  simp only [bmKey, bmTmp, hread m hm, hread 1 (by decide), hread 3 (by decide)]

/-- R106: every generated entry of the whole array is the BooleanMix step on that array. -/
theorem wordAt_bmExpand {m T i : Nat} (cb : Nat → Bool) {slots : List (BitVec w)} (hs : slots.length = m) (hm : 0 < m)
    (hi : m ≤ i) (hT : i < T) :
    wordAt (bmExpand m T cb slots) i = bmKey m (cb (i - m)) (bmExpand m T cb slots) i := by
  have hlen : (bmExpand m i cb slots).length = i := length_bmExpand cb slots hs hi
  calc wordAt (bmExpand m T cb slots) i
      = wordAt (bmExpand m (i + 1) cb slots) i :=
        wordAt_of_prefix (bmExpand_prefix (by omega) hT cb slots)
          (by rw [length_bmExpand cb slots hs (by omega)]; omega)
    _ = bmKey m (cb (i - m)) (bmExpand m i cb slots) i := by rw [bmExpand_succ hi, wordAt_append_at hlen]
    _ = bmKey m (cb (i - m)) (bmExpand m T cb slots) i :=
        (bmKey_of_prefix (bmExpand_prefix hi (by omega) cb slots) hlen hm hi _).symm

/-- R105: the array starts with the slots. -/
theorem wordAt_bmExpand_slot {m T j : Nat} (cb : Nat → Bool) {slots : List (BitVec w)} (hs : slots.length = m)
    (hm : m ≤ T) (hj : j < m) : wordAt (bmExpand m T cb slots) j = wordAt slots j := by
  have hprefix := bmExpand_prefix (le_refl m) hm cb slots
  rw [bmExpand_self] at hprefix
  exact wordAt_of_prefix hprefix (by omega)

/-! ### AddMix -/

/-- Before the first iteration (R107). -/
@[simp] theorem amExpand_one (A B : Nat) (slots : List (BitVec w)) :
    amExpand A B 1 slots = (slots.take 1, slots.drop 1) := rfl

/-- One more iteration (R108). -/
theorem amExpand_succ (A B T : Nat) (slots : List (BitVec w)) :
    amExpand A B (T + 2) slots = amStep A B (amExpand A B (T + 1) slots) T := by
  simp only [amExpand, Nat.add_sub_cancel, show T + 2 - 1 = T + 1 from rfl, List.range_succ, List.foldl_append,
    List.foldl_cons, List.foldl_nil]

/-- More iterations only extend the two streams. -/
theorem amExpand_prefix {T T' : Nat} (hT : T ≤ T') (A B : Nat) (slots : List (BitVec w)) :
    (amExpand A B (T + 1) slots).1 <+: (amExpand A B (T' + 1) slots).1 ∧
      (amExpand A B (T + 1) slots).2 <+: (amExpand A B (T' + 1) slots).2 := by
  induction T', hT using Nat.le_induction with
  | base => exact ⟨List.prefix_rfl, List.prefix_rfl⟩
  | succ T' _ ih =>
    rw [amExpand_succ]
    exact ⟨ih.1.trans (List.prefix_append _ _), ih.2.trans (List.prefix_append _ _)⟩

/-- R107: `k[0]` is the first slot and `AUX` starts with the others. -/
theorem wordAt_amExpand_slots {m T : Nat} (A B : Nat) {slots : List (BitVec w)} (hs : slots.length = m) (hm : 0 < m) :
    wordAt (amExpand A B (T + 1) slots).1 0 = wordAt slots 0 ∧
      ∀ j, j + 1 < m → wordAt (amExpand A B (T + 1) slots).2 j = wordAt slots (j + 1) := by
  obtain ⟨hkey, haux⟩ := amExpand_prefix T.zero_le A B slots
  constructor
  · rw [wordAt_of_prefix hkey (by rw [amExpand_one, List.length_take, hs]; omega)]
    simp [wordAt]
  · intro j hj
    rw [wordAt_of_prefix haux (by rw [amExpand_one, List.length_drop, hs]; omega)]
    simp [wordAt]

/-- The lengths of the two streams after `T` iterations (R108). -/
theorem length_amExpand_succ (A B : Nat) {m : Nat} (T : Nat) {slots : List (BitVec w)} (hs : slots.length = m)
    (hm : 0 < m) :
    (amExpand A B (T + 1) slots).1.length = T + 1 ∧ (amExpand A B (T + 1) slots).2.length = T + m - 1 := by
  have := length_amExpand A B (T := T + 1) slots hs hm T.succ_pos
  omega

/-- R108: the entries that iteration `i` wrote, read from the whole streams. -/
theorem wordAt_amExpand {m T i : Nat} (A B : Nat) {slots : List (BitVec w)} (hs : slots.length = m) (hm : 2 ≤ m)
    (hi : i < T) :
    let s := amExpand A B (T + 1) slots
    wordAt s.2 (i + m - 1) = amAux A s.1 s.2 i ∧
      wordAt s.1 (i + 1) = rotl (wordAt s.1 i) B ^^^ wordAt s.2 (i + m - 1) := by
  intro s
  obtain ⟨hkey, haux⟩ := amExpand_prefix (Nat.le_of_lt hi) A B slots
  obtain ⟨hkey', haux'⟩ := amExpand_prefix (show i + 1 ≤ T from hi) A B slots
  obtain ⟨hlenKey, hlenAux⟩ := length_amExpand_succ A B i hs (by omega)
  obtain ⟨hlenKey', hlenAux'⟩ := length_amExpand_succ A B (i + 1) hs (by omega)
  have hreadKey : wordAt s.1 i = wordAt (amExpand A B (i + 1) slots).1 i := wordAt_of_prefix hkey (by omega)
  have hreadAux : wordAt s.2 i = wordAt (amExpand A B (i + 1) slots).2 i := wordAt_of_prefix haux (by omega)
  have hnewAux : wordAt s.2 (i + m - 1) = amAux A s.1 s.2 i := by
    rw [wordAt_of_prefix haux' (by omega), amExpand_succ, amAux, hreadKey, hreadAux]
    exact wordAt_append_at hlenAux _
  have hnewKey : wordAt s.1 (i + 1) = rotl (wordAt s.1 i) B ^^^ amAux A s.1 s.2 i := by
    rw [wordAt_of_prefix hkey' (by omega), amExpand_succ, amAux, hreadKey, hreadAux]
    exact wordAt_append_at hlenKey _
  exact ⟨hnewAux, by rw [hnewAux, hnewKey]⟩

end Sys2Proof.Machine
end

section
/-! CONSTRUCT (42_key_schedule.md R100 to R110): what a ready one publishes, what a wrong length ends it with. -/

namespace Sys2Proof

namespace Machine

/-- CONSTRUCT under its conditions publishes the round keys of its key buffer. -/
theorem exec_construct_of_ready {v : Variant} {key : Desc} {s : State} (h : s.ConstructReady v key) :
    exec (Instr.construct v key) s = .next (s.publish v (roundKeys s.params v s.mem key)) :=
  (exec_construct v key s).trans (construct_next.mpr (.inl ⟨h.fits, h.len, rfl⟩))

/-- `RK[i]` below `T` after publishing, as a physical word. -/
theorem State.publish_rk_lt (s : State) (v : Variant) (k : List PWord) (i : Fin 72) (hi : i.val < v.T) :
    (s.publish v k).rk[i] = k.getD i.val 0 := publishedRk_lt k s.fresh i hi

/-- `RK[0 .. T-1]` after CONSTRUCT are words of the variant's width. -/
theorem State.publish_rkFits (s : State) (v : Variant) (p : Parameters) (m : Memory) (key : Desc) :
    (s.publish v (roundKeys p v m key)).rkFits v := by
  intro i hi
  rw [State.publish_rk_lt s v _ i hi]
  exact roundKeys_lt p v m key i

/-- `RK[i]` below `T` after CONSTRUCT is entry `i` of the expanded key (R110). -/
theorem State.publish_rkWord (s : State) (v : Variant) (p : Parameters) (m : Memory) (key : Desc) {i : Nat}
    (hi : i < v.T) :
    (s.publish v (roundKeys p v m key)).rkWord v.w i =
      wordAt (expand p v (seedSlots (p.keymap v) (keyWords v m key))) i := by
  have hlen : (expand p v (seedSlots (p.keymap v) (keyWords v m key))).length = v.T :=
    length_expand p v _ (length_seedSlots_keyWords _ v m key)
  have hi72 : i < 72 := Nat.lt_of_lt_of_le hi v.T_le
  have hentry := State.publish_rk_lt s v (roundKeys p v m key) ⟨i, hi72⟩ hi
  rw [Fin.getElem_fin] at hentry
  rw [State.rkWord, Vector.getElem?_eq_getElem hi72, Option.getD_some, hentry]
  simp [roundKeys, wordAt, hlen, hi]

theorem expand_booleanMix (p : Parameters) {v : Variant} (hv : v.family = .booleanMix) (slots : List (BitVec v.w)) :
    expand p v slots = bmExpand v.m v.T (cbit p v) slots := by
  simp only [expand, hv]

theorem expand_addMix (p : Parameters) {v : Variant} (hv : v.family = .addMix) (slots : List (BitVec v.w)) :
    expand p v slots = (amExpand v.rotA v.rotB v.T slots).1 := by
  simp only [expand, hv]

/-- The round keys depend on the bytes of the key buffer only (R104). -/
theorem roundKeys_congr (p : Parameters) {v : Variant} {m m' : Memory} {key key' : Desc}
    (hbytes : ∀ j, j < v.keyBytes → m.read (key.base + j) = m'.read (key'.base + j)) :
    roundKeys p v m key = roundKeys p v m' key' := by
  rw [roundKeys, roundKeys, keyWords_congr hbytes]

end Machine

open Machine

/-- Settles O13: the published array is the BooleanMix expansion of the seed slots, which starts with them and obeys the
recurrence. -/
theorem constructBooleanMix : Obligations.ConstructBooleanMix := by
  intro v key s S hv hready hS
  have hlen := length_seedSlots_keyWords (s.params.keymap v) v s.mem key
  have hm := v.m_ge
  have hmT := v.m_lt_T
  have hrk (i : Nat) (hi : i < v.T) := State.publish_rkWord s v s.params s.mem key hi
  simp only [expand_booleanMix s.params hv] at hrk
  refine ⟨_, exec_construct_of_ready hready, rfl, rfl, rfl, State.publish_rkFits s v s.params s.mem key, rfl,
    fun j hj => ?slots, fun i hi hiT => ?recurrence⟩
  case slots =>
    rw [hrk j (by omega), wordAt_bmExpand_slot _ hlen (by omega) hj, wordAt_seedSlots_keyWords hS hj]
  case recurrence =>
    simp only [hrk i hiT, hrk (i - 1) (by omega), hrk (i - 3) (by omega), hrk (i - v.m) (by omega)]
    exact wordAt_bmExpand (cbit s.params v) hlen (by omega) hi hiT

/-- Settles O14: the published array is the first stream of the AddMix expansion of the seed slots; its second stream is
the auxiliary one. -/
theorem constructAddMix : Obligations.ConstructAddMix := by
  intro v key s S hv hready hS
  have hlen := length_seedSlots_keyWords (s.params.keymap v) v s.mem key
  have hm := v.m_ge
  obtain ⟨T, hT⟩ : ∃ T, v.T = T + 1 := Nat.exists_eq_add_one.mpr (by have := v.m_lt_T; omega)
  have hrk (i : Nat) (hi : i < v.T) := State.publish_rkWord s v s.params s.mem key hi
  simp only [expand_addMix s.params hv, hT] at hrk
  obtain ⟨hkey, haux⟩ := wordAt_amExpand_slots (T := T) v.rotA v.rotB hlen (by omega)
  refine ⟨_, exec_construct_of_ready hready, rfl, rfl, rfl, State.publish_rkFits s v s.params s.mem key, rfl,
    wordAt (amExpand v.rotA v.rotB (T + 1) (seedSlots (s.params.keymap v) (keyWords v s.mem key))).2, ?firstKey,
    fun j hj => ?auxSlots, fun i hi => ?recurrence⟩
  case firstKey => rw [hrk 0 (by omega), hkey, wordAt_seedSlots_keyWords hS (by omega)]
  case auxSlots => rw [haux j hj, wordAt_seedSlots_keyWords hS hj]
  case recurrence =>
    simp only [hrk i (by omega), hrk (i + 1) (by omega)]
    exact wordAt_amExpand v.rotA v.rotB hlen hm (by omega)

/-- Settles O17: the length check is the one that fails, and it raises `InvalidKeyLength`. -/
theorem invalidKeyLengthRaised : Obligations.InvalidKeyLengthRaised := by
  intro v key s hfits hlen
  have hends : constructVerdict s.params.addrBits v key = .ends .invalidKeyLength :=
    constructVerdict_ends.mpr (.inr ⟨hfits, hlen, rfl⟩)
  exact ⟨_, (exec_construct v key s).trans (construct_next.mpr (.inr ⟨_, hends, rfl⟩)), State.onlyStatus_raise s _⟩

/-- Settles O18: both commands publish the same list of round keys. -/
theorem constructIsPure : Obligations.ConstructIsPure := by
  intro v key key' s s' hparams hready hready' hbytes
  have hkeys : roundKeys s.params v s.mem key = roundKeys s'.params v s'.mem key' :=
    (roundKeys_congr s.params hbytes).trans (by rw [hparams])
  refine ⟨_, _, exec_construct_of_ready hready, exec_construct_of_ready hready', ?phase, ?vselL, ?status, ?roundKeys⟩
  case phase => rw [State.publish_phase, State.publish_phase]
  case vselL => rw [State.publish_vselL, State.publish_vselL]
  case status => rw [State.publish_status, State.publish_status]
  case roundKeys =>
    intro i hi
    rw [State.publish_rk_lt s v _ i hi, State.publish_rk_lt s' v _ i hi, hkeys]

end Sys2Proof
end

section
/-! Blocks in host memory (20_memory.md R33, R35): a loaded block is what the bytes of its buffer are, a stored block lies
in the bytes of its buffer, and two buffers that hold one block hold the same bytes. -/

namespace Sys2Proof.Machine

/-! ### Words -/

/-- Byte `j` of what MemRead gives is the byte at `addr + j`. -/
theorem Memory.byte_readLE (m : Memory) (addr : Nat) {n j : Nat} (hj : j < n) :
    BitVec.ofNat 8 (m.readLE addr n >>> (8 * j)) = m.read (addr + j) := by
  induction n generalizing addr j with
  | zero => omega
  | succ n ih =>
    have hbyte := (m.read addr).isLt
    rw [Memory.readLE_succ]
    cases j with
    | zero =>
      apply BitVec.eq_of_toNat_eq
      rw [BitVec.toNat_ofNat, Nat.mul_zero, Nat.shiftRight_zero, Nat.add_mul_mod_self_left, Nat.mod_eq_of_lt hbyte,
        Nat.add_zero]
    | succ j =>
      have hdrop : ((m.read addr).toNat + 2 ^ 8 * m.readLE (addr + 1) n) >>> 8 = m.readLE (addr + 1) n := by
        rw [Nat.shiftRight_eq_div_pow]
        omega
      rw [show 8 * (j + 1) = 8 + 8 * j by omega, Nat.shiftRight_add, hdrop, ih (addr + 1) (by omega),
        show addr + 1 + j = addr + (j + 1) by omega]

/-- `n` bytes are an integer below `2 ^ (8n)`. -/
theorem Memory.readLE_lt (m : Memory) (addr n : Nat) : m.readLE addr n < 2 ^ (8 * n) := by
  induction n generalizing addr with
  | zero => exact Nat.one_pos
  | succ n ih =>
    have hbyte := (m.read addr).isLt
    have hrest := ih (addr + 1)
    rw [Memory.readLE_succ, Nat.mul_succ, Nat.pow_add]
    omega

/-- A word of `8n` bits is read from `n` bytes with no masking (R33). -/
theorem toNat_readWord {w n : Nat} (hw : w = 8 * n) (m : Memory) (addr : Nat) :
    (readWord w m addr n).toNat = m.readLE addr n := by
  subst hw
  rw [readWord, maskW, BitVec.toNat_ofNat, Nat.mod_eq_of_lt (Memory.readLE_lt m addr n)]

/-- The word read from `n` bytes lies there. -/
theorem wordBytesAt_readWord {w n : Nat} (hw : w = 8 * n) (m : Memory) (addr : Nat) :
    wordBytesAt m addr n (readWord w m addr n) := by
  intro j hj
  rw [byteOf, toNat_readWord hw, Memory.byte_readLE m addr hj]

/-- The word MemWrite stores lies there. -/
theorem wordBytesAt_writeLE {w : Nat} (m : Memory) (addr n : Nat) (k : BitVec w) :
    wordBytesAt (m.writeLE addr n k.toNat) addr n k :=
  fun _ hj => Memory.read_writeLE_inside m addr k.toNat hj

/-- A word keeps lying where it does when MemWrite stores behind it. -/
theorem wordBytesAt.writeLE_behind {w : Nat} {m : Memory} {addr n : Nat} {k : BitVec w} (h : wordBytesAt m addr n k)
    (n' x : Nat) : wordBytesAt (m.writeLE (addr + n) n' x) addr n k := by
  intro j hj
  rw [Memory.read_writeLE_outside m x (by omega), h j hj]

/-! ### Blocks -/

@[simp] theorem orderHalves_orderHalves {w : Nat} (order : HalfOrder) (p : Pair w) :
    orderHalves order (orderHalves order p) = p := by cases order <;> rfl

/-- A block lies at an address as its two words in buffer order (R35). -/
theorem blockAt_iff {p : Parameters} {v : Variant} {m : Memory} {addr : Nat} {xy : Pair v.w} :
    blockAt p v m addr xy ↔
      wordBytesAt m addr v.n (orderHalves (p.halfOrder v) xy).1 ∧
        wordBytesAt m (addr + v.n) v.n (orderHalves (p.halfOrder v) xy).2 := by
  unfold blockAt
  cases p.halfOrder v <;> rfl

/-- The block loaded from a buffer lies there (43_round_transform.md R122). -/
theorem blockAt_loadBlock (p : Parameters) (v : Variant) (m : Memory) (src : Desc) :
    blockAt p v m src.base (loadBlock p v m src) := by
  rw [blockAt_iff, loadBlock, orderHalves_orderHalves]
  exact ⟨wordBytesAt_readWord v.w_eq m _, wordBytesAt_readWord v.w_eq m _⟩

/-- The block stored to a buffer lies there (43_round_transform.md R123). -/
theorem blockAt_storeBlock (p : Parameters) (v : Variant) (m : Memory) (dst : Desc) (xy : Pair v.w) :
    blockAt p v (storeBlock p v m dst xy) dst.base xy :=
  blockAt_iff.mpr ⟨(wordBytesAt_writeLE m _ _ _).writeLE_behind _ _, wordBytesAt_writeLE _ _ _ _⟩

/-- Two places that hold one block in one order of halves hold the same bytes. -/
theorem read_eq_of_blockAt {p p' : Parameters} {v : Variant} {m m' : Memory} {addr addr' : Nat} {xy : Pair v.w}
    (hblock : blockAt p v m addr xy) (hblock' : blockAt p' v m' addr' xy) (horder : p.halfOrder v = p'.halfOrder v)
    {j : Nat} (hj : j < v.blockBytes) : m.read (addr + j) = m'.read (addr' + j) := by
  obtain ⟨hfirst, hsecond⟩ := blockAt_iff.mp hblock
  obtain ⟨hfirst', hsecond'⟩ := blockAt_iff.mp hblock'
  rw [← horder] at hfirst' hsecond'
  rcases Nat.lt_or_ge j v.n with hlow | hhigh
  · rw [hfirst j hlow, hfirst' j hlow]
  · obtain ⟨i, rfl⟩ := Nat.exists_eq_add_of_le hhigh
    have hi : i < v.n := by
      unfold Variant.blockBytes at hj
      omega
    rw [← Nat.add_assoc, ← Nat.add_assoc, hsecond i hi, hsecond' i hi]

/-- Two source buffers with the same bytes hold the same block, in one order of halves. -/
theorem loadBlock_congr {p p' : Parameters} {v : Variant} {m m' : Memory} {src src' : Desc}
    (horder : p.halfOrder v = p'.halfOrder v)
    (hbytes : ∀ j, j < v.blockBytes → m.read (src.base + j) = m'.read (src'.base + j)) :
    loadBlock p v m src = loadBlock p' v m' src' := by
  have hlow : m.readLE src.base v.n = m'.readLE src'.base v.n :=
    Memory.readLE_congr fun j hj => hbytes j (by unfold Variant.blockBytes; omega)
  have hhigh : m.readLE (src.base + v.n) v.n = m'.readLE (src'.base + v.n) v.n :=
    Memory.readLE_congr fun j hj => by
      rw [Nat.add_assoc, Nat.add_assoc, hbytes (v.n + j) (by unfold Variant.blockBytes; omega)]
  simp only [loadBlock, readWord, hlow, hhigh, horder]

end Sys2Proof.Machine
end

section
/-! The loops of ENCRYPT and DECRYPT round by round (43_round_transform.md R125 to R135): which round runs at each turn, and
which round keys it takes. -/

namespace Sys2Proof.Machine

variable {dir : Dir} {v : Variant}

/-! ### The number of rounds -/

theorem rtTrips_double (h : v.shape = .double) : rtTrips v = v.T / 2 := by simp only [rtTrips, h]

theorem rtTrips_swap (h : v.shape = .swap) : rtTrips v = v.T := by simp only [rtTrips, h]

theorem rtTrips_add (h : v.shape = .add) : rtTrips v = v.T := by simp only [rtTrips, h]

/-! ### The index and the round of each turn -/

/-- The index `I` of the round at turn `j`: turns count it up in ENCRYPT and down from `T-1` in DECRYPT (R140). -/
def roundIndex (dir : Dir) (v : Variant) (j : Nat) : Nat :=
  match dir with
  | .encrypt => j
  | .decrypt =>
    match v.shape with
    | .double      => v.T - 1 - 2 * j
    | .swap | .add => v.T - 1 - j

/-- The indices the model's loops run through are those of the turns, in order. -/
theorem roundIndices_eq_map (dir : Dir) (v : Variant) :
    roundIndices dir v = (List.range (rtTrips v)).map (roundIndex dir v) := by
  cases dir with
  | encrypt =>
    have hindex : roundIndex .encrypt v = id := rfl
    rw [hindex, List.map_id]
    cases hshape : v.shape <;> simp only [roundIndices, rtTrips, hshape]
  | decrypt => cases hshape : v.shape <;> simp [roundIndices, rtTrips, roundIndex, hshape]

variable {rk rk' : Nat → BitVec v.w} {p : Pair v.w} {j : Nat}

/-- The round at turn `j` of a loop. -/
def turn (dir : Dir) (v : Variant) (rk : Nat → BitVec v.w) (j : Nat) (p : Pair v.w) : Pair v.w :=
  roundAt dir v rk (roundIndex dir v j) p

theorem turn_encrypt_double (h : v.shape = .double) :
    turn .encrypt v rk j p = doubleFwd (rk (2 * j)) (rk (2 * j + 1)) p := by
  simp only [turn, roundAt, roundIndex, h]

theorem turn_encrypt_swap (h : v.shape = .swap) : turn .encrypt v rk j p = swapFwd (rk j) p := by
  simp only [turn, roundAt, roundIndex, h]

theorem turn_encrypt_add (h : v.shape = .add) : turn .encrypt v rk j p = addFwd v.rotA v.rotB (rk j) p := by
  simp only [turn, roundAt, roundIndex, h]

theorem turn_decrypt_double (h : v.shape = .double) :
    turn .decrypt v rk j p = doubleInv (rk (v.T - 1 - 2 * j)) (rk (v.T - 1 - 2 * j - 1)) p := by
  simp only [turn, roundAt, roundIndex, h]

theorem turn_decrypt_swap (h : v.shape = .swap) : turn .decrypt v rk j p = swapInv (rk (v.T - 1 - j)) p := by
  simp only [turn, roundAt, roundIndex, h]

theorem turn_decrypt_add (h : v.shape = .add) :
    turn .decrypt v rk j p = addInv v.rotA v.rotB (rk (v.T - 1 - j)) p := by
  simp only [turn, roundAt, roundIndex, h]

/-- A turn takes its round keys from `RK[0 .. T-1]`. -/
theorem turn_congr (hrk : ∀ i, i < v.T → rk i = rk' i) (hj : j < rtTrips v) :
    turn dir v rk j p = turn dir v rk' j p := by
  cases hshape : v.shape with
  | double =>
    rw [rtTrips_double hshape] at hj
    cases dir with
    | encrypt => rw [turn_encrypt_double hshape, turn_encrypt_double hshape, hrk _ (by omega), hrk _ (by omega)]
    | decrypt => rw [turn_decrypt_double hshape, turn_decrypt_double hshape, hrk _ (by omega), hrk _ (by omega)]
  | swap =>
    rw [rtTrips_swap hshape] at hj
    cases dir with
    | encrypt => rw [turn_encrypt_swap hshape, turn_encrypt_swap hshape, hrk _ hj]
    | decrypt => rw [turn_decrypt_swap hshape, turn_decrypt_swap hshape, hrk _ (by omega)]
  | add =>
    rw [rtTrips_add hshape] at hj
    cases dir with
    | encrypt => rw [turn_encrypt_add hshape, turn_encrypt_add hshape, hrk _ hj]
    | decrypt => rw [turn_decrypt_add hshape, turn_decrypt_add hshape, hrk _ (by omega)]

/-! ### The working pair -/

/-- The working pair after `n` turns of a loop. -/
def pairAfter (dir : Dir) (v : Variant) (rk : Nat → BitVec v.w) (p : Pair v.w) : Nat → Pair v.w
  | 0     => p
  | n + 1 => turn dir v rk n (pairAfter dir v rk p n)

/-- The whole loop is all its turns. -/
theorem transform_eq_pairAfter (dir : Dir) (v : Variant) (rk : Nat → BitVec v.w) (p : Pair v.w) :
    transform dir v rk p = pairAfter dir v rk p (rtTrips v) := by
  rw [transform, roundIndices_eq_map, List.foldl_map]
  induction rtTrips v with
  | zero => rfl
  | succ n ih => rw [List.range_succ, List.foldl_append, ih, List.foldl_cons, List.foldl_nil, pairAfter, turn]

/-- The transform depends on the round keys `RK[0 .. T-1]` and on the pair only (R143). -/
theorem transform_congr (hrk : ∀ i, i < v.T → rk i = rk' i) (p : Pair v.w) :
    transform dir v rk p = transform dir v rk' p := by
  have hturns (n : Nat) (hn : n ≤ rtTrips v) : pairAfter dir v rk p n = pairAfter dir v rk' p n := by
    induction n with
    | zero => rfl
    | succ n ih => rw [pairAfter, pairAfter, ih (by omega), turn_congr hrk (by omega)]
  rw [transform_eq_pairAfter, transform_eq_pairAfter, hturns _ (le_refl _)]

end Sys2Proof.Machine
end

section
/-! ENCRYPT, DECRYPT and BLOCKSIZE (43_round_transform.md R120 to R143): what each does where its checks pass, and what a
check that fails ends it with. -/

namespace Sys2Proof

/-- The five block sizes (30_encoding.md R54). -/
theorem Variant.blockBytes_mem (v : Variant) : v.blockBytes ∈ [4, 6, 8, 12, 16] := by cases v <;> decide

/-- A block size fits `RESULT`. -/
theorem Variant.toNat_blockBytes (v : Variant) : (BitVec.ofNat 8 v.blockBytes).toNat = v.blockBytes := by
  cases v <;> rfl

namespace Machine

variable {dir : Dir} {v : Variant} {dst src : Desc} {s : State}

theorem exec_cryptInstr (dir : Dir) (dst src : Desc) (s : State) :
    exec (cryptInstr dir dst src) s = crypt dir dst src s := by cases dir <;> rfl

/-- With a key expanded and buffers that do not wrap, the length check decides (60_exceptions.md R156). -/
theorem cryptVerdict_eq_lengthVerdict (hphase : s.phase = .keyExpanded) (hv : Variant.ofVsel s.vselL = some v)
    (hdst : dst.fits s.params.addrBits = true) (hsrc : src.fits s.params.addrBits = true) :
    cryptVerdict dst src s = lengthVerdict dst src v := by
  simp [cryptVerdict, wraps_eq_not_fits, hdst, hsrc, latchedVerdict_proceed.mpr ⟨hphase, hv⟩]

/-- ENCRYPT and DECRYPT under their conditions store the transformed block. -/
theorem exec_crypt_of_ready (h : s.CryptReady v dst src) :
    exec (cryptInstr dir dst src) s = .next (s.finishStore (cryptMemory dir v dst src s)) :=
  (exec_cryptInstr dir dst src s).trans <| crypt_next.mpr <| .inl
    ⟨v, cryptVerdict_proceed.mpr ⟨h.dstFits, h.srcFits, h.phase, h.variant, h.srcLen, h.dstLen⟩, rfl⟩

/-- The destination then holds the transform of the block loaded from the source (R120, R121). -/
theorem blockAt_cryptMemory (dir : Dir) (v : Variant) (dst src : Desc) (s : State) :
    blockAt s.params v (cryptMemory dir v dst src s) dst.base
      (transform dir v (s.rkWord v.w) (loadBlock s.params v s.mem src)) :=
  blockAt_storeBlock _ _ _ _ _

/-- The working pair of a command after `n` turns of its loop. -/
def cryptPair (dir : Dir) (v : Variant) (src : Desc) (s : State) (n : Nat) : Pair v.w :=
  pairAfter dir v (s.rkWord v.w) (loadBlock s.params v s.mem src) n

theorem cryptPair_succ (dir : Dir) (v : Variant) (src : Desc) (s : State) (n : Nat) :
    cryptPair dir v src s (n + 1) = turn dir v (s.rkWord v.w) n (cryptPair dir v src s n) := rfl

/-- A ready command runs its loop from the block of the source to the block of the destination (R120, R121). -/
theorem exec_crypt_blocks (dir : Dir) {n : Nat} (h : s.CryptReady v dst src) (hn : rtTrips v = n) :
    ∃ t, exec (cryptInstr dir dst src) s = .next t ∧ t.status = .ok ∧
      blockAt s.params v s.mem src.base (cryptPair dir v src s 0) ∧
      blockAt s.params v t.mem dst.base (cryptPair dir v src s n) := by
  refine ⟨_, exec_crypt_of_ready h, State.finishStore_status _ _, blockAt_loadBlock _ _ _ _, ?_⟩
  rw [State.finishStore_mem, cryptPair, ← hn, ← transform_eq_pairAfter]
  exact blockAt_cryptMemory dir v dst src s

/-- Stores that agree on `RK[i]` hold the same word there. -/
theorem State.rkWord_congr {s s' : State} (w : Nat) (i : Fin 72) (h : s.rk[i] = s'.rk[i]) :
    s.rkWord w i = s'.rkWord w i := by
  rw [Fin.getElem_fin, Fin.getElem_fin] at h
  rw [State.rkWord, State.rkWord, Vector.getElem?_eq_getElem i.isLt, Vector.getElem?_eq_getElem i.isLt, h]

end Machine

open Machine

/-! ### ENCRYPT -/

/-- Settles O20: each turn is a forward double-round. -/
theorem encryptDouble : Obligations.EncryptDouble := by
  intro v s dst src hshape hready
  obtain ⟨t, hexec, hok, hsrc, hdst⟩ := exec_crypt_blocks .encrypt hready (rtTrips_double hshape)
  refine ⟨t, cryptPair .encrypt v src s, hexec, hok, hsrc, fun d _ => ?doubleRound, hdst⟩
  case doubleRound =>
    rw [cryptPair_succ, turn_encrypt_double hshape]
    exact ⟨rfl, rfl⟩

/-- Settles O21: each turn is a forward SWAP round. -/
theorem encryptSwap : Obligations.EncryptSwap := by
  intro v s dst src hshape hready
  obtain ⟨t, hexec, hok, hsrc, hdst⟩ := exec_crypt_blocks .encrypt hready (rtTrips_swap hshape)
  refine ⟨t, cryptPair .encrypt v src s, hexec, hok, hsrc, fun i _ => ?round, hdst⟩
  case round => rw [cryptPair_succ, turn_encrypt_swap hshape, swapFwd]

/-- Settles O22: each turn is a forward ADD round. -/
theorem encryptAdd : Obligations.EncryptAdd := by
  intro v s dst src hshape hready
  obtain ⟨t, hexec, hok, hsrc, hdst⟩ := exec_crypt_blocks .encrypt hready (rtTrips_add hshape)
  refine ⟨t, cryptPair .encrypt v src s, hexec, hok, hsrc, fun i _ => ?round, hdst⟩
  case round =>
    rw [cryptPair_succ, turn_encrypt_add hshape]
    exact ⟨rfl, rfl⟩

/-! ### DECRYPT -/

/-- Settles O23: each turn is an inverse double-round. -/
theorem decryptDouble : Obligations.DecryptDouble := by
  intro v s dst src hshape hready
  obtain ⟨t, hexec, hok, hsrc, hdst⟩ := exec_crypt_blocks .decrypt hready (rtTrips_double hshape)
  refine ⟨t, cryptPair .decrypt v src s, hexec, hok, hsrc, fun j _ => ?doubleRound, hdst⟩
  case doubleRound =>
    rw [cryptPair_succ, turn_decrypt_double hshape]
    exact ⟨rfl, rfl⟩

/-- Settles O24: each turn is an inverse SWAP round. -/
theorem decryptSwap : Obligations.DecryptSwap := by
  intro v s dst src hshape hready
  obtain ⟨t, hexec, hok, hsrc, hdst⟩ := exec_crypt_blocks .decrypt hready (rtTrips_swap hshape)
  refine ⟨t, cryptPair .decrypt v src s, hexec, hok, hsrc, fun j _ => ?round, hdst⟩
  case round => rw [cryptPair_succ, turn_decrypt_swap hshape, swapInv]

/-- Settles O25: each turn is an inverse ADD round. -/
theorem decryptAdd : Obligations.DecryptAdd := by
  intro v s dst src hshape hready
  obtain ⟨t, hexec, hok, hsrc, hdst⟩ := exec_crypt_blocks .decrypt hready (rtTrips_add hshape)
  refine ⟨t, cryptPair .decrypt v src s, hexec, hok, hsrc, fun j _ => ?round, hdst⟩
  case round =>
    rw [cryptPair_succ, turn_decrypt_add hshape]
    exact ⟨rfl, rfl⟩

/-! ### Both directions -/

/-- Settles O27: the length check decides, and where it fails it raises `BufferTooShort`. -/
theorem bufferTooShortRaised : Obligations.BufferTooShortRaised := by
  intro dir v dst src s hphase hv hdst hsrc
  rw [exec_cryptInstr, crypt, cryptVerdict_eq_lengthVerdict hphase hv hdst hsrc, lengthVerdict]
  by_cases hshort : src.len < v.blockBytes ∨ dst.len < v.blockBytes
  · rw [if_pos hshort]
    exact ⟨_, rfl, fun _ => State.onlyStatus_raise s _, fun hlong => absurd hshort hlong⟩
  · rw [if_neg hshort]
    exact ⟨_, rfl, fun h => absurd h hshort, fun _ => State.finishStore_status _ _⟩

/-- Settles O29: both commands load the same block, transform it alike and store it in the same order of halves. -/
theorem cryptDependsOnSourceOnly : Obligations.CryptDependsOnSourceOnly := by
  intro dir v s s' dst src dst' src' hready hready' horder hrk hbytes
  refine ⟨_, _, exec_crypt_of_ready hready, exec_crypt_of_ready hready', fun j hj => ?bytes⟩
  case bytes =>
    have hkeys (i : Nat) (hi : i < v.T) : s.rkWord v.w i = s'.rkWord v.w i :=
      State.rkWord_congr v.w ⟨i, Nat.lt_of_lt_of_le hi v.T_le⟩ (hrk _ hi)
    have hstored' := blockAt_cryptMemory dir v dst' src' s'
    rw [← loadBlock_congr horder hbytes, ← transform_congr hkeys] at hstored'
    exact read_eq_of_blockAt (blockAt_cryptMemory dir v dst src s) hstored' horder hj

/-! ### BLOCKSIZE -/

/-- Settles O34: the two outcomes of BLOCKSIZE by the phase, and a word with a stray `VSEL` is not legal. -/
theorem blocksizeAnswers : Obligations.BlocksizeAnswers := by
  refine ⟨decode_blocksize, fun v s hphase hv => ?answer, fun s hphase => ?refusal,
    fun s c rest hhost hop hvsel => ?stray⟩
  case answer =>
    refine ⟨_, execBlocksize_next.mpr (.inl ⟨v, hphase, hv, rfl⟩), rfl, v.toNat_blockBytes, ?_, rfl, rfl, rfl, rfl,
      fun _ => rfl⟩
    rw [State.finishResult_result, v.toNat_blockBytes]
    exact v.blockBytes_mem
  case refusal =>
    exact ⟨_, execBlocksize_next.mpr (.inr ⟨hphase, rfl⟩), State.onlyStatus_raise s _⟩
  case stray =>
    obtain ⟨-, -, -, hstray, hrefused⟩ := reservedEncodingsRefused c
    exact hrefused s rest hhost (hstray (by rw [hop]; decide) hvsel)

end Sys2Proof
end

section
/-! Errors and refusals (60_exceptions.md R150 to R156): which check of a command ends it first, and that a command that
does not end with OK changes STATUS only. -/

namespace Sys2Proof

/-- A reserved `VSEL` code has a size index of 10 or above (30_encoding.md R59 (b)). -/
theorem Variant.sizeIndex_ge_of_ofVsel_eq_none {c : BitVec 5} (h : Variant.ofVsel c = none) : 10 ≤ c.toNat % 16 := by
  by_contra hlt
  obtain ⟨v, hv⟩ := (Variant.exists_ofVsel_iff c).mpr (Nat.lt_of_not_le hlt)
  exact nomatch h.symm.trans hv

namespace Machine

/-! ### The order of the checks -/

variable {dir : Dir} {v : Variant} {key dst src : Desc} {s t : State} {code : Status}

/-- A check of CONSTRUCT that fails raises its code. -/
theorem exec_construct_of_ends (h : constructVerdict s.params.addrBits v key = .ends code) :
    exec (Instr.construct v key) s = .next (s.raise code) :=
  (exec_construct v key s).trans (construct_next.mpr (.inr ⟨code, h, rfl⟩))

/-- A check of ENCRYPT or DECRYPT that fails raises its code. -/
theorem exec_crypt_of_ends (h : cryptVerdict dst src s = .ends code) :
    exec (cryptInstr dir dst src) s = .next (s.raise code) :=
  (exec_cryptInstr dir dst src s).trans (crypt_next.mpr (.inr ⟨code, h, rfl⟩))

/-- A buffer that wraps ends ENCRYPT and DECRYPT before any other check. -/
theorem cryptVerdict_of_not_fits (h : dst.fits s.params.addrBits = false ∨ src.fits s.params.addrBits = false) :
    cryptVerdict dst src s = .ends .illegalCommand := by
  rw [cryptVerdict, wraps_eq_not_fits, wraps_eq_not_fits, if_pos (by simpa using h)]

/-- With buffers that do not wrap, the phase check comes next, whatever the lengths. -/
theorem cryptVerdict_of_unconstructed (hdst : dst.fits s.params.addrBits = true)
    (hsrc : src.fits s.params.addrBits = true) (hphase : s.phase = .unconstructed) :
    cryptVerdict dst src s = .ends .notConstructed := by
  simp [cryptVerdict, wraps_eq_not_fits, hdst, hsrc, latchedVerdict_ends.mpr ⟨hphase, rfl⟩]

/-- The words R156 refuses before its other checks, by a reserved `OP`, a reserved `VSEL` or a stray one, are not legal. -/
theorem not_legal_of_reserved {c : Command}
    (h : c.op.toNat ∈ [0, 5, 6, 7] ∨ (c.op = 1 ∧ Variant.ofVsel c.vsel = none) ∨
      (c.op.toNat ∈ [2, 3, 4] ∧ c.vsel ≠ 0)) : c.cmd.toNat ∉ legalWords := by
  obtain ⟨-, hreservedOp, hreservedVsel, hstrayVsel, -⟩ := reservedEncodingsRefused c
  rcases h with hop | ⟨hop, hvsel⟩ | ⟨hop, hvsel⟩
  · exact hreservedOp hop
  · exact hreservedVsel hop (Variant.sizeIndex_ge_of_ofVsel_eq_none hvsel)
  · exact hstrayVsel hop hvsel

/-! ### What a failure leaves -/

/-- An instruction that does not end with OK has raised its code: its effect would have left OK. -/
theorem onlyStatus_of_exec {i : Instr} (h : exec i s = .next t) (hfail : t.status ≠ .ok) :
    State.OnlyStatus s t t.status := by
  rcases exec_next h with ⟨v, key, -, -, -, rfl⟩ | ⟨dir, dst, src, v, -, -, rfl⟩ | ⟨v, -, -, -, rfl⟩ | ⟨code, -, rfl⟩
  · exact absurd (State.publish_status _ _ _) hfail
  · exact absurd (State.finishStore_status _ _) hfail
  · exact absurd (State.finishResult_status _ _) hfail
  · exact State.onlyStatus_raise s code

/-- All that a step of a command can do: execute the instruction decoded at the port, or refuse the word. -/
theorem step_command_next {c : Command} {rest : List HostMove} (hhost : s.host = .command c :: rest)
    (h : step s = .next t) :
    (∃ i, exec i (State.issue { s with host := rest } (c.atPort s.params.addrBits)) = .next t) ∨
    t = (State.issue { s with host := rest } (c.atPort s.params.addrBits)).raise .illegalCommand := by
  rcases step_next h with ⟨hidle, -⟩ | ⟨move, rest', hhost', hmove⟩
  · exact nomatch hhost.symm.trans hidle
  · cases hhost.symm.trans hhost'
    rcases hmove with ⟨_, _, hstore, -⟩ | ⟨hreset, -⟩ | ⟨_, i, hc, -, hexec⟩ | ⟨_, _, hc, -, ht⟩
    · exact nomatch hstore
    · exact nomatch hreset
    · cases hc
      exact .inl ⟨i, hexec⟩
    · cases hc
      exact .inr ht

end Machine

open Machine

/-- Settles O36: each check is the one that ends its command where those before it pass. -/
theorem checkPriority : Obligations.CheckPriority := by
  refine ⟨fun v key s => ?construct, fun dir dst src s => ⟨?wraps, ?phase, ?lengths⟩, ?blocksize, ?reserved⟩
  case construct =>
    obtain ⟨t, ht⟩ := construct_total v key s
    rw [← exec_construct] at ht
    refine ⟨t, ht, fun hfits => ?_, fun hfits hlen => ?_, fun hfits hlen => ?_⟩
    · cases ht.symm.trans (exec_construct_of_ends (constructVerdict_ends.mpr (.inl ⟨hfits, rfl⟩)))
      exact State.onlyStatus_raise s _
    · cases ht.symm.trans (exec_construct_of_ends (constructVerdict_ends.mpr (.inr ⟨hfits, hlen, rfl⟩)))
      exact State.onlyStatus_raise s _
    · cases ht.symm.trans (exec_construct_of_ready ⟨hfits, hlen⟩)
      exact State.publish_status _ _ _
  case wraps =>
    exact fun h => ⟨_, exec_crypt_of_ends (cryptVerdict_of_not_fits h), State.onlyStatus_raise s _⟩
  case phase =>
    exact fun hdst hsrc hphase =>
      ⟨_, exec_crypt_of_ends (cryptVerdict_of_unconstructed hdst hsrc hphase), State.onlyStatus_raise s _⟩
  case lengths =>
    intro v hdst hsrc hphase hv
    obtain ⟨t, ht, hshort, hlong⟩ := bufferTooShortRaised dir v dst src s hphase hv hdst hsrc
    exact ⟨t, ht, hshort, fun hsrcLen hdstLen => hlong (not_or.mpr ⟨hsrcLen.not_gt, hdstLen.not_gt⟩)⟩
  case blocksize =>
    obtain ⟨-, -, hrefused, -⟩ := blocksizeAnswers
    exact hrefused
  case reserved => exact fun s c rest hhost hreserved => step_of_not_legal hhost (not_legal_of_reserved hreserved)

/-- Settles O37: a failure is a `raise`, of a check or of the decoder, and `raise` writes STATUS only. -/
theorem failureChangesOnlyStatus : Obligations.FailureChangesOnlyStatus := by
  refine ⟨fun i s t hexec hfail => onlyStatus_of_exec hexec hfail, fun s t c rest hhost hstep hfail => ?step⟩
  case step =>
    rcases step_command_next hhost hstep with ⟨i, hexec⟩ | rfl
    · exact (onlyStatus_of_exec hexec hfail).of_issue
    · exact (State.onlyStatus_raise _ _).of_issue

end Sys2Proof
end

section
/-! Buffers that overlap (70_reset_and_hazards.md R174): what ENCRYPT and DECRYPT leave of memory outside their
destination block, and that a source in the same place changes nothing of their result. -/

namespace Sys2Proof

namespace Machine

/-- A stored block leaves every byte outside its `2n` bytes (43_round_transform.md R123). -/
theorem read_storeBlock_outside (p : Parameters) {v : Variant} (m : Memory) {dst : Desc} (xy : Pair v.w) {x : Nat}
    (h : x < dst.base ∨ dst.base + v.blockBytes ≤ x) : (storeBlock p v m dst xy).read x = m.read x := by
  unfold Variant.blockBytes at h
  unfold storeBlock
  rw [Memory.read_writeLE_outside _ _ (by omega), Memory.read_writeLE_outside _ _ (by omega)]

/-- ENCRYPT and DECRYPT leave every byte outside their destination block. -/
theorem read_cryptMemory_outside (dir : Dir) {v : Variant} {dst : Desc} (src : Desc) (s : State) {x : Nat}
    (h : x < dst.base ∨ dst.base + v.blockBytes ≤ x) : (cryptMemory dir v dst src s).read x = s.mem.read x :=
  read_storeBlock_outside _ _ _ h

/-- Commands with one source store the same bytes wherever their destinations are. -/
theorem read_cryptMemory_dst (dir : Dir) (v : Variant) (dst dst' src : Desc) (s : State) {j : Nat}
    (hj : j < v.blockBytes) :
    (cryptMemory dir v dst src s).read (dst.base + j) = (cryptMemory dir v dst' src s).read (dst'.base + j) :=
  read_eq_of_blockAt (blockAt_cryptMemory dir v dst src s) (blockAt_cryptMemory dir v dst' src s) rfl hj

end Machine

open Machine

/-- Settles O30: the block is loaded before anything is stored, and only the destination block is written. -/
theorem inPlaceEqualsDisjoint : Obligations.InPlaceEqualsDisjoint := by
  intro dir v s buf dst hinPlace hdisjoint hapart
  refine ⟨_, _, exec_crypt_of_ready hinPlace, exec_crypt_of_ready hdisjoint, fun j hj => ?sameBlock,
    fun j hj => ?tailKept, fun j hj => ?sourceKept⟩
  case sameBlock => exact read_cryptMemory_dst dir v buf dst buf s hj
  case tailKept => exact read_cryptMemory_outside dir buf s (.inr (Nat.add_le_add_left hj _))
  case sourceKept => exact read_cryptMemory_outside dir buf s (by omega)

end Sys2Proof
end

section
/-! Decoding (30_encoding.md R50 to R61): what an accepted command says, field by field, the round trip with the encoder,
and the reserved words by their names. -/

namespace Sys2Proof

open Machine

/-! ### The encoder -/

/-- A `VSEL` code names the variant whose code it is, and no other (R52). -/
theorem Variant.ofVsel_eq_some_iff {code : BitVec 5} {v : Variant} : Variant.ofVsel code = some v ↔ v.vsel = code := by
  have named : ∀ code : BitVec 5, ∀ v ∈ Variant.ofVsel code, v.vsel = code := by decide
  refine ⟨named code v, ?_⟩
  rintro rfl
  exact v.ofVsel_vsel

theorem encode_construct (v : Variant) (key : Desc) :
    encode (Instr.construct v key) = ⟨(0b001 : BitVec 3) ++ v.vsel, key, Desc.zero⟩ := by
  simp only [encode, operation_construct]

/-- Decoding gives an encoded instruction back, by the four operations. -/
theorem decode_encode (i : Instr) : decode (encode i) = .ok i := by
  rcases instr_cases i with ⟨v, key, rfl⟩ | ⟨dst, src, rfl⟩ | ⟨dst, src, rfl⟩ | rfl
  · rw [encode_construct, decode_construct]
  · exact decode_encrypt dst src
  · exact decode_decrypt dst src
  · exact decode_blocksize Desc.zero Desc.zero

/-! ### The decoder, both ways -/

/-- A command word is its two fields, `OP` above `VSEL` (R50). -/
theorem Command.fields_append_eq_cmd {c : Command} {op : BitVec 3} {vsel : BitVec 5} (hop : c.op = op)
    (hvsel : c.vsel = vsel) : op ++ vsel = c.cmd := by
  have split : ∀ word : BitVec 8, word.extractLsb' 5 3 ++ word.extractLsb' 0 5 = word := by decide
  rw [← hop, ← hvsel]
  exact split c.cmd

/-- Outside CONSTRUCT only a zero `VSEL` field decodes, to the operation's instruction (R59 (c)). -/
theorem decodeNoVsel_eq_ok_iff {c : Command} {i j : Instr} : decodeNoVsel c i = .ok j ↔ c.vsel = 0 ∧ j = i := by
  unfold decodeNoVsel
  split <;> simp_all [eq_comm]

/-- All that the decoder accepts: the instruction of each `OP` field, with the descriptors it uses (R51, R53). -/
theorem decode_eq_ok {c : Command} {i : Instr} (h : decode c = .ok i) :
    (∃ v, c.op = 1 ∧ c.vsel = v.vsel ∧ i = Instr.construct v c.a) ∨
    (c.op = 2 ∧ c.vsel = 0 ∧ i = .encrypt c.a c.b) ∨ (c.op = 3 ∧ c.vsel = 0 ∧ i = .decrypt c.a c.b) ∨
    (c.op = 4 ∧ c.vsel = 0 ∧ i = .blocksize) := by
  unfold decode at h
  split at h
  · next hop =>
    split at h
    · next v hv =>
      cases h
      exact .inl ⟨v, BitVec.eq_of_toNat_eq hop, (Variant.ofVsel_eq_some_iff.mp hv).symm, rfl⟩
    · exact nomatch h
  · next hop => exact .inr (.inl ⟨BitVec.eq_of_toNat_eq hop, decodeNoVsel_eq_ok_iff.mp h⟩)
  · next hop => exact .inr (.inr (.inl ⟨BitVec.eq_of_toNat_eq hop, decodeNoVsel_eq_ok_iff.mp h⟩))
  · next hop => exact .inr (.inr (.inr ⟨BitVec.eq_of_toNat_eq hop, decodeNoVsel_eq_ok_iff.mp h⟩))
  · exact nomatch h

/-- A command that decodes has the word that its instruction is encoded with, and the descriptors it uses. -/
theorem encode_of_decode {c : Command} {i : Instr} (h : decode c = .ok i) :
    (encode i).cmd = c.cmd ∧ (isConstruct i = true → (encode i).a = c.a) ∧
    (∀ dst src, i = .encrypt dst src ∨ i = .decrypt dst src → (encode i).a = c.a ∧ (encode i).b = c.b) := by
  rcases decode_eq_ok h with ⟨v, hop, hvsel, rfl⟩ | ⟨hop, hvsel, rfl⟩ | ⟨hop, hvsel, rfl⟩ | ⟨hop, hvsel, rfl⟩
  · rw [encode_construct]
    refine ⟨Command.fields_append_eq_cmd hop hvsel, fun _ => rfl, fun dst src hcrypt => ?_⟩
    rcases hcrypt with hi | hi <;> exact nomatch (operation_construct v c.a).symm.trans (congrArg Instr.operation hi)
  · exact ⟨Command.fields_append_eq_cmd hop hvsel, nofun, fun _ _ _ => ⟨rfl, rfl⟩⟩
  · exact ⟨Command.fields_append_eq_cmd hop hvsel, nofun, fun _ _ _ => ⟨rfl, rfl⟩⟩
  · exact ⟨Command.fields_append_eq_cmd hop hvsel, nofun, by rintro _ _ (hi | hi) <;> exact nomatch hi⟩

/-! ### The reserved words -/

theorem decode_reservedOp {c : Command} (hop : c.op.toNat ∈ [0, 5, 6, 7]) : decode c = .error .reservedOp := by
  simp only [List.mem_cons, List.not_mem_nil, or_false] at hop
  rcases hop with hop | hop | hop | hop <;> simp only [decode, hop]

theorem decode_reservedVsel {c : Command} (hop : c.op = 1) (hvsel : Variant.ofVsel c.vsel = none) :
    decode c = .error .reservedVsel := by
  have hone : c.op.toNat = 1 := congrArg BitVec.toNat hop
  simp only [decode, hone, hvsel]

theorem decode_strayVsel {c : Command} (hop : c.op.toNat ∈ [2, 3, 4]) (hvsel : c.vsel ≠ 0) :
    decode c = .error .strayVsel := by
  simp only [List.mem_cons, List.not_mem_nil, or_false] at hop
  rcases hop with hop | hop | hop <;> simp only [decode, hop, decodeNoVsel, if_neg hvsel]

/-- Settles O1: the encoder's word carries the fields that the decoder reads, and a command that decodes has the fields
of its instruction's word. -/
theorem decodeEncodeRoundTrip : Obligations.DecodeEncodeRoundTrip :=
  ⟨decode_encode, fun _ _ h => encode_of_decode h⟩

/-- Settles O2: the legal words are those of their instructions, the reserved ones by their fields. -/
theorem specWordsDecode : Obligations.SpecWordsDecode := fun a b =>
  ⟨decode_construct .bm32_64 a b, decode_construct .bm64_128 a b, decode_construct .bm128_256 a b,
    decode_construct .am32_64 a b, decode_construct .am128_256 a b, decode_encrypt a b, decode_decrypt a b,
    decode_blocksize a b, decode_reservedOp (by simp [Command.op]), decode_reservedVsel (by simp [Command.op]) (by simp [Command.vsel, Variant.ofVsel]),
    decode_strayVsel (by simp [Command.op]) (by simp [Command.vsel])⟩

/-- Settles O4: the host's next move is taken from the list, passes the port and runs as the command it decodes to. -/
theorem stepRunsDecodedCommand : Obligations.StepRunsDecodedCommand := by
  intro s c rest i hhost hdecode
  simp only [step, hhost, HostMove.atPort, perform, runCommand, hdecode]

end Sys2Proof
end

section
/-! The invariant of the machine and the runs of any length (10_state.md R10 to R13, 70_reset_and_hazards.md R183): every
command that ends keeps it, so does every move of the host, and from a state that meets it every step has a next state. -/

namespace Sys2Proof

/-- A block size is a value that `RESULT` may hold. -/
theorem Variant.blockBytes_resultWell (v : Variant) :
    (BitVec.ofNat 8 v.blockBytes).toNat ∈ [0, 4, 6, 8, 12, 16] := by
  rw [v.toNat_blockBytes]
  exact List.mem_cons_of_mem _ v.blockBytes_mem

namespace Machine

variable {s t : State} {v : Variant} {key dst src : Desc} {dir : Dir}

/-! ### What a command that ends leaves of the invariant -/

/-- The operands that a command leaves are free numbers of `ADDR_BITS` bits (log 9). -/
theorem State.operandsWell_endCommand (s : State) : s.endCommand.operandsWell := by
  obtain ⟨haBase, haLen⟩ := Desc.atPort_lt s.params.addrBits ⟨Config.freeNat s.fresh 0, Config.freeNat s.fresh 1⟩
  obtain ⟨hbBase, hbLen⟩ := Desc.atPort_lt s.params.addrBits ⟨Config.freeNat s.fresh 2, Config.freeNat s.fresh 3⟩
  exact ⟨haBase, haLen, hbBase, hbLen⟩

/-- The command port and the list of moves are no concern of the invariant but for the operands. -/
theorem State.Inv.issue {c : Command} {rest : List HostMove} (h : s.Inv) :
    (State.issue { s with host := rest } (c.atPort s.params.addrBits)).Inv := by
  obtain ⟨haBase, haLen⟩ := Desc.atPort_lt s.params.addrBits c.a
  obtain ⟨hbBase, hbLen⟩ := Desc.atPort_lt s.params.addrBits c.b
  exact ⟨h.mem, h.latched, h.result, haBase, haLen, hbBase, hbLen⟩

theorem State.Inv.raise (h : s.Inv) (code : Status) : (s.raise code).Inv :=
  ⟨h.mem, h.latched, h.result, State.operandsWell_endCommand _⟩

/-- CONSTRUCT latches a legal code and round keys of its width. -/
theorem State.Inv.publish (h : s.Inv) (v : Variant) (p : Parameters) (m : Memory) (key : Desc) :
    (s.publish v (roundKeys p v m key)).Inv :=
  ⟨h.mem, fun _ => ⟨v, v.ofVsel_vsel, State.publish_rkFits s v p m key⟩, h.result, State.operandsWell_endCommand _⟩

/-- The first `2n` bytes of a destination that passed its checks lie inside the address space. -/
theorem dst_block_le (hfits : dst.fits s.params.addrBits = true) (hlen : v.blockBytes ≤ dst.len) :
    dst.base + v.blockBytes ≤ 2 ^ s.params.addrBits := by
  have hwhole : dst.base + dst.len ≤ 2 ^ s.params.addrBits := of_decide_eq_true hfits
  omega

/-- ENCRYPT and DECRYPT store a block inside the address space. -/
theorem State.Inv.finishStore (h : s.Inv) (hv : cryptVerdict dst src s = .proceed v) :
    (s.finishStore (cryptMemory dir v dst src s)).Inv := by
  obtain ⟨hfits, -, -, -, -, hlen⟩ := cryptVerdict_proceed.mp hv
  exact ⟨wf_storeBlock _ (dst_block_le hfits hlen) h.mem, h.latched, h.result, State.operandsWell_endCommand _⟩

theorem State.Inv.finishResult (h : s.Inv) (v : Variant) : (s.finishResult (BitVec.ofNat 8 v.blockBytes)).Inv :=
  ⟨h.mem, h.latched, v.blockBytes_resultWell, State.operandsWell_endCommand _⟩

/-- A reset leaves `PHASE` 0, with which nothing is latched. -/
theorem State.Inv.afterReset {rest : List HostMove} (h : s.Inv) : (State.afterReset { s with host := rest }).Inv :=
  ⟨h.mem, nofun, List.mem_cons_self, State.operandsWell_endCommand _⟩

/-- The host stores inside the address space. -/
theorem State.Inv.hostStore {rest : List HostMove} (h : s.Inv) (addr : Nat) (byte : Byte) :
    (State.hostStore { s with host := rest } (addr % 2 ^ s.params.addrBits) byte).Inv :=
  ⟨Memory.wf_write byte (Nat.mod_lt _ (Nat.two_pow_pos _)) h.mem, h.latched, h.result, h.operand⟩

/-- Every instruction keeps the invariant. -/
theorem inv_of_exec {i : Instr} (h : s.Inv) (hexec : exec i s = .next t) : t.Inv := by
  rcases exec_next hexec with ⟨v, key, -, -, -, rfl⟩ | ⟨_, _, _, v, -, hv, rfl⟩ | ⟨v, -, -, -, rfl⟩ | ⟨code, -, rfl⟩
  · exact h.publish v _ _ key
  · exact h.finishStore hv
  · exact h.finishResult v
  · exact h.raise code

/-! ### Where there is a next state -/

theorem conclude_total {verdict : Verdict} (effect : Variant → State) (s : State)
    (h : ∀ r, verdict ≠ .stuck r) : ∃ t, conclude verdict effect s = .next t := by
  cases verdict with
  | proceed v => exact ⟨_, rfl⟩
  | ends code => exact ⟨_, rfl⟩
  | stuck r => exact absurd rfl (h r)

theorem latchedVerdict_ne_stuck (h : s.latchedWell) (r : Fault) : latchedVerdict s ≠ .stuck r := by
  intro hstuck
  obtain ⟨hphase, hnone⟩ := latchedVerdict_stuck.mp hstuck
  obtain ⟨v, hv, -⟩ := h hphase
  exact nomatch hnone.symm.trans hv

/-- The checks of ENCRYPT and DECRYPT stop only where the phase check does. -/
theorem cryptVerdict_ne_stuck (h : s.latchedWell) (r : Fault) : cryptVerdict dst src s ≠ .stuck r := by
  unfold cryptVerdict
  split
  · exact nofun
  · split
    · unfold lengthVerdict
      split <;> exact nofun
    · exact latchedVerdict_ne_stuck h r

/-- With a legal code latched every instruction answers a next state. -/
theorem exec_total (i : Instr) (h : s.latchedWell) : ∃ t, exec i s = .next t := by
  rcases instr_cases i with ⟨v, key, rfl⟩ | ⟨dst, src, rfl⟩ | ⟨dst, src, rfl⟩ | rfl
  · rw [exec_construct]
    exact construct_total v key s
  · exact conclude_total _ s (cryptVerdict_ne_stuck h)
  · exact conclude_total _ s (cryptVerdict_ne_stuck h)
  · exact conclude_total _ s (latchedVerdict_ne_stuck h)

/-- With a legal code latched every move of the host has a next state. -/
theorem step_total (h : s.latchedWell) : ∃ t, step s = .next t := by
  unfold step
  split
  · exact ⟨_, rfl⟩
  · next move rest _ =>
    cases move with
    | store addr byte => exact ⟨_, rfl⟩
    | reset => exact ⟨_, rfl⟩
    | command c =>
      simp only [HostMove.atPort, perform, runCommand]
      split
      · exact exec_total _ h
      · exact ⟨_, rfl⟩

theorem run_succ_of_step (h : step s = .next t) (k : Nat) :
    Host.Core.run core (k + 1) s = Host.Core.run core k t := by
  have hcore : core.step s = .next t := h
  simp only [Host.Core.run, hcore]

end Machine

open Machine

/-- Settles O41: nothing is latched, and the zeros are in range. -/
theorem resetMeetsInvariant : Obligations.ResetMeetsInvariant :=
  ⟨rfl, nofun, by decide, by decide⟩

/-- Settles O42: an idle step changes nothing, and every move of the host keeps the invariant. -/
theorem stepKeepsInvariant : Obligations.StepKeepsInvariant := by
  intro s t h hstep
  rcases step_next hstep with ⟨-, rfl⟩ | ⟨move, rest, -, hmove⟩
  · exact h
  · rcases hmove with ⟨addr, byte, -, rfl⟩ | ⟨-, rfl⟩ | ⟨c, i, -, -, hexec⟩ | ⟨c, e, -, -, rfl⟩
    · exact h.hostStore addr byte
    · exact h.afterReset
    · exact inv_of_exec h.issue hexec
    · exact h.issue.raise .illegalCommand

/-- Settles O43: by induction on the length of the run, since a step answers a state that meets the invariant again. -/
theorem runsNeverStop : Obligations.RunsNeverStop := by
  intro s h k
  induction k generalizing s with
  | zero => exact ⟨s, rfl⟩
  | succ k ih =>
    obtain ⟨t, hstep⟩ := step_total h.latched
    obtain ⟨u, hrun⟩ := ih t (stepKeepsInvariant s t h hstep)
    exact ⟨u, (run_succ_of_step hstep k).trans hrun⟩

end Sys2Proof
end

section
/-! What writes what (10_state.md R23, 70_reset_and_hazards.md R170, R176): the frame of every command, the host's moves, and
the one kind of step that can change each register and each byte. -/

namespace Sys2Proof

namespace Machine

variable {s t : State} {v : Variant} {key dst src : Desc} {dir : Dir} {i : Instr}

/-! ### A step by what it writes -/

/-- The constructed cipher, `PHASE`, `VSEL_L` and `RK`, is what it was (R23). -/
structure State.KeepsCipher (s t : State) : Prop where
  rk    : t.rk = s.rk
  vselL : t.vselL = s.vselL
  phase : t.phase = s.phase

/-- An ENCRYPT or DECRYPT of the law `exec_next` as the instruction of its direction. -/
theorem eq_cryptInstr (h : i = .encrypt dst src ∧ dir = .encrypt ∨ i = .decrypt dst src ∧ dir = .decrypt) :
    i = cryptInstr dir dst src := by
  rcases h with ⟨rfl, rfl⟩ | ⟨rfl, rfl⟩ <;> rfl

/-- What a step writes beside STATUS, by the move that writes it. -/
theorem step_writes (h : step s = .next t) :
    (∃ rest, s.host = .reset :: rest ∧ t = State.afterReset { s with host := rest }) ∨
    (∃ addr byte rest, s.host = .store addr byte :: rest ∧
      t = State.hostStore { s with host := rest } (addr % 2 ^ s.params.addrBits) byte) ∨
    (∃ v key, s.aboutTo (Instr.construct v key) ∧ t.status = .ok ∧ t.phase = .keyExpanded ∧ t.result = s.result ∧
      t.mem = s.mem) ∨
    (∃ dir dst src v, s.aboutTo (cryptInstr dir dst src) ∧ Variant.ofVsel s.vselL = some v ∧ s.KeepsCipher t ∧
      t.result = s.result ∧ ∀ x, x < dst.base ∨ dst.base + v.blockBytes ≤ x → t.mem.read x = s.mem.read x) ∨
    (s.aboutTo .blocksize ∧ s.KeepsCipher t ∧ t.mem = s.mem) ∨
    (s.KeepsCipher t ∧ t.result = s.result ∧ t.mem = s.mem) := by
  rcases step_next h with ⟨-, rfl⟩ | ⟨move, rest, hhost, hmove⟩
  · exact .inr (.inr (.inr (.inr (.inr ⟨⟨rfl, rfl, rfl⟩, rfl, rfl⟩))))
  · rcases hmove with ⟨addr, byte, rfl, rfl⟩ | ⟨rfl, rfl⟩ | ⟨c, i, rfl, hdecode, hexec⟩ | ⟨c, e, rfl, -, rfl⟩
    · exact .inr (.inl ⟨addr, byte, rest, hhost, rfl⟩)
    · exact .inl ⟨rest, hhost, rfl⟩
    · have habout : s.aboutTo i := ⟨c, rest, hhost, hdecode⟩
      rcases exec_next hexec with
        ⟨v, key, rfl, -, -, rfl⟩ | ⟨dir, dst, src, v, hi, hv, rfl⟩ | ⟨v, rfl, -, -, rfl⟩ | ⟨code, -, rfl⟩
      · exact .inr (.inr (.inl ⟨v, key, habout, rfl, rfl, rfl, rfl⟩))
      · obtain ⟨-, -, -, hlatched, -, -⟩ := cryptVerdict_proceed.mp hv
        exact .inr (.inr (.inr (.inl ⟨dir, dst, src, v, eq_cryptInstr hi ▸ habout, hlatched, ⟨rfl, rfl, rfl⟩, rfl,
          fun x hx => read_cryptMemory_outside dir src _ hx⟩)))
      · exact .inr (.inr (.inr (.inr (.inl ⟨habout, ⟨rfl, rfl, rfl⟩, rfl⟩))))
      · exact .inr (.inr (.inr (.inr (.inr ⟨⟨rfl, rfl, rfl⟩, rfl, rfl⟩))))
    · exact .inr (.inr (.inr (.inr (.inr ⟨⟨rfl, rfl, rfl⟩, rfl, rfl⟩))))

/-- Who writes the constructed cipher: a reset, a CONSTRUCT that succeeds, nobody else (R11, R176). -/
theorem step_writes_cipher (h : step s = .next t) :
    (∃ rest, s.host = .reset :: rest ∧ t.phase = .unconstructed) ∨
    (∃ v key, s.aboutTo (Instr.construct v key) ∧ t.status = .ok ∧ t.phase = .keyExpanded) ∨ s.KeepsCipher t := by
  rcases step_writes h with ⟨rest, hhost, rfl⟩ | ⟨_, _, _, -, rfl⟩ | ⟨v, key, habout, hok, hphase, -⟩ |
    ⟨_, _, _, _, -, -, hkept, -⟩ | ⟨-, hkept, -⟩ | ⟨hkept, -⟩
  · exact .inl ⟨rest, hhost, rfl⟩
  · exact .inr (.inr ⟨rfl, rfl, rfl⟩)
  · exact .inr (.inl ⟨v, key, habout, hok, hphase⟩)
  · exact .inr (.inr hkept)
  · exact .inr (.inr hkept)
  · exact .inr (.inr hkept)

/-! ### The parameters -/

theorem exec_params (h : exec i s = .next t) : t.params = s.params := by
  rcases exec_next h with ⟨_, _, -, -, -, rfl⟩ | ⟨_, _, _, _, -, -, rfl⟩ | ⟨_, -, -, -, rfl⟩ | ⟨_, -, rfl⟩ <;> rfl

/-! ### The causes of a failure -/

theorem isConstruct_construct (v : Variant) (key : Desc) : isConstruct (Instr.construct v key) = true := by
  simp only [isConstruct, operation_construct]

theorem isConstruct_cryptInstr (dir : Dir) (dst src : Desc) : isConstruct (cryptInstr dir dst src) = false := by
  cases dir <;> rfl

theorem wellFormed_construct (addrBits : Nat) (v : Variant) (key : Desc) :
    (Instr.construct v key).wellFormed addrBits = key.fits addrBits := by cases v <;> rfl

theorem wellFormed_cryptInstr (addrBits : Nat) (dir : Dir) (dst src : Desc) :
    (cryptInstr dir dst src).wellFormed addrBits = (dst.fits addrBits && src.fits addrBits) := by cases dir <;> rfl

/-- Each code with the one thing that can cause it (60_exceptions.md R151). -/
inductive FailureCause (i : Instr) (s : State) : Status → Prop where
  | wraps  : i.wellFormed s.params.addrBits = false → FailureCause i s .illegalCommand
  | length : isConstruct i = true → FailureCause i s .invalidKeyLength
  | phase  : isConstruct i = false → s.phase = .unconstructed → FailureCause i s .notConstructed
  | short  (dir : Dir) (dst src : Desc) : i = cryptInstr dir dst src → FailureCause i s .bufferTooShort

theorem failureCause_of_construct {code : Status} (h : constructVerdict s.params.addrBits v key = .ends code) :
    FailureCause (Instr.construct v key) s code := by
  rcases constructVerdict_ends.mp h with ⟨hfits, rfl⟩ | ⟨-, -, rfl⟩
  · exact .wraps ((wellFormed_construct _ v key).trans hfits)
  · exact .length (isConstruct_construct v key)

theorem failureCause_of_crypt {code : Status} (h : cryptVerdict dst src s = .ends code) :
    FailureCause (cryptInstr dir dst src) s code := by
  rcases cryptVerdict_ends h with ⟨hfits, rfl⟩ | ⟨hphase, rfl⟩ | ⟨_, -, -, rfl⟩
  · exact .wraps ((wellFormed_cryptInstr _ dir dst src).trans (Bool.and_eq_false_iff.mpr hfits))
  · exact .phase (isConstruct_cryptInstr dir dst src) hphase
  · exact .short dir dst src rfl

/-- An instruction ends with OK or with a code that has its cause. -/
theorem status_of_exec (h : exec i s = .next t) : t.status = .ok ∨ FailureCause i s t.status := by
  have crypts (dir : Dir) {dst src : Desc} (h : exec (cryptInstr dir dst src) s = .next t) :
      t.status = .ok ∨ FailureCause (cryptInstr dir dst src) s t.status := by
    rw [exec_cryptInstr] at h
    rcases crypt_next.mp h with ⟨v, -, rfl⟩ | ⟨code, hends, rfl⟩
    · exact .inl rfl
    · exact .inr (failureCause_of_crypt hends)
  rcases instr_cases i with ⟨v, key, rfl⟩ | ⟨dst, src, rfl⟩ | ⟨dst, src, rfl⟩ | rfl
  · rw [exec_construct] at h
    rcases construct_next.mp h with ⟨-, -, rfl⟩ | ⟨code, hends, rfl⟩
    · exact .inl rfl
    · exact .inr (failureCause_of_construct hends)
  · exact crypts .encrypt h
  · exact crypts .decrypt h
  · rcases execBlocksize_next.mp h with ⟨v, -, -, rfl⟩ | ⟨hphase, rfl⟩
    · exact .inl rfl
    · exact .inr (.phase rfl hphase)

end Machine

open Machine

/-! ### Frames of the commands -/

/-- Settles O19: publishing and raising leave `RESULT`, memory and the host's moves, and raising leaves the cipher. -/
theorem constructFrame : Obligations.ConstructFrame := by
  intro v key s t h
  rw [exec_construct] at h
  rcases construct_next.mp h with ⟨-, -, rfl⟩ | ⟨code, -, rfl⟩
  · exact ⟨rfl, fun _ => rfl, rfl, fun hfail => absurd rfl hfail⟩
  · exact ⟨rfl, fun _ => rfl, rfl, fun _ => ⟨rfl, rfl, rfl⟩⟩

/-- Settles O26: storing a block writes its `2n` bytes, and raising writes no byte. -/
theorem cryptFrame : Obligations.CryptFrame := by
  intro dir dst src s t h
  rw [exec_cryptInstr] at h
  rcases crypt_next.mp h with ⟨v, hv, rfl⟩ | ⟨code, -, rfl⟩
  · obtain ⟨-, -, -, hlatched, -, -⟩ := cryptVerdict_proceed.mp hv
    exact ⟨rfl, rfl, rfl, rfl, rfl, fun x hx => read_cryptMemory_outside dir src s (hx v hlatched)⟩
  · exact ⟨rfl, rfl, rfl, rfl, rfl, fun _ _ => rfl⟩

/-- Settles O35: answering writes `RESULT` and STATUS, raising STATUS only. -/
theorem blocksizeFrame : Obligations.BlocksizeFrame := by
  intro s t h
  rcases execBlocksize_next.mp h with ⟨v, -, -, rfl⟩ | ⟨-, rfl⟩
  · exact ⟨rfl, rfl, rfl, rfl, fun _ => rfl, fun hfail => absurd rfl hfail⟩
  · exact ⟨rfl, rfl, rfl, rfl, fun _ => rfl, fun _ => rfl⟩

/-- Settles O38: the phase check is stuck, and nothing before it ends the command. -/
theorem reservedLatchStops : Obligations.ReservedLatchStops := by
  intro s hphase hreserved
  have hstuck : latchedVerdict s = .stuck .reservedVariantLatched := latchedVerdict_stuck.mpr ⟨hphase, hreserved⟩
  refine ⟨?blocksize, fun dir dst src hdst hsrc => ?crypt⟩
  case blocksize => rw [exec_blocksize, execBlocksize, blocksizeVerdict, hstuck, conclude]
  case crypt =>
    have hverdict : cryptVerdict dst src s = .stuck .reservedVariantLatched := by
      simp [cryptVerdict, wraps_eq_not_fits, hdst, hsrc, hstuck]
    rw [exec_cryptInstr, crypt, hverdict, conclude]

/-- Settles O39: every code has its cause, and the codes are numbered in order. -/
theorem statusCauses : Obligations.StatusCauses := by
  refine ⟨fun i s t h => ?causes, rfl, rfl⟩
  case causes =>
    rcases status_of_exec h with hok | hcause
    · simp [hok]
    · generalize t.status = code at hcause
      cases hcause with
      | wraps hill => exact ⟨nofun, nofun, nofun, fun _ => hill⟩
      | length hconstruct => exact ⟨fun _ => hconstruct, nofun, nofun, nofun⟩
      | phase hother hphase => exact ⟨nofun, nofun, fun _ => ⟨hother, hphase⟩, nofun⟩
      | short dir dst src hi => exact ⟨nofun, fun _ => ⟨dir, dst, src, hi⟩, nofun, nofun⟩

/-! ### The host's moves -/

/-- Settles O40: reset writes the three registers and no byte of memory. -/
theorem resetLeaves : Obligations.ResetLeaves := by
  refine ⟨⟨rfl, rfl, rfl, rfl⟩, fun s rest hhost => ?step⟩
  case step =>
    have hstep : step s = .next (State.afterReset { s with host := rest }) := by
      simp only [step, hhost, HostMove.atPort, perform]
    exact ⟨_, hstep, rfl, rfl, rfl, rfl, fun _ => rfl⟩

/-- Settles O48: an idle step is no move, and a store is one write of memory. -/
theorem hostMoves : Obligations.HostMoves := by
  refine ⟨fun s hidle => ?idle, fun s addr byte rest hhost => ?store⟩
  case idle => simp only [step, hidle]
  case store =>
    have hstep : step s = .next (State.hostStore { s with host := rest } (addr % 2 ^ s.params.addrBits) byte) := by
      simp only [step, hhost, HostMove.atPort, perform]
    exact ⟨_, hstep, Memory.read_write_same _ _ _, fun x hx => Memory.read_write_other _ _ _ _ hx, rfl, rfl, rfl, rfl, rfl,
      rfl, rfl, rfl, rfl⟩

/-! ### The whole machine -/

/-- Settles O44: a step that keeps the cipher changes none of the three. -/
theorem onlyConstructWritesRoundKeys : Obligations.OnlyConstructWritesRoundKeys := by
  intro s t hstep hchanged
  rcases step_writes_cipher hstep with ⟨rest, hreset, -⟩ | ⟨v, key, habout, -⟩ | hkept
  · exact .inl ⟨rest, hreset⟩
  · exact .inr ⟨_, habout, isConstruct_construct v key⟩
  · rcases hchanged with hrk | hvselL | hphase
    · exact absurd hkept.rk hrk
    · exact absurd hkept.vselL hvselL
    · exact absurd hkept.phase hphase

/-- Settles O45: of the two steps that write `PHASE`, reset leaves 0 and CONSTRUCT leaves 1. -/
theorem phaseLifeCycle : Obligations.PhaseLifeCycle := by
  intro s t hstep
  rcases step_writes_cipher hstep with ⟨rest, hreset, hphase⟩ | ⟨v, key, habout, hok, hphase⟩ | hkept
  · exact ⟨fun _ _ => ⟨rest, hreset⟩, fun _ hset => absurd (hphase.symm.trans hset) nofun⟩
  · exact ⟨fun _ hunset => absurd (hphase.symm.trans hunset) nofun, fun _ _ => ⟨hok, v, key, habout⟩⟩
  · refine ⟨fun hset hunset => ?_, fun hunset hset => ?_⟩
    · exact nomatch hset.symm.trans (hkept.phase.symm.trans hunset)
    · exact nomatch hunset.symm.trans (hkept.phase.symm.trans hset)

/-- Settles O46: only a store of the host and a stored block write memory, each at its own addresses. -/
theorem whoWritesMemory : Obligations.WhoWritesMemory := by
  intro s t x hstep hchanged
  rcases step_writes hstep with ⟨_, -, rfl⟩ | ⟨addr, byte, rest, hhost, rfl⟩ | ⟨_, _, -, -, -, -, hmem⟩ |
    ⟨dir, dst, src, v, habout, hlatched, -, -, houtside⟩ | ⟨-, -, hmem⟩ | ⟨-, -, hmem⟩
  · exact absurd rfl hchanged
  · refine .inl ⟨addr, byte, rest, hhost, ?_⟩
    by_contra hx
    exact hchanged (Memory.read_write_other _ _ _ _ hx)
  · exact absurd (by rw [hmem]) hchanged
  · refine .inr ⟨dir, dst, src, v, habout, hlatched, ?_⟩
    by_contra hx
    exact hchanged (houtside x (by omega))
  · exact absurd (by rw [hmem]) hchanged
  · exact absurd (by rw [hmem]) hchanged

/-- Settles O47: every step but a reset and a BLOCKSIZE leaves `RESULT`. -/
theorem onlyBlocksizeWritesResult : Obligations.OnlyBlocksizeWritesResult := by
  intro s t hstep hchanged
  rcases step_writes hstep with ⟨rest, hhost, -⟩ | ⟨_, _, _, -, rfl⟩ | ⟨_, _, -, -, -, hresult, -⟩ |
    ⟨_, _, _, _, -, -, -, hresult, -⟩ | ⟨habout, -⟩ | ⟨-, hresult, -⟩
  · exact .inl ⟨rest, hhost⟩
  · exact absurd rfl hchanged
  · exact absurd hresult hchanged
  · exact absurd hresult hchanged
  · exact .inr habout
  · exact absurd hresult hchanged

/-- Settles O55: no move of the host and no instruction writes the parameters. -/
theorem parametersFixed : Obligations.ParametersFixed := by
  intro s t hstep
  rcases step_next hstep with ⟨-, rfl⟩ | ⟨move, rest, -, hmove⟩
  · rfl
  · rcases hmove with ⟨_, _, -, rfl⟩ | ⟨-, rfl⟩ | ⟨c, i, -, -, hexec⟩ | ⟨_, _, -, -, rfl⟩
    · rfl
    · rfl
    · exact (exec_params hexec :)
    · rfl

end Sys2Proof
end

section
/-! Laws of the datapath (40_arithmetic.md R72 to R78), and the rounds built from them (43_round_transform.md R124 to R137):
rotations undo each other, so do a round and its inverse, and two SWAP rounds are one double-round. -/

namespace Sys2Proof

namespace Machine

variable {w : Nat}

/-! ### Rotations -/

/-- On the amounts the CORE uses, `rotl` is the right rotation by the other part of the width. -/
theorem rotl_eq_rotr (n : BitVec w) {s : Nat} (hs : s < w) : rotl n s = rotr n (w - s) := by
  rw [rotr, Nat.sub_sub_self (Nat.le_of_lt hs)]

/-- Going up `s` places and down again, around the width, is where one was. -/
theorem mod_add_rotate {s j : Nat} (hs : s < w) (hj : j < w) : ((j + s) % w + (w - s)) % w = j := by
  rw [Nat.mod_add_mod, Nat.add_assoc, Nat.add_sub_cancel' (Nat.le_of_lt hs), Nat.add_mod_right, Nat.mod_eq_of_lt hj]

/-- R72: the result bit; the bits go `s` places up, the top ones to the bottom. -/
theorem getLsbD_rotl (n : BitVec w) {s j : Nat} (hpos : 0 < s) (hs : s < w) (hj : j < w) :
    (rotl n s).getLsbD ((j + s) % w) = n.getLsbD j := by
  rw [rotl_eq_rotr n hs, getLsbD_rotr n (by omega) (Nat.mod_lt _ (by omega)), mod_add_rotate hs hj]

theorem rotr_rotl (n : BitVec w) {s : Nat} (hpos : 0 < s) (hs : s < w) : rotr (rotl n s) s = n :=
  BitVec.eq_of_getLsbD_eq fun j hj => by rw [getLsbD_rotr _ hs hj, getLsbD_rotl n hpos hs hj]

/-- A right rotation is the left one by the other part, so this is the law above at that amount. -/
theorem rotl_rotr (n : BitVec w) {s : Nat} (hpos : 0 < s) (hs : s < w) : rotl (rotr n s) s = n :=
  (rotl_eq_rotr _ hs).trans (rotr_rotl n (s := w - s) (by omega) (by omega))

theorem rotl_amount_zero (n : BitVec w) : rotl n 0 = n := by simp [rotl, BitVec.ushiftRight_eq_zero]

theorem rotl_amount_width (n : BitVec w) : rotl n w = n := by simp [rotl]

@[simp] theorem rotl_zero (s : Nat) : rotl (0#w) s = 0#w := by simp [rotl]

@[simp] theorem rotr_zero (s : Nat) : rotr (0#w) s = 0#w := rotl_zero (w - s)

theorem rotr_allOnes {s : Nat} (hs : s < w) : rotr (BitVec.allOnes w) s = BitVec.allOnes w :=
  BitVec.eq_of_getLsbD_eq fun j hj => by
    rw [getLsbD_rotr _ hs hj, BitVec.getLsbD_allOnes, BitVec.getLsbD_allOnes, decide_eq_true hj,
      decide_eq_true (Nat.mod_lt _ (by omega))]

theorem rotl_allOnes {s : Nat} (hpos : 0 < s) (hs : s < w) : rotl (BitVec.allOnes w) s = BitVec.allOnes w := by
  rw [rotl_eq_rotr _ hs, rotr_allOnes (by omega)]

/-- A single bit is rotated to its place. -/
theorem rotl_twoPow {i s : Nat} (hi : i < w) (hpos : 0 < s) (hs : s < w) :
    rotl (BitVec.twoPow w i) s = BitVec.twoPow w ((i + s) % w) :=
  BitVec.eq_of_getLsbD_eq fun j hj => by
    obtain ⟨k, hk, rfl⟩ : ∃ k, k < w ∧ (k + s) % w = j := by
      refine ⟨(j + (w - s)) % w, Nat.mod_lt _ (by omega), ?_⟩
      have hback := mod_add_rotate (w := w) (s := w - s) (by omega) hj
      rwa [Nat.sub_sub_self (Nat.le_of_lt hs)] at hback
    have hsame : i = k ↔ (i + s) % w = (k + s) % w := by
      refine ⟨fun h => by rw [h], fun h => ?_⟩
      rw [← mod_add_rotate hs hi, h, mod_add_rotate hs hk]
    rw [getLsbD_rotl _ hpos hs hk, BitVec.getLsbD_twoPow, BitVec.getLsbD_twoPow]
    simp [hi, hsame, Nat.mod_lt _ (Nat.lt_of_le_of_lt (Nat.zero_le _) hs)]

/-! ### NOT and the sums -/

/-- R74: NOT with the constant 3 of the key schedule. -/
theorem notW_xor_three (hw : 2 ≤ w) (n : BitVec w) : notW n ^^^ 3 = n ^^^ BitVec.ofNat w (2 ^ w - 4) := by
  have hpow : 2 ^ 2 ≤ 2 ^ w := Nat.pow_le_pow_right (by decide) hw
  have hconst : BitVec.allOnes w ^^^ 3 = BitVec.ofNat w (2 ^ w - 4) := by
    rw [BitVec.allOnes_xor]
    have hthree : (3 : BitVec w).toNat = 3 := Nat.mod_eq_of_lt (a := 3) (by omega)
    apply BitVec.eq_of_toNat_eq
    rw [BitVec.toNat_not, BitVec.toNat_ofNat, Nat.mod_eq_of_lt (by omega), hthree]
    omega
  rw [notW_eq_xor_allOnes, BitVec.xor_assoc, hconst]

theorem subW_addW (a b : BitVec w) : subW (addW a b) b = a := BitVec.add_sub_cancel a b

theorem addW_subW (a b : BitVec w) : addW (subW a b) b = a := BitVec.sub_add_cancel a b

/-! ### The nonlinear core -/

@[simp] theorem fW_zero : fW (0#w) = 0#w := by simp [fW]

theorem fW_allOnes (hw : 8 < w) : fW (BitVec.allOnes w) = 0#w := by
  rw [fW, rotl_allOnes (by decide) (by omega), rotl_allOnes (by decide) hw, rotl_allOnes (by decide) (by omega),
    BitVec.and_self, BitVec.xor_self]

/-- A single bit goes two places up: the places one and eight up are two. -/
theorem fW_twoPow {i : Nat} (hw : 8 < w) (hi : i < w) : fW (BitVec.twoPow w i) = BitVec.twoPow w ((i + 2) % w) := by
  have hapart : (i + 8) % w ≠ (i + 1) % w := fun h => by
    have hmod : 7 % w = 0 % w := Nat.ModEq.add_left_cancel' (i + 1) h
    rw [Nat.mod_eq_of_lt (by omega), Nat.zero_mod] at hmod
    exact absurd hmod (by decide)
  rw [fW, rotl_twoPow hi (by decide) (by omega), rotl_twoPow hi (by decide) hw, rotl_twoPow hi (by decide) (by omega),
    BitVec.twoPow_and, BitVec.getLsbD_twoPow]
  simp [hapart]

theorem ofNat_two_pow (i : Nat) : BitVec.ofNat w (2 ^ i) = BitVec.twoPow w i :=
  BitVec.eq_of_toNat_eq (by rw [BitVec.toNat_ofNat, BitVec.toNat_twoPow])

/-! ### The rounds -/

theorem doubleInv_doubleFwd (k0 k1 : BitVec w) (p : Pair w) : doubleInv k1 k0 (doubleFwd k0 k1 p) = p := by
  simp [doubleInv, doubleFwd, BitVec.xor_assoc]

theorem doubleFwd_doubleInv (k0 k1 : BitVec w) (p : Pair w) : doubleFwd k0 k1 (doubleInv k1 k0 p) = p := by
  simp [doubleInv, doubleFwd, BitVec.xor_assoc]

theorem swapInv_swapFwd (k : BitVec w) (p : Pair w) : swapInv k (swapFwd k p) = p := by
  simp [swapInv, swapFwd, BitVec.xor_assoc]

theorem swapFwd_swapInv (k : BitVec w) (p : Pair w) : swapFwd k (swapInv k p) = p := by
  simp [swapInv, swapFwd, BitVec.xor_assoc]

variable {A B : Nat}

theorem addInv_addFwd (hA : 0 < A) (hAw : A < w) (hB : 0 < B) (hBw : B < w) (k : BitVec w) (p : Pair w) :
    addInv A B k (addFwd A B k p) = p := by
  simp [addInv, addFwd, rotr_rotl _ hB hBw, subW_addW, rotl_rotr _ hA hAw]

theorem addFwd_addInv (hA : 0 < A) (hAw : A < w) (hB : 0 < B) (hBw : B < w) (k : BitVec w) (p : Pair w) :
    addFwd A B k (addInv A B k p) = p := by
  simp [addInv, addFwd, rotr_rotl _ hA hAw, addW_subW, rotl_rotr _ hB hBw]

/-- R137: a double-round is two SWAP rounds. -/
theorem doubleFwd_eq_swapFwd (k0 k1 : BitVec w) (p : Pair w) : doubleFwd k0 k1 p = swapFwd k1 (swapFwd k0 p) := rfl

theorem doubleInv_eq_swapInv (k0 k1 : BitVec w) (p : Pair w) : doubleInv k1 k0 p = swapInv k0 (swapInv k1 p) := rfl

/-- A loop whose every turn is two turns of another is that other loop at twice the length. -/
theorem foldl_range_pairs {α : Type} {f g : α → Nat → α} (h : ∀ q j, f q j = g (g q (2 * j)) (2 * j + 1)) (n : Nat)
    (x : α) : (List.range n).foldl f x = (List.range (2 * n)).foldl g x := by
  induction n with
  | zero => rfl
  | succ n ih =>
    rw [Nat.mul_succ, List.range_succ, List.range_succ, List.range_succ, List.foldl_append, List.foldl_append,
      List.foldl_append, ih]
    exact h _ n

end Machine

open Machine

/-- Settles O10: each clause is a law above; a word of `n` bytes is below `2^w` because `w` is `8n`. -/
theorem datapathLaws : Obligations.DatapathLaws := by
  refine ⟨fun w n s hpos hs => ⟨fun j hj => getLsbD_rotl n hpos hs hj, rotr_rotl n hpos hs, rotl_rotr n hpos hs⟩,
    fun w n => ⟨rotl_amount_zero n, rotl_amount_width n⟩, fun w n hw => notW_xor_three hw n,
    fun w a b => ⟨subW_addW a b, addW_subW a b⟩, fun w hw => ⟨fW_zero, fW_allOnes (by omega), ?one, ?top⟩,
    fun v m addr => ⟨?below, toNat_readWord v.w_eq m addr⟩⟩
  case one =>
    have hbit := fW_twoPow (w := w) (i := 0) (by omega) (by omega)
    rwa [Nat.mod_eq_of_lt (by omega), ← ofNat_two_pow, ← ofNat_two_pow] at hbit
  case top =>
    have hbit := fW_twoPow (w := w) (i := w - 1) (by omega) (by omega)
    rwa [show w - 1 + 2 = w + 1 by omega, Nat.add_mod_left, Nat.mod_eq_of_lt (by omega), ← ofNat_two_pow 1] at hbit
  case below =>
    rw [v.w_eq]
    exact Memory.readLE_lt m addr v.n

/-- Settles O32: the XORs cancel, and so do the rotations and the sum of shape ADD. -/
theorem inverseRoundsUndo : Obligations.InverseRoundsUndo :=
  ⟨fun _ k0 k1 p => ⟨doubleInv_doubleFwd k0 k1 p, doubleFwd_doubleInv k0 k1 p, swapInv_swapFwd k0 p, swapFwd_swapInv k0 p⟩,
    fun _ _ _ k p hA hAw hB hBw => ⟨addInv_addFwd hA hAw hB hBw k p, addFwd_addInv hA hAw hB hBw k p⟩⟩

/-- Settles O33: each double-round is the two SWAP rounds of its two round keys. -/
theorem doubleEqualsSwap : Obligations.DoubleEqualsSwap := by
  intro w T rk p hT
  have hwhole : 2 * (T / 2) = T := by omega
  constructor
  · rw [foldl_range_pairs (g := fun q i => swapFwd (rk i) q) (fun q d => doubleFwd_eq_swapFwd _ _ q), hwhole]
  · simp only [Nat.sub_sub (T - 1)]
    rw [foldl_range_pairs (g := fun q j => swapInv (rk (T - 1 - j)) q) (fun q j => doubleInv_eq_swapInv _ _ q), hwhole]

end Sys2Proof
end

section
/-! The constant source (41_constant_source.md R91 to R98): one step of a register on integers, the period of the default
registers, the tables they give, and the constant bits of every BooleanMix variant. -/

namespace Sys2Proof

namespace Machine

/-! ### One step of a register -/

/-- R94 on integers: double, and XOR 37 where bit 5 of that is set. -/
def feedbackNat (r : Nat) : Nat := if 32 ≤ 2 * r then (2 * r) ^^^ 37 else 2 * r

theorem toNat_lfsrFeedback : ∀ r : BitVec 5, (lfsrFeedback r).toNat = feedbackNat r.toNat := by decide

/-- The XOR with 37 clears bit 5, the only one above the register. -/
theorem lfsrFeedback_lt : ∀ r : BitVec 5, (lfsrFeedback r).toNat < 2 ^ 5 := by decide

/-- A tap bit at its destination is one bit of the register. -/
theorem toNat_tapBit : ∀ (bit : Bool) (dest : Fin 5),
    (if bit then (1 : BitVec 6) <<< dest.val else 0).toNat = bit.toNat <<< dest.val ∧
      bit.toNat <<< dest.val < 2 ^ 5 := by decide

/-- A bit of a word as an integer. -/
theorem toNat_getLsbD {w : Nat} (x : BitVec w) (i : Nat) : (x.getLsbD i).toNat = (x.toNat >>> i) &&& 1 := by
  rw [BitVec.getLsbD, Nat.toNat_testBit, Nat.and_one_is_mod, Nat.shiftRight_eq_div_pow]

/-- A step from its tap bit: the feedback with that bit XORed in (R94). -/
theorem toNat_lfsrStep {tap : Option Tap} {r : BitVec 5} {mask : Nat}
    (hmask : (lfsrTap tap r (lfsrFeedback r)).toNat = mask) (hlt : mask < 2 ^ 5) :
    (lfsrStep tap r).toNat = feedbackNat r.toNat ^^^ mask := by
  have hfeedback := lfsrFeedback_lt r
  rw [lfsrStep, BitVec.toNat_setWidth, BitVec.toNat_xor, hmask, Nat.mod_eq_of_lt (Nat.xor_lt_two_pow hfeedback hlt),
    toNat_lfsrFeedback]

theorem toNat_lfsrStep_none (r : BitVec 5) : (lfsrStep none r).toNat = feedbackNat r.toNat := by
  rw [toNat_lfsrStep (mask := 0) rfl (by decide), Nat.xor_zero]

theorem toNat_lfsrStep_before (b d : Fin 5) (r : BitVec 5) :
    (lfsrStep (some ⟨.before b, d⟩) r).toNat = feedbackNat r.toNat ^^^ (((r.toNat >>> b.val) &&& 1) <<< d.val) := by
  obtain ⟨hmask, hlt⟩ := toNat_tapBit (r.getLsbD b.val) d
  rw [toNat_lfsrStep (tap := some ⟨.before b, d⟩) hmask hlt, toNat_getLsbD]

theorem toNat_lfsrStep_after (b d : Fin 5) (r : BitVec 5) :
    (lfsrStep (some ⟨.after b, d⟩) r).toNat =
      feedbackNat r.toNat ^^^ (((feedbackNat r.toNat >>> b.val) &&& 1) <<< d.val) := by
  obtain ⟨hmask, hlt⟩ := toNat_tapBit ((lfsrFeedback r).getLsbD b.val) d
  rw [toNat_lfsrStep (tap := some ⟨.after b, d⟩) hmask hlt, toNat_getLsbD, toNat_lfsrFeedback]

theorem lfsrOut_eq (r : BitVec 5) : lfsrOut r = decide (r.toNat % 2 = 1) := by
  rw [lfsrOut, BitVec.getLsbD, Nat.testBit_zero]

/-! ### The default registers -/

/-- A register back at its initial value after `n` steps has the period `n`. -/
theorem lfsrAfter_add_period {tap : Option Tap} {n : Nat} (h : lfsrAfter tap n = 1) (j : Nat) :
    lfsrAfter tap (j + n) = lfsrAfter tap j := by
  induction j with
  | zero => rw [Nat.zero_add, h, lfsrAfter]
  | succ j ih => rw [Nat.add_right_comm, lfsrAfter, ih, lfsrAfter]

/-- So its value depends on the step modulo the period only. -/
theorem lfsrAfter_mod {tap : Option Tap} {n : Nat} (h : lfsrAfter tap n = 1) (j : Nat) :
    lfsrAfter tap (j % n) = lfsrAfter tap j := by
  have hperiod : Function.Periodic (lfsrAfter tap) n := lfsrAfter_add_period h
  exact hperiod.map_mod_nat j

theorem lfsrAfter_default_31 (reg : ShiftReg) : lfsrAfter (Taps.default.get reg) 31 = 1 := by
  cases reg <;> decide +kernel

theorem lfsrAfter_default_62 (reg : ShiftReg) : lfsrAfter (Taps.default.get reg) 62 = 1 := by
  rw [show 62 = 31 + 31 from rfl, lfsrAfter_add_period (lfsrAfter_default_31 reg), lfsrAfter_default_31]

theorem lfsrAfter_default_ne_zero_of_lt (reg : ShiftReg) : ∀ j < 31, lfsrAfter (Taps.default.get reg) j ≠ 0 := by
  cases reg <;> decide +kernel

/-- R98: what the registers give through their common period of 62. -/
theorem lfsrOut_default_of_lt : ∀ j < 62,
    lfsrOut (lfsrAfter Taps.default.u j) = (0x19C3522FB386A45F : BitVec 62).getLsbD j ∧
    lfsrOut (lfsrAfter Taps.default.v j) = (0x16864FB8AD0C9F71 : BitVec 62).getLsbD j ∧
    lfsrOut (lfsrAfter Taps.default.w j) = ((0x3DC94C3A046D678B : BitVec 62).getLsbD j ^^ decide (j % 2 = 1)) := by
  decide +kernel

end Machine

open Machine

/-- Settles O12: a step is the feedback with the tap bit XORed in, and the default taps are three of those. -/
theorem shiftRegisterUpdate : Obligations.ShiftRegisterUpdate := by
  refine ⟨fun tap r => ⟨?step, rfl, lfsrOut_eq r⟩, fun r => ⟨?u, ?v, ?w⟩⟩
  case step =>
    rcases tap with _ | ⟨b | b, d⟩
    · exact (toNat_lfsrStep_none r).trans (Nat.xor_zero _).symm
    · exact toNat_lfsrStep_before b d r
    · exact toNat_lfsrStep_after b d r
  case u => exact toNat_lfsrStep_before 0 0 r
  case v => exact toNat_lfsrStep_before 2 4 r
  case w => exact toNat_lfsrStep_none r

/-- Settles O11: a whole period by evaluation, every later step by the period. -/
theorem shiftRegisterIsTable : Obligations.ShiftRegisterIsTable := by
  refine ⟨fun j => ?tables, fun reg j => ⟨lfsrAfter_add_period (lfsrAfter_default_31 reg) j, ?nonzero⟩⟩
  case tables =>
    obtain ⟨hu, hv, hw⟩ := lfsrOut_default_of_lt (j % 62) (Nat.mod_lt j (by decide))
    rw [lfsrAfter_mod (tap := Taps.default.u) (lfsrAfter_default_62 .u)] at hu
    rw [lfsrAfter_mod (tap := Taps.default.v) (lfsrAfter_default_62 .v)] at hv
    rw [lfsrAfter_mod (tap := Taps.default.w) (lfsrAfter_default_62 .w), Nat.mod_mod_of_dvd j (by decide)] at hw
    exact ⟨hu, hv, hw⟩
  case nonzero =>
    rw [← lfsrAfter_mod (lfsrAfter_default_31 reg)]
    exact lfsrAfter_default_ne_zero_of_lt reg _ (Nat.mod_lt j (by decide))

/-- Settles O54: by the source of each variant; for BM32_64 the pinned bits, and by default register U, which gives z0. -/
theorem constantBits : Obligations.ConstantBits := by
  refine ⟨fun p v j => ⟨fun z hz => cbit_table hz j, fun hu => ⟨Parameters.csrc_registerU hu, cbit_registerU hu j⟩⟩,
    fun p j hj => cbit_bm32_64 p hj, fun j => ⟨?register, cbit_table (z := .z0) rfl j, cbit_table (z := .z1) rfl j,
      cbit_table (z := .z2) rfl j, cbit_table (z := .z3) rfl j, cbit_table (z := .z2) rfl j, cbit_table (z := .z3) rfl j,
      cbit_table (z := .z2) rfl j, cbit_table (z := .z3) rfl j, cbit_table (z := .z4) rfl j⟩⟩
  case register =>
    obtain ⟨htables, -⟩ := shiftRegisterIsTable
    obtain ⟨hu, -, -⟩ := htables (j % 62)
    rw [cbit_registerU rfl]
    rwa [Nat.mod_mod] at hu

end Sys2Proof
end

section
/-! The descriptor table (30_encoding.md R53 to R55), and the key schedule of uniform keys (42_key_schedule.md R103, R106,
R108). -/

namespace Sys2Proof

theorem Variant.w_mem (v : Variant) : v.w ∈ [16, 24, 32, 48, 64] := by cases v <;> decide

theorem Variant.m_mem (v : Variant) : v.m ∈ [2, 3, 4] := by cases v <;> decide

/-- R54, R142: the shape of a variant from its family and width. -/
theorem Variant.shape_of_addMix {v : Variant} (h : v.family = .addMix) : v.shape = .add := by
  rw [Variant.shape, h]

theorem Variant.shape_of_booleanMix {v : Variant} (h : v.family = .booleanMix) :
    v.shape = if v.w = 64 then .swap else .double := by
  rw [Variant.shape, h]

namespace Machine

variable {w : Nat}

/-! ### BooleanMix at the first generated key -/

/-- Every slot of a uniform key is its one word. -/
theorem wordAt_replicate {m j : Nat} (x : BitVec w) (hj : j < m) : wordAt (List.replicate m x) j = x := by
  simp [wordAt, hj]

/-- The scratch word of a step that reads the word of zeros everywhere. -/
theorem bmTmp_of_zero {m i : Nat} {k : List (BitVec w)} (h1 : wordAt k (i - 1) = 0#w)
    (h3 : m = 4 → wordAt k (i - 3) = 0#w) : bmTmp m k i = 0#w := by
  unfold bmTmp
  rw [h1]
  by_cases hm : m = 4
  · simp [hm, h3 hm]
  · simp [hm]

/-- It is zero for the word of ones too: either the two words it XORs are the same, or the word is its own rotation. -/
theorem bmTmp_of_allOnes {m i : Nat} (hw : 3 < w) {k : List (BitVec w)} (h1 : wordAt k (i - 1) = BitVec.allOnes w)
    (h3 : m = 4 → wordAt k (i - 3) = BitVec.allOnes w) : bmTmp m k i = 0#w := by
  have hr1 : rotr (BitVec.allOnes w) ksRot1 = BitVec.allOnes w := rotr_allOnes hw
  have hr2 : rotr (BitVec.allOnes w) ksRot2 = BitVec.allOnes w := rotr_allOnes (Nat.lt_trans (by decide) hw)
  unfold bmTmp
  rw [h1, hr1]
  by_cases hm : m = 4
  · simp [hm, h3 hm]
  · simp [hm, hr2]

/-- The first generated key of a uniform key reads slots only (R106). -/
theorem wordAt_bmExpand_uniform {m T : Nat} (cb : Nat → Bool) (x : BitVec w) (hm : 2 ≤ m) (hT : m < T)
    (htmp : ∀ k : List (BitVec w), wordAt k (m - 1) = x → (m = 4 → wordAt k (m - 3) = x) → bmTmp m k m = 0#w) :
    wordAt (bmExpand m T cb (List.replicate m x)) m = notW x ^^^ bitWord w (cb 0) ^^^ 3 := by
  have hlen : (List.replicate m x).length = m := List.length_replicate
  have hslot (j : Nat) (hj : j < m) : wordAt (bmExpand m T cb (List.replicate m x)) j = x :=
    (wordAt_bmExpand_slot cb hlen (by omega) hj).trans (wordAt_replicate x hj)
  rw [wordAt_bmExpand cb hlen (by omega) (le_refl m) hT, bmKey, Nat.sub_self, hslot 0 (by omega),
    htmp _ (hslot _ (by omega)) (fun hm4 => hslot _ (by omega)), BitVec.xor_zero]

/-! ### AddMix at the first two generated keys -/

variable {A B : Nat}

/-- R108 at `i = 0`, of a uniform key. -/
theorem wordAt_amExpand_uniform_one {m T : Nat} (x : BitVec w) (hm : 2 ≤ m) (hT : 1 ≤ T) :
    let s := amExpand A B (T + 1) (List.replicate m x)
    wordAt s.2 (m - 1) = addW x (rotr x A) ∧ wordAt s.1 1 = rotl x B ^^^ addW x (rotr x A) := by
  intro s
  have hlen : (List.replicate m x).length = m := List.length_replicate
  obtain ⟨hkey, haux⟩ := wordAt_amExpand_slots (T := T) A B hlen (by omega)
  obtain ⟨hnewAux, hnewKey⟩ := wordAt_amExpand (i := 0) A B hlen hm hT
  rw [Nat.zero_add] at hnewAux
  rw [Nat.zero_add, Nat.zero_add, hnewAux] at hnewKey
  have hvalue : amAux A s.1 s.2 0 = addW x (rotr x A) := by
    rw [amAux, hkey, haux 0 (by omega), wordAt_replicate x (by omega), wordAt_replicate x (by omega)]
    simp [maskW]
  rw [hkey, wordAt_replicate x (by omega)] at hnewKey
  exact ⟨hnewAux.trans hvalue, hnewKey.trans (by rw [hvalue])⟩

/-- R108 at `i = 1`, of the all-zero key. `AUX[1]` is a slot, or where `m` is 2 the word that `i = 0` made. -/
theorem wordAt_amExpand_zero_two {m T : Nat} (hm : 2 ≤ m) (hT : 2 ≤ T) :
    wordAt (amExpand A B (T + 1) (List.replicate m 0#w)).1 2 = 1#w := by
  have hlen : (List.replicate m 0#w).length = m := List.length_replicate
  obtain ⟨-, haux⟩ := wordAt_amExpand_slots (T := T) A B hlen (by omega)
  obtain ⟨haux1, hkey1⟩ := wordAt_amExpand_uniform_one (A := A) (B := B) (T := T) 0#w hm (by omega)
  obtain ⟨hnewAux, hnewKey⟩ := wordAt_amExpand (i := 1) A B hlen hm hT
  have hauxOne : wordAt (amExpand A B (T + 1) (List.replicate m 0#w)).2 1 = 0#w := by
    rcases Nat.eq_or_lt_of_le hm with rfl | hm3
    · rw [haux1]
      simp [addW]
    · rw [haux 1 hm3, wordAt_replicate _ hm3]
  rw [hnewKey, hnewAux, amAux, hkey1, hauxOne]
  simp [addW, maskW]

/-! ### The words of the two keys -/

/-- R77: the constant bit 1 and the constant 3. -/
theorem one_xor_three (hw : 2 ≤ w) : 1#w ^^^ 3#w = 2#w := by
  have hpow : 2 ^ 2 ≤ 2 ^ w := Nat.pow_le_pow_right (by decide) hw
  apply BitVec.eq_of_toNat_eq
  rw [BitVec.toNat_xor, BitVec.toNat_ofNat, BitVec.toNat_ofNat, BitVec.toNat_ofNat, Nat.mod_eq_of_lt (by omega),
    Nat.mod_eq_of_lt (by omega), Nat.mod_eq_of_lt (by omega)]
  rfl

theorem notW_zero_xor_two (hw : 2 ≤ w) : notW 0#w ^^^ 2#w = BitVec.ofNat w (2 ^ w - 3) := by
  have hpow : 2 ^ 2 ≤ 2 ^ w := Nat.pow_le_pow_right (by decide) hw
  rw [notW, BitVec.not_zero, BitVec.allOnes_xor]
  apply BitVec.eq_of_toNat_eq
  rw [BitVec.toNat_not, BitVec.toNat_ofNat, BitVec.toNat_ofNat, Nat.mod_eq_of_lt (by omega), Nat.mod_eq_of_lt (by omega)]
  omega

theorem allOnes_xor_double (hw : 1 ≤ w) :
    BitVec.allOnes w ^^^ addW (BitVec.allOnes w) (BitVec.allOnes w) = 1#w := by
  have hpow : 2 ^ 1 ≤ 2 ^ w := Nat.pow_le_pow_right (by decide) hw
  have hsum : (2 ^ w - 1 + (2 ^ w - 1)) % 2 ^ w = 2 ^ w - 2 := by
    rw [show 2 ^ w - 1 + (2 ^ w - 1) = 2 ^ w - 2 + 2 ^ w by omega, Nat.add_mod_right, Nat.mod_eq_of_lt (by omega)]
  rw [BitVec.allOnes_xor]
  apply BitVec.eq_of_toNat_eq
  rw [BitVec.toNat_not, toNat_addW, BitVec.toNat_allOnes, hsum, BitVec.toNat_ofNat, Nat.mod_eq_of_lt (by omega)]
  omega

end Machine

open Machine

/-- Settles O5: the columns of the table by evaluation of its rows, the derived fields from them. -/
theorem descriptorFields : Obligations.DescriptorFields := by
  refine ⟨fun v => ⟨v.w_mem, v.w_eq, v.m_mem, v.m_lt_T, v.T_le, rfl, rfl, Variant.shape_of_addMix, fun hv hw => ?swap,
    fun hv hw => ?double, v.T_even⟩, fun _ _ => Variant.ofVsel_eq_some_iff, rfl, rfl, rfl, rfl, rfl, rfl, rfl,
    fun _ => ⟨rfl, rfl⟩, ?rows⟩
  case swap => rw [Variant.shape_of_booleanMix hv, if_pos hw]
  case double => rw [Variant.shape_of_booleanMix hv, if_neg hw]
  case rows =>
    refine ⟨?_, ?_, ?_, ?_, ?_, ?_, ?_, ?_, ?_, ?_, ?_, ?_, ?_, ?_, ?_, ?_, ?_, ?_, ?_, ?_⟩ <;> decide

/-- Settles O15: DIRECT is the list as it stands, REVERSED the list from its end. -/
theorem seedOrder : Obligations.SeedOrder := by
  refine ⟨fun _ => rfl, fun v kw hlen => ⟨fun _ _ => rfl, fun j hj => ?reversed⟩⟩
  case reversed => rw [← hlen, wordAt_seedSlots_reversed kw (by omega)]

/-- Settles O16: the recurrences read slots of one value, and the constants give the rest. -/
theorem uniformKeys : Obligations.UniformKeys := by
  refine ⟨fun p v hv hbit => ?booleanMix, fun p v hv => ?addMix⟩
  case booleanMix =>
    have hw := v.w_ge
    rw [expand_booleanMix p hv, expand_booleanMix p hv]
    constructor
    · refine (wordAt_bmExpand_uniform (cbit p v) 0#v.w v.m_ge v.m_lt_T (fun _ => bmTmp_of_zero)).trans ?_
      rw [hbit, bitWord, if_pos rfl, BitVec.xor_assoc]
      exact (congrArg _ (one_xor_three (by omega))).trans (notW_zero_xor_two (by omega))
    · rw [wordAt_bmExpand_uniform (cbit p v) _ v.m_ge v.m_lt_T (fun _ => bmTmp_of_allOnes (by omega)), hbit, bitWord,
        if_pos rfl, notW, BitVec.not_allOnes, BitVec.zero_xor]
      exact one_xor_three (by omega)
  case addMix =>
    have hw := v.w_ge
    obtain ⟨T, hT, hT2⟩ : ∃ T, v.T = T + 1 ∧ 2 ≤ T :=
      ⟨v.T - 1, by have := v.m_lt_T; omega, by have := v.m_lt_T; have := v.m_ge; omega⟩
    obtain ⟨-, hA, hB, hBw⟩ := v.rot_bounds
    rw [expand_addMix p hv, expand_addMix p hv, hT]
    obtain ⟨-, hzero⟩ := wordAt_amExpand_uniform_one (A := v.rotA) (B := v.rotB) 0#v.w v.m_ge (show 1 ≤ T by omega)
    obtain ⟨-, hones⟩ :=
      wordAt_amExpand_uniform_one (A := v.rotA) (B := v.rotB) (BitVec.allOnes v.w) v.m_ge (show 1 ≤ T by omega)
    refine ⟨hzero.trans ?_, wordAt_amExpand_zero_two v.m_ge hT2, hones.trans ?_⟩
    · simp [addW]
    · rw [rotl_allOnes hB hBw, rotr_allOnes hA]
      exact allOnes_xor_double (by omega)

end Sys2Proof
end

section
/-! Two ENCRYPT or DECRYPT commands one after the other: a command and its opposite restore the block
(43_round_transform.md R136), commands on buffers apart commute (60_exceptions.md R163). -/

namespace Sys2Proof

namespace Machine

variable {dir : Dir} {v : Variant} {s : State} {dst src : Desc} {rk : Nat → BitVec v.w} {p : Pair v.w} {j : Nat}

/-! ### The loop backwards -/

/-- The opposite direction undoes turn `j` with its turn `j` from the end: it takes the same round keys. -/
theorem turn_opposite (hj : j < rtTrips v) :
    turn dir.opposite v rk (rtTrips v - 1 - j) (turn dir v rk j p) = p := by
  obtain ⟨hA, hAw, hB, hBw⟩ := v.rot_bounds
  cases hshape : v.shape with
  | double =>
    have hT := v.T_even hshape
    rw [rtTrips_double hshape] at hj ⊢
    cases dir with
    | encrypt =>
      have hodd : v.T - 1 - 2 * (v.T / 2 - 1 - j) = 2 * j + 1 := by omega
      rw [Dir.opposite, turn_encrypt_double hshape, turn_decrypt_double hshape, hodd, Nat.add_sub_cancel,
        doubleInv_doubleFwd]
    | decrypt =>
      have heven : 2 * (v.T / 2 - 1 - j) = v.T - 1 - 2 * j - 1 := by omega
      have hodd : v.T - 1 - 2 * j - 1 + 1 = v.T - 1 - 2 * j := by omega
      rw [Dir.opposite, turn_decrypt_double hshape, turn_encrypt_double hshape, heven, hodd, doubleFwd_doubleInv]
  | swap =>
    rw [rtTrips_swap hshape] at hj ⊢
    have hback : v.T - 1 - (v.T - 1 - j) = j := by omega
    cases dir with
    | encrypt => rw [Dir.opposite, turn_encrypt_swap hshape, turn_decrypt_swap hshape, hback, swapInv_swapFwd]
    | decrypt => rw [Dir.opposite, turn_decrypt_swap hshape, turn_encrypt_swap hshape, swapFwd_swapInv]
  | add =>
    rw [rtTrips_add hshape] at hj ⊢
    have hback : v.T - 1 - (v.T - 1 - j) = j := by omega
    cases dir with
    | encrypt =>
      rw [Dir.opposite, turn_encrypt_add hshape, turn_decrypt_add hshape, hback, addInv_addFwd hA hAw hB hBw]
    | decrypt => rw [Dir.opposite, turn_decrypt_add hshape, turn_encrypt_add hshape, addFwd_addInv hA hAw hB hBw]

/-- After `n` turns of the opposite direction the last `n` turns are undone. -/
theorem pairAfter_opposite {n : Nat} (hn : n ≤ rtTrips v) :
    pairAfter dir.opposite v rk (pairAfter dir v rk p (rtTrips v)) n = pairAfter dir v rk p (rtTrips v - n) := by
  induction n with
  | zero => rfl
  | succ n ih =>
    have hlast : rtTrips v - n = rtTrips v - (n + 1) + 1 := by omega
    have hturn : n = rtTrips v - 1 - (rtTrips v - (n + 1)) := by omega
    rw [pairAfter, ih (by omega), hlast, pairAfter]
    conv => lhs; arg 4; rw [hturn]
    exact turn_opposite (by omega)

/-- R136 on words: the whole loop is undone. -/
theorem transform_opposite (dir : Dir) (v : Variant) (rk : Nat → BitVec v.w) (p : Pair v.w) :
    transform dir.opposite v rk (transform dir v rk p) = p := by
  rw [transform_eq_pairAfter, transform_eq_pairAfter, pairAfter_opposite (le_refl _), Nat.sub_self, pairAfter]

/-! ### The second command -/

/-- A block that lies at the source is the one loaded. -/
theorem loadBlock_of_blockAt {q : Parameters} {m : Memory} {xy : Pair v.w} (h : blockAt q v m src.base xy) :
    loadBlock q v m src = xy := by
  obtain ⟨hfirst, hsecond⟩ := blockAt_iff.mp h
  rw [loadBlock, readWord_eq_of_wordBytesAt v.w_eq hfirst, readWord_eq_of_wordBytesAt v.w_eq hsecond,
    orderHalves_orderHalves]

/-- A command that stores leaves the conditions of the next one as they were. -/
theorem State.CryptReady.finishStore (h : s.CryptReady v dst src) (m : Memory) :
    (s.finishStore m).CryptReady v dst src :=
  ⟨h.phase, h.variant, h.dstFits, h.srcFits, h.dstLen, h.srcLen⟩

/-- What is stored depends on the source block of memory only. -/
theorem read_cryptMemory_finishStore {m : Memory}
    (hsrc : ∀ i, i < v.blockBytes → m.read (src.base + i) = s.mem.read (src.base + i)) (hj : j < v.blockBytes) :
    (cryptMemory dir v dst src (s.finishStore m)).read (dst.base + j) =
      (cryptMemory dir v dst src s).read (dst.base + j) := by
  have hblock : loadBlock s.params v m src = loadBlock s.params v s.mem src := loadBlock_congr rfl hsrc
  have hstored := blockAt_cryptMemory dir v dst src (s.finishStore m)
  rw [State.finishStore_params, State.finishStore_mem, hblock] at hstored
  exact read_eq_of_blockAt hstored (blockAt_cryptMemory dir v dst src s) rfl hj

/-- The address `x` lies in the first `2n` bytes of a buffer. -/
def inBlock (v : Variant) (d : Desc) (x : Nat) : Prop := d.base ≤ x ∧ x < d.base + v.blockBytes

theorem read_cryptMemory_of_not_inBlock (dir : Dir) (src : Desc) (s : State) {x : Nat} (h : ¬ inBlock v dst x) :
    (cryptMemory dir v dst src s).read x = s.mem.read x := by
  refine read_cryptMemory_outside dir src s ?_
  by_contra hin
  exact h ⟨by omega, by omega⟩

/-- Two commands one after the other: each stores in its own block what it would store alone. -/
theorem read_crypt_crypt (d1 d2 : Dir) {dst1 src1 dst2 src2 : Desc}
    (hsrc : ∀ i j, i < v.blockBytes → j < v.blockBytes → dst1.base + i ≠ src2.base + j) (x : Nat) :
    let t := s.finishStore (cryptMemory d1 v dst1 src1 s)
    (inBlock v dst2 x → (cryptMemory d2 v dst2 src2 t).read x = (cryptMemory d2 v dst2 src2 s).read x) ∧
      (¬ inBlock v dst2 x → (cryptMemory d2 v dst2 src2 t).read x = (cryptMemory d1 v dst1 src1 s).read x) := by
  intro t
  have hkept (j : Nat) (hj : j < v.blockBytes) :
      (cryptMemory d1 v dst1 src1 s).read (src2.base + j) = s.mem.read (src2.base + j) := by
    refine read_cryptMemory_of_not_inBlock d1 src1 s fun ⟨hlow, hhigh⟩ => ?_
    exact hsrc (src2.base + j - dst1.base) j (by omega) hj (by omega)
  refine ⟨fun ⟨hlow, hhigh⟩ => ?_, read_cryptMemory_of_not_inBlock d2 src2 t⟩
  obtain ⟨j, rfl⟩ := Nat.exists_eq_add_of_le hlow
  exact read_cryptMemory_finishStore hkept (by omega)

end Machine

open Machine

/-- Settles O28: the second command loads the block that the first one stored, and its loop undoes the first one's. -/
theorem cryptRoundTrip : Obligations.CryptRoundTrip := by
  intro dir v s dst src dst2 src2 hready hready2 hbase
  refine ⟨_, _, exec_crypt_of_ready hready, exec_crypt_of_ready (hready2.finishStore _), rfl, fun j hj => ?bytes⟩
  case bytes =>
    have hfirst := blockAt_cryptMemory dir v dst src s
    have hsecond := blockAt_cryptMemory dir.opposite v dst2 src2 (s.finishStore (cryptMemory dir v dst src s))
    rw [← hbase] at hfirst
    rw [State.finishStore_params, State.finishStore_mem, loadBlock_of_blockAt hfirst] at hsecond
    have hundone := transform_opposite dir v (s.rkWord v.w) (loadBlock s.params v s.mem src)
    exact read_eq_of_blockAt (hundone ▸ hsecond) (blockAt_loadBlock s.params v s.mem src) rfl hj

/-- Settles O31: in either order a byte of a destination is the one its own command stores, every other byte is kept. -/
theorem disjointCommandsCommute : Obligations.DisjointCommandsCommute := by
  intro d1 d2 v s dst1 src1 dst2 src2 hready1 hready2 hapart
  refine ⟨_, _, _, _, exec_crypt_of_ready hready1, exec_crypt_of_ready (hready2.finishStore _),
    exec_crypt_of_ready hready2, exec_crypt_of_ready (hready1.finishStore _), fun x => ?same⟩
  case same =>
    have hsrc2 (i j : Nat) (hi : i < v.blockBytes) (hj : j < v.blockBytes) : dst1.base + i ≠ src2.base + j := by
      obtain ⟨-, h, -⟩ := hapart i j hi hj
      exact h
    have hsrc1 (i j : Nat) (hi : i < v.blockBytes) (hj : j < v.blockBytes) : dst2.base + i ≠ src1.base + j := by
      obtain ⟨-, -, h⟩ := hapart i j hi hj
      exact h
    obtain ⟨hin2, hout2⟩ := read_crypt_crypt (s := s) (dst2 := dst2) d1 d2 hsrc2 x
    obtain ⟨hin1, hout1⟩ := read_crypt_crypt (s := s) (dst2 := dst1) d2 d1 hsrc1 x
    rw [State.finishStore_mem, State.finishStore_mem]
    by_cases h1 : inBlock v dst1 x
    · have h2 : ¬ inBlock v dst2 x := fun h2 => by
        obtain ⟨hlow1, hhigh1⟩ := h1
        obtain ⟨hlow2, hhigh2⟩ := h2
        obtain ⟨h, -, -⟩ := hapart (x - dst1.base) (x - dst2.base) (by omega) (by omega)
        omega
      rw [hout2 h2, hin1 h1]
    · rw [hout1 h1]
      by_cases h2 : inBlock v dst2 x
      · rw [hin2 h2]
      · rw [hout2 h2, read_cryptMemory_of_not_inBlock d1 src1 s h1, read_cryptMemory_of_not_inBlock d2 src2 s h2]

end Sys2Proof
end

section
/-! The stepping machine (42_key_schedule.md R112, 43_round_transform.md R140): an equation for each sub-state, the rules for
runs of it, and all that one step of a running command can do. -/

namespace Sys2Proof

namespace Machine

variable {r r' q : Running} {n : Nat} {v : Variant} {key dst src : Desc} {dir : Dir} {s : State}

/-! ### Runs -/

theorem microRun_succ (h : micro r = .next r') (n : Nat) : microRun (n + 1) r = microRun n r' := by
  simp only [microRun, h]

theorem microRun_one (h : micro r = .next r') : microRun 1 r = .next r' := microRun_succ h 0

/-- A run and one step more. -/
theorem microRun_succ_last (h : microRun n r = .next r') (hlast : micro r' = .next q) : microRun (n + 1) r = .next q := by
  induction n generalizing r with
  | zero =>
    cases h
    exact microRun_one hlast
  | succ n ih =>
    unfold microRun at h ⊢
    split at h
    · exact ih h
    · exact nomatch h
    · exact nomatch h

/-- What every step keeps, every run keeps. -/
theorem microRun_keeps {P : Running → Prop} (hstep : ∀ r r', P r → micro r = .next r' → P r') (hstart : P r)
    (h : microRun n r = .next q) : P q := by
  induction n generalizing r with
  | zero =>
    cases h
    exact hstart
  | succ n ih =>
    unfold microRun at h
    split at h
    · next r' hmicro => exact ih (hstep r r' hstart hmicro) h
    · exact nomatch h
    · exact nomatch h

/-! ### The step of each instruction -/

theorem micro_of_done (h : r.sub = .done) : micro r = .next r := by rw [micro, if_pos h]

/-- A word that does not decode ends at once (60_exceptions.md R152). -/
theorem micro_of_error {e : DecodeError} (h : r.sub ≠ .done) (hdecode : decode r.core.current = .error e) :
    micro r = .next ⟨.done, r.core.raise .illegalCommand⟩ := by
  rw [micro, if_neg h, hdecode]

theorem micro_of_construct (h : r.sub ≠ .done) (hdecode : decode r.core.current = .ok (Instr.construct v key)) :
    micro r = ksMicro v key r := by
  simp only [micro, if_neg h, hdecode, operation_construct]

theorem micro_of_crypt (h : r.sub ≠ .done) (hdecode : decode r.core.current = .ok (cryptInstr dir dst src)) :
    micro r = rtMicro dir dst src r := by
  cases dir <;> simp only [micro, if_neg h, hdecode, cryptInstr, Instr.operation]

/-- BLOCKSIZE has no sub-states. -/
theorem micro_of_blocksize (h : r.sub ≠ .done) (hdecode : decode r.core.current = .ok .blocksize) :
    micro r = .next r := by
  simp only [micro, if_neg h, hdecode, Instr.operation]

/-- All that a step of a running command can be, by what its word decodes to. -/
theorem micro_cases (r : Running) :
    (r.sub = .done ∧ micro r = .next r) ∨
    (r.sub ≠ .done ∧ ∃ e, decode r.core.current = .error e ∧
      micro r = .next ⟨.done, r.core.raise .illegalCommand⟩) ∨
    (r.sub ≠ .done ∧ ∃ v key, decode r.core.current = .ok (Instr.construct v key) ∧ micro r = ksMicro v key r) ∨
    (r.sub ≠ .done ∧ ∃ dir dst src, decode r.core.current = .ok (cryptInstr dir dst src) ∧
      micro r = rtMicro dir dst src r) ∨
    (r.sub ≠ .done ∧ decode r.core.current = .ok .blocksize ∧ micro r = .next r) := by
  by_cases h : r.sub = .done
  · exact .inl ⟨h, micro_of_done h⟩
  · cases hdecode : decode r.core.current with
    | error e => exact .inr (.inl ⟨h, e, rfl, micro_of_error h hdecode⟩)
    | ok i =>
      rcases instr_cases i with ⟨v, key, rfl⟩ | ⟨dst, src, rfl⟩ | ⟨dst, src, rfl⟩ | rfl
      · exact .inr (.inr (.inl ⟨h, v, key, rfl, micro_of_construct h hdecode⟩))
      · exact .inr (.inr (.inr (.inl ⟨h, .encrypt, dst, src, rfl, micro_of_crypt (dir := .encrypt) h hdecode⟩)))
      · exact .inr (.inr (.inr (.inl ⟨h, .decrypt, dst, src, rfl, micro_of_crypt (dir := .decrypt) h hdecode⟩)))
      · exact .inr (.inr (.inr (.inr ⟨h, rfl, micro_of_blocksize h hdecode⟩)))

/-! ### The sub-states of CONSTRUCT -/

/-- The index of the first iteration (R112). -/
def ksFirst (v : Variant) : Nat :=
  match v.family with
  | .booleanMix => v.m
  | .addMix     => 0

theorem ksFirst_booleanMix (h : v.family = .booleanMix) : ksFirst v = v.m := by simp only [ksFirst, h]

theorem ksFirst_addMix (h : v.family = .addMix) : ksFirst v = 0 := by simp only [ksFirst, h]

theorem ksFirst_le (v : Variant) : ksFirst v ≤ 4 := by cases v <;> decide

/-- The last iteration of a loop that starts at `ksFirst`, after `ksTrips` of them, is the one at `ksLast`. -/
theorem ksFirst_add_ksTrips (v : Variant) : ksFirst v + ksTrips v = ksLast v + 1 := by cases v <;> decide

theorem ksTrips_pos (v : Variant) : 0 < ksTrips v := by cases v <;> decide

theorem ksLast_le (v : Variant) : ksLast v ≤ 71 := by cases v <;> decide

theorem toNat_ksLoad_index (v : Variant) (key : Desc) (s : State) :
    (ksLoad v key s).scratch.i.toNat = ksFirst v := by
  cases v <;> rfl

theorem ksMicro_check_proceed {u : Variant} (h : constructVerdict s.params.addrBits v key = .proceed u) :
    ksMicro v key ⟨.ksCheck, s⟩ = .next ⟨.ksLoad, s⟩ := by
  simp only [ksMicro, h]

theorem ksMicro_check_ends {code : Status} (h : constructVerdict s.params.addrBits v key = .ends code) :
    ksMicro v key ⟨.ksCheck, s⟩ = .next ⟨.done, s.raise code⟩ := by
  simp only [ksMicro, h]

theorem ksMicro_load (v : Variant) (key : Desc) (s : State) :
    ksMicro v key ⟨.ksLoad, s⟩ = .next ⟨ksAt v (ksFirst v), ksLoad v key s⟩ := by
  rw [← toNat_ksLoad_index v key s]
  rfl

theorem ksMicro_run (v : Variant) (key : Desc) (s : State) :
    ksMicro v key ⟨.ksRun, s⟩ = .next ⟨ksAt v (s.scratch.i.toNat + 1), ksRun v s⟩ := rfl

theorem ksMicro_publish (v : Variant) (key : Desc) (s : State) :
    ksMicro v key ⟨.ksPublish, s⟩ = .next ⟨.done, s.publish v s.scratch.k⟩ := rfl

/-- All that a step of a running CONSTRUCT can do (R112). -/
theorem ksMicro_next (h : ksMicro v key r = .next r') :
    (r.sub = .ksCheck ∧ r' = ⟨.ksLoad, r.core⟩) ∨
    (r.sub = .ksLoad ∧ r' = ⟨ksAt v (ksFirst v), ksLoad v key r.core⟩) ∨
    (r.sub = .ksRun ∧ r' = ⟨ksAt v (r.core.scratch.i.toNat + 1), ksRun v r.core⟩) ∨ r'.sub = .done ∨ r' = r := by
  obtain ⟨sub, c⟩ := r
  cases sub with
  | ksCheck =>
    cases hverdict : constructVerdict c.params.addrBits v key with
    | proceed u =>
      cases (ksMicro_check_proceed hverdict).symm.trans h
      exact .inl ⟨rfl, rfl⟩
    | ends code =>
      cases (ksMicro_check_ends hverdict).symm.trans h
      exact .inr (.inr (.inr (.inl rfl)))
    | stuck f => exact absurd hverdict constructVerdict_not_stuck
  | ksLoad =>
    cases (ksMicro_load v key c).symm.trans h
    exact .inr (.inl ⟨rfl, rfl⟩)
  | ksRun =>
    cases h
    exact .inr (.inr (.inl ⟨rfl, rfl⟩))
  | ksPublish =>
    cases h
    exact .inr (.inr (.inr (.inl rfl)))
  | rtCheck | rtLoad | rtRun | rtStore | done =>
    cases h
    exact .inr (.inr (.inr (.inr rfl)))

/-! ### The sub-states of ENCRYPT and DECRYPT -/

theorem rtMicro_check_proceed (h : cryptVerdict dst src s = .proceed v) :
    rtMicro dir dst src ⟨.rtCheck, s⟩ = .next ⟨.rtLoad, s⟩ := by
  simp only [rtMicro, h]

theorem rtMicro_check_ends {code : Status} (h : cryptVerdict dst src s = .ends code) :
    rtMicro dir dst src ⟨.rtCheck, s⟩ = .next ⟨.done, s.raise code⟩ := by
  simp only [rtMicro, h]

theorem rtMicro_check_stuck {f : Fault} (h : cryptVerdict dst src s = .stuck f) :
    rtMicro dir dst src ⟨.rtCheck, s⟩ = .fault f := by
  simp only [rtMicro, h]

theorem rtMicro_load (hv : Variant.ofVsel s.vselL = some v) :
    rtMicro dir dst src ⟨.rtLoad, s⟩ =
      .next ⟨.rtRun, withPair v (loadBlock s.params v s.mem src) (BitVec.ofNat 7 (rtFirst dir v)) s⟩ := by
  simp only [rtMicro, hv]

theorem rtMicro_run (hv : Variant.ofVsel s.vselL = some v) :
    rtMicro dir dst src ⟨.rtRun, s⟩ = .next (rtRun dir v s) := by
  simp only [rtMicro, hv]

theorem rtMicro_store (hv : Variant.ofVsel s.vselL = some v) :
    rtMicro dir dst src ⟨.rtStore, s⟩ =
      .next ⟨.done, s.finishStore (storeBlock s.params v s.mem dst (workingPair v s))⟩ := by
  simp only [rtMicro, hv]

/-- With a reserved code latched the three sub-states after the check stop (log 12). -/
theorem rtMicro_reserved (hsub : r.sub = .rtLoad ∨ r.sub = .rtRun ∨ r.sub = .rtStore)
    (hv : Variant.ofVsel r.core.vselL = none) : rtMicro dir dst src r = .fault .reservedVariantLatched := by
  rcases hsub with hsub | hsub | hsub <;> simp only [rtMicro, hsub, hv]

/-- A round with another one to follow. -/
theorem rtRun_of_some {J : Nat} (h : rtNext dir v s.scratch.i.toNat = some J) :
    rtRun dir v s = ⟨.rtRun, withPair v (roundAt dir v (s.rkWord v.w) s.scratch.i.toNat (workingPair v s))
      (BitVec.ofNat 7 J) s⟩ := by
  simp only [rtRun, h]

/-- The last round. -/
theorem rtRun_of_none (h : rtNext dir v s.scratch.i.toNat = none) :
    rtRun dir v s = ⟨.rtStore, withPair v (roundAt dir v (s.rkWord v.w) s.scratch.i.toNat (workingPair v s))
      (rtLeave dir s.scratch.i) s⟩ := by
  simp only [rtRun, h]

/-- All that a step of a running ENCRYPT or DECRYPT can do (R140). -/
theorem rtMicro_next (h : rtMicro dir dst src r = .next r') :
    (r.sub = .rtCheck ∧ r' = ⟨.rtLoad, r.core⟩) ∨
    (∃ v, Variant.ofVsel r.core.vselL = some v ∧ r.sub = .rtLoad ∧
      r' = ⟨.rtRun, withPair v (loadBlock r.core.params v r.core.mem src) (BitVec.ofNat 7 (rtFirst dir v)) r.core⟩) ∨
    (∃ v, Variant.ofVsel r.core.vselL = some v ∧ r.sub = .rtRun ∧ r' = rtRun dir v r.core) ∨
    r'.sub = .done ∨ r' = r := by
  obtain ⟨sub, c⟩ := r
  have latched (hsub : sub = .rtLoad ∨ sub = .rtRun ∨ sub = .rtStore) : ∃ v, Variant.ofVsel c.vselL = some v := by
    cases hv : Variant.ofVsel c.vselL with
    | none => exact nomatch (rtMicro_reserved (r := ⟨sub, c⟩) hsub hv).symm.trans h
    | some v => exact ⟨v, rfl⟩
  cases sub with
  | rtCheck =>
    cases hverdict : cryptVerdict dst src c with
    | proceed u =>
      cases (rtMicro_check_proceed hverdict).symm.trans h
      exact .inl ⟨rfl, rfl⟩
    | ends code =>
      cases (rtMicro_check_ends hverdict).symm.trans h
      exact .inr (.inr (.inr (.inl rfl)))
    | stuck f => exact nomatch (rtMicro_check_stuck hverdict).symm.trans h
  | rtLoad =>
    obtain ⟨v, hv⟩ := latched (.inl rfl)
    cases (rtMicro_load hv).symm.trans h
    exact .inr (.inl ⟨v, hv, rfl, rfl⟩)
  | rtRun =>
    obtain ⟨v, hv⟩ := latched (.inr (.inl rfl))
    cases (rtMicro_run hv).symm.trans h
    exact .inr (.inr (.inl ⟨v, hv, rfl, rfl⟩))
  | rtStore =>
    obtain ⟨v, hv⟩ := latched (.inr (.inr rfl))
    cases (rtMicro_store hv).symm.trans h
    exact .inr (.inr (.inr (.inl rfl)))
  | ksCheck | ksLoad | ksRun | ksPublish | done =>
    cases h
    exact .inr (.inr (.inr (.inr rfl)))

/-! ### The round index (10_state.md R15) -/

/-- Counting up does not wrap before 127. -/
theorem toNat_countUp {I : BitVec 7} (h : I.toNat < 127) : (countUp I).toNat = I.toNat + 1 := by
  rw [countUp, BitVec.toNat_add]
  exact Nat.mod_eq_of_lt (b := 2 ^ 7) (Nat.succ_lt_succ h)

theorem ksRun_index (v : Variant) (s : State) : (ksRun v s).scratch.i = countUp s.scratch.i := by
  unfold ksRun
  split <;> rfl

theorem rtFirst_le (dir : Dir) (v : Variant) : rtFirst dir v ≤ 71 := by
  have hT := v.T_le
  cases dir <;> simp only [rtFirst] <;> omega

/-- The next index is one of a round, or below the one before it. -/
theorem rtNext_le {I J : Nat} (h : rtNext dir v I = some J) (hI : I ≤ 71) : J ≤ 71 := by
  have hT := v.T_le
  unfold rtNext at h
  split at h <;> split at h <;> cases h <;> omega

theorem toNat_rtLeave_le {I : BitVec 7} (h : I.toNat ≤ 71) : (rtLeave dir I).toNat ≤ 72 := by
  cases dir with
  | encrypt =>
    rw [rtLeave, toNat_countUp (by omega)]
    omega
  | decrypt => exact Nat.le_succ_of_le h

/-- The bound of R15 as the model reads it (log 18): 71 while a round is to come, 72 after the last. -/
def Running.IndexBounded (r : Running) : Prop :=
  r.sub ≠ .done → r.core.scratch.i.toNat ≤ if r.sub = .ksPublish ∨ r.sub = .rtStore then 72 else 71

theorem Running.IndexBounded.of_le (h : r.core.scratch.i.toNat ≤ 71) : r.IndexBounded := by
  intro _
  split <;> omega

/-- In a sub-state with a round to come the bound is 71. -/
theorem Running.IndexBounded.le_of_round (h : r.IndexBounded) (hdone : r.sub ≠ .done)
    (hround : ¬ (r.sub = .ksPublish ∨ r.sub = .rtStore)) : r.core.scratch.i.toNat ≤ 71 := by
  have hbound := h hdone
  rwa [if_neg hround] at hbound

theorem indexBounded_ksRun (h : s.scratch.i.toNat ≤ 71) (v : Variant) :
    Running.IndexBounded ⟨ksAt v (s.scratch.i.toNat + 1), ksRun v s⟩ := by
  have hlast := ksLast_le v
  intro _
  rw [ksRun_index, toNat_countUp (by omega), ksAt]
  by_cases hnext : s.scratch.i.toNat + 1 ≤ ksLast v
  · simp only [if_pos hnext, reduceCtorEq, or_self, if_false]
    omega
  · simp only [if_neg hnext, true_or, if_true]
    omega

theorem indexBounded_rtRun (h : s.scratch.i.toNat ≤ 71) (dir : Dir) (v : Variant) : (rtRun dir v s).IndexBounded := by
  cases hnext : rtNext dir v s.scratch.i.toNat with
  | some J =>
    have hle := rtNext_le hnext h
    rw [rtRun_of_some hnext]
    refine .of_le ?_
    show J % 2 ^ 7 ≤ 71
    omega
  | none =>
    rw [rtRun_of_none hnext]
    exact fun _ => toNat_rtLeave_le h

/-- Every step of a running command keeps the bound. -/
theorem micro_keeps_indexBounded (r r' : Running) (h : r.IndexBounded) (hstep : micro r = .next r') :
    r'.IndexBounded := by
  have ended {q : Running} (hdone : q.sub = .done) : q.IndexBounded := fun hnot => absurd hdone hnot
  rcases micro_cases r with ⟨-, hmicro⟩ | ⟨-, _, -, hmicro⟩ | ⟨hdone, v, key, -, hmicro⟩ |
    ⟨hdone, dir, dst, src, -, hmicro⟩ | ⟨-, -, hmicro⟩
  · cases hmicro.symm.trans hstep
    exact h
  · cases hmicro.symm.trans hstep
    exact ended rfl
  · rcases ksMicro_next (hmicro.symm.trans hstep) with ⟨hsub, rfl⟩ | ⟨-, rfl⟩ | ⟨hsub, rfl⟩ | hend | rfl
    · exact .of_le (h.le_of_round hdone (by simp [hsub]))
    · exact .of_le (by rw [toNat_ksLoad_index]; have := ksFirst_le v; omega)
    · exact indexBounded_ksRun (h.le_of_round hdone (by simp [hsub])) v
    · exact ended hend
    · exact h
  · rcases rtMicro_next (hmicro.symm.trans hstep) with ⟨hsub, rfl⟩ | ⟨v, -, -, rfl⟩ | ⟨v, -, hsub, rfl⟩ | hend | rfl
    · exact .of_le (h.le_of_round hdone (by simp [hsub]))
    · have hfirst := rtFirst_le dir v
      refine .of_le ?_
      show rtFirst dir v % 2 ^ 7 ≤ 71
      omega
    · exact indexBounded_rtRun (h.le_of_round hdone (by simp [hsub])) dir v
    · exact ended hend
    · exact h
  · cases hmicro.symm.trans hstep
    exact h

end Machine

open Machine

/-- Settles O57: the bound holds at the start and every step keeps it. -/
theorem roundIndexBounded : Obligations.RoundIndexBounded := by
  intro s n r hstart hrun
  exact microRun_keeps (P := Running.IndexBounded) micro_keeps_indexBounded (.of_le hstart) hrun

end Sys2Proof
end

section
/-! What a running command never lets go wrong: the bits above `w` of its physical registers are zero (40_arithmetic.md
R79), and its course does not depend on key, round-key or block values (70_reset_and_hazards.md R181). -/

namespace Sys2Proof

namespace Machine

variable {r r' : Running} {v : Variant} {key dst src : Desc} {dir : Dir} {s s' : State}

/-! ### What the sub-states leave of the command and the latch -/

/-- The transient registers written, nothing else. -/
def State.withScratch (s : State) (sc : Scratch) : State := { s with scratch := sc }

theorem ksLoad_eq_withScratch (v : Variant) (key : Desc) (s : State) :
    ksLoad v key s = s.withScratch (ksLoad v key s).scratch := rfl

theorem ksRun_eq_withScratch (v : Variant) (s : State) : ksRun v s = s.withScratch (ksRun v s).scratch := by
  cases hv : v.family <;> simp only [ksRun, hv] <;> rfl

theorem withPair_eq_withScratch (p : Pair v.w) (I : BitVec 7) (s : State) :
    withPair v p I s = s.withScratch (withPair v p I s).scratch := rfl

theorem ksRun_current (v : Variant) (s : State) : (ksRun v s).current = s.current := by
  rw [ksRun_eq_withScratch, State.withScratch]

/-- A round writes the working pair and the index only. -/
theorem rtRun_core (dir : Dir) (v : Variant) (s : State) : ∃ I, (rtRun dir v s).core =
    withPair v (roundAt dir v (s.rkWord v.w) s.scratch.i.toNat (workingPair v s)) I s := by
  cases hnext : rtNext dir v s.scratch.i.toNat with
  | some J => exact ⟨_, by rw [rtRun_of_some hnext]⟩
  | none => exact ⟨_, by rw [rtRun_of_none hnext]⟩

/-- Loading is followed by an iteration: every loop has one. -/
theorem ksAt_first (v : Variant) : ksAt v (ksFirst v) = .ksRun := by
  have hsum := ksFirst_add_ksTrips v
  have hpos := ksTrips_pos v
  rw [ksAt, if_pos (by omega)]

/-! ### Masked registers -/

theorem toNat_lt_of_mem_toPhysical {l : List (BitVec v.w)} {k : PWord} (h : k ∈ toPhysical l) : k.toNat < 2 ^ v.w := by
  obtain ⟨x, -, rfl⟩ := List.mem_map.mp h
  exact v.physical_lt x

/-- The registers of a running CONSTRUCT whose words have `w` bits as soon as the key is loaded. -/
structure Scratch.KsMasked (v : Variant) (sc : Scratch) : Prop where
  kw  : ∀ i : Fin 4, i.val < v.m → (sc.kw[i]).toNat < 2 ^ v.w
  k   : ∀ k ∈ sc.k, k.toNat < 2 ^ v.w
  aux : v.family = .addMix → ∀ k ∈ sc.aux, k.toNat < 2 ^ v.w

/-- KS_LOAD writes words of the variant. -/
theorem ksMasked_ksLoad (v : Variant) (key : Desc) (s : State) : (ksLoad v key s).scratch.KsMasked v where
  kw i hi := by
    have hlen : i.val < (keyWords v s.mem key).length := by rwa [length_keyWords]
    simpa [ksLoad, loadKw, hlen] using v.physical_lt (keyWords v s.mem key)[i.val]
  k k hk := toNat_lt_of_mem_toPhysical hk
  aux hv k hk := by
    simp only [ksLoad, hv] at hk
    exact toNat_lt_of_mem_toPhysical hk

/-- An iteration writes words of the variant. -/
theorem ksMasked_ksRun (h : s.scratch.KsMasked v) : (ksRun v s).scratch.KsMasked v := by
  cases hv : v.family with
  | booleanMix =>
    simp only [ksRun, hv]
    refine ⟨h.kw, fun k hk => ?_, fun ham => nomatch hv.symm.trans ham⟩
    rcases List.mem_append.mp hk with hk | hk
    · exact h.k k hk
    · rw [List.mem_singleton.mp hk]
      exact v.physical_lt _
  | addMix =>
    simp only [ksRun, hv]
    exact ⟨h.kw, fun k hk => toNat_lt_of_mem_toPhysical hk, fun _ k hk => toNat_lt_of_mem_toPhysical hk⟩

theorem tmp_ksRun_lt (hv : v.family = .booleanMix) (s : State) : (ksRun v s).scratch.tmp.toNat < 2 ^ v.w := by
  simp only [ksRun, hv]
  exact v.physical_lt _

/-- R79 of a running CONSTRUCT; `TMP` has been written once the BooleanMix loop has run. -/
def Running.KsMasked (v : Variant) (key : Desc) (r : Running) : Prop :=
  r.sub ≠ .done → decode r.core.current = .ok (Instr.construct v key) ∧
    (r.sub = .ksRun ∨ r.sub = .ksPublish → r.core.scratch.KsMasked v ∧
      (v.family = .booleanMix → r.sub = .ksPublish → r.core.scratch.tmp.toNat < 2 ^ v.w))

theorem micro_keeps_ksMasked (r r' : Running) (h : r.KsMasked v key) (hstep : micro r = .next r') :
    r'.KsMasked v key := by
  by_cases hdone : r.sub = .done
  · cases (micro_of_done hdone).symm.trans hstep
    exact h
  · obtain ⟨hdecode, hmasked⟩ := h hdone
    rcases ksMicro_next ((micro_of_construct hdone hdecode).symm.trans hstep) with
      ⟨-, rfl⟩ | ⟨-, rfl⟩ | ⟨hsub, rfl⟩ | hend | rfl
    · exact fun _ => ⟨hdecode, by simp⟩
    · rw [ksAt_first]
      exact fun _ => ⟨hdecode, fun _ => ⟨ksMasked_ksLoad v key r.core, by simp⟩⟩
    · obtain ⟨hscratch, -⟩ := hmasked (.inl hsub)
      refine fun _ => ⟨by rwa [ksRun_current], fun _ => ⟨ksMasked_ksRun hscratch, fun hv _ => tmp_ksRun_lt hv r.core⟩⟩
    · exact fun hnot => absurd hend hnot
    · exact h

/-- R79 of a running ENCRYPT or DECRYPT. -/
def Running.RtMasked (dir : Dir) (dst src : Desc) (v : Variant) (r : Running) : Prop :=
  r.sub ≠ .done → decode r.core.current = .ok (cryptInstr dir dst src) ∧ Variant.ofVsel r.core.vselL = some v ∧
    (r.sub = .rtRun ∨ r.sub = .rtStore → r.core.scratch.x.toNat < 2 ^ v.w ∧ r.core.scratch.y.toNat < 2 ^ v.w)

/-- A working pair written as words of the variant. -/
theorem rtMasked_of_withPair {p : Pair v.w} {I : BitVec 7} (hcore : r.core = withPair v p I s)
    (hdecode : decode s.current = .ok (cryptInstr dir dst src)) (hv : Variant.ofVsel s.vselL = some v) :
    r.RtMasked dir dst src v := by
  intro _
  rw [hcore]
  exact ⟨hdecode, hv, fun _ => ⟨v.physical_lt p.1, v.physical_lt p.2⟩⟩

theorem micro_keeps_rtMasked (r r' : Running) (h : r.RtMasked dir dst src v) (hstep : micro r = .next r') :
    r'.RtMasked dir dst src v := by
  by_cases hdone : r.sub = .done
  · cases (micro_of_done hdone).symm.trans hstep
    exact h
  · obtain ⟨hdecode, hv, -⟩ := h hdone
    rcases rtMicro_next ((micro_of_crypt hdone hdecode).symm.trans hstep) with
      ⟨-, rfl⟩ | ⟨u, hu, -, rfl⟩ | ⟨u, hu, -, rfl⟩ | hend | rfl
    · exact fun _ => ⟨hdecode, hv, by simp⟩
    · cases hv.symm.trans hu
      exact rtMasked_of_withPair rfl hdecode hv
    · cases hv.symm.trans hu
      obtain ⟨I, hcore⟩ := rtRun_core dir v r.core
      exact rtMasked_of_withPair hcore hdecode hv
    · exact fun hnot => absurd hend hnot
    · exact h

/-! ### Two runs of one command -/

/-- The two states agree on the command and on what its checks read. -/
structure State.SameCommand (s s' : State) : Prop where
  current : s'.current = s.current
  phase   : s'.phase = s.phase
  vselL   : s'.vselL = s.vselL
  params  : s'.params = s.params

/-- The transient registers are none of that. -/
theorem State.SameCommand.withScratch (h : s.SameCommand s') (sc sc' : Scratch) :
    (s.withScratch sc).SameCommand (s'.withScratch sc') := ⟨h.current, h.phase, h.vselL, h.params⟩

/-- The two running commands agree on that and on their control (R181). -/
structure Running.Agree (r r' : Running) : Prop where
  sub   : r.sub = r'.sub
  core  : r.core.SameCommand r'.core
  index : r.sub = .ksRun ∨ r.sub = .rtRun → r'.core.scratch.i = r.core.scratch.i

/-- Both have ended, or they agree. An ended command leaves free values, which may differ. -/
def Running.Alike (r r' : Running) : Prop := (r.sub = .done ∧ r'.sub = .done) ∨ r.Agree r'

/-- Both steps answer, alike, or both stop with one fault. -/
inductive OutcomesAlike : Host.Outcome Running Fault Refusal → Host.Outcome Running Fault Refusal → Prop where
  | next {q q' : Running} : q.Alike q' → OutcomesAlike (.next q) (.next q')
  | fault (f : Fault) : OutcomesAlike (.fault f) (.fault f)

theorem OutcomesAlike.ended (t t' : State) : OutcomesAlike (.next ⟨.done, t⟩) (.next ⟨.done, t'⟩) :=
  .next (.inl ⟨rfl, rfl⟩)

/-- One sub-state, whose index agrees where it counts. -/
theorem OutcomesAlike.sameSub {sub : SubState} (hcore : s.SameCommand s')
    (hindex : sub = .ksRun ∨ sub = .rtRun → s'.scratch.i = s.scratch.i) :
    OutcomesAlike (.next ⟨sub, s⟩) (.next ⟨sub, s'⟩) := .next (.inr ⟨rfl, hcore, hindex⟩)

theorem ksMicro_alike (h : r.Agree r') : OutcomesAlike (ksMicro v key r) (ksMicro v key r') := by
  obtain ⟨hsub, hcore, hindex⟩ := h
  obtain ⟨sub, c⟩ := r
  obtain ⟨sub', c'⟩ := r'
  cases hsub
  cases sub with
  | ksCheck =>
    cases hverdict : constructVerdict c.params.addrBits v key with
    | proceed u =>
      rw [ksMicro_check_proceed hverdict, ksMicro_check_proceed (by rwa [hcore.params])]
      exact .sameSub hcore (by simp)
    | ends code =>
      rw [ksMicro_check_ends hverdict, ksMicro_check_ends (by rwa [hcore.params])]
      exact .ended _ _
    | stuck f => exact absurd hverdict constructVerdict_not_stuck
  | ksLoad =>
    rw [ksMicro_load, ksMicro_load]
    refine .sameSub (hcore.withScratch _ _) fun _ => BitVec.eq_of_toNat_eq ?_
    rw [toNat_ksLoad_index, toNat_ksLoad_index]
  | ksRun =>
    have hsame : c'.scratch.i = c.scratch.i := hindex (.inl rfl)
    rw [ksMicro_run, ksMicro_run, hsame, ksRun_eq_withScratch v c, ksRun_eq_withScratch v c']
    refine .sameSub (hcore.withScratch _ _) fun _ => ?_
    exact (ksRun_index v c').trans ((congrArg countUp hsame).trans (ksRun_index v c).symm)
  | ksPublish => exact .ended _ _
  | rtCheck | rtLoad | rtRun | rtStore | done => exact .sameSub hcore hindex

/-- The checks of ENCRYPT and DECRYPT read `PHASE`, `VSEL_L` and the parameters only. -/
theorem cryptVerdict_congr (h : s.SameCommand s') : cryptVerdict dst src s' = cryptVerdict dst src s := by
  simp only [cryptVerdict, latchedVerdict, h.phase, h.vselL, h.params]

/-- Which round follows depends on the index only. -/
theorem rtRun_alike (hcore : s.SameCommand s') (hindex : s'.scratch.i = s.scratch.i) :
    OutcomesAlike (.next (rtRun dir v s)) (.next (rtRun dir v s')) := by
  cases hnext : rtNext dir v s.scratch.i.toNat with
  | some J =>
    rw [rtRun_of_some hnext, rtRun_of_some (by rwa [hindex])]
    exact .sameSub (hcore.withScratch _ _) fun _ => rfl
  | none =>
    rw [rtRun_of_none hnext, rtRun_of_none (by rwa [hindex])]
    exact .sameSub (hcore.withScratch _ _) (by simp)

theorem rtMicro_alike (h : r.Agree r') : OutcomesAlike (rtMicro dir dst src r) (rtMicro dir dst src r') := by
  obtain ⟨hsub, hcore, hindex⟩ := h
  obtain ⟨sub, c⟩ := r
  obtain ⟨sub', c'⟩ := r'
  cases hsub
  have reserved (hlate : sub = .rtLoad ∨ sub = .rtRun ∨ sub = .rtStore) (hv : Variant.ofVsel c.vselL = none) :
      OutcomesAlike (rtMicro dir dst src ⟨sub, c⟩) (rtMicro dir dst src ⟨sub, c'⟩) := by
    rw [rtMicro_reserved hlate hv, rtMicro_reserved hlate (hcore.vselL ▸ hv)]
    exact .fault _
  cases sub with
  | rtCheck =>
    have hsame : cryptVerdict dst src c' = cryptVerdict dst src c := cryptVerdict_congr hcore
    cases hverdict : cryptVerdict dst src c with
    | proceed u =>
      rw [rtMicro_check_proceed hverdict, rtMicro_check_proceed (hsame.trans hverdict)]
      exact .sameSub hcore (by simp)
    | ends code =>
      rw [rtMicro_check_ends hverdict, rtMicro_check_ends (hsame.trans hverdict)]
      exact .ended _ _
    | stuck f =>
      rw [rtMicro_check_stuck hverdict, rtMicro_check_stuck (hsame.trans hverdict)]
      exact .fault f
  | rtLoad =>
    cases hv : Variant.ofVsel c.vselL with
    | none => exact reserved (.inl rfl) hv
    | some v =>
      rw [rtMicro_load hv, rtMicro_load (hcore.vselL ▸ hv)]
      exact .sameSub (hcore.withScratch _ _) fun _ => rfl
  | rtRun =>
    cases hv : Variant.ofVsel c.vselL with
    | none => exact reserved (.inr (.inl rfl)) hv
    | some v =>
      rw [rtMicro_run hv, rtMicro_run (hcore.vselL ▸ hv)]
      exact rtRun_alike hcore (hindex (.inr rfl))
  | rtStore =>
    cases hv : Variant.ofVsel c.vselL with
    | none => exact reserved (.inr (.inr rfl)) hv
    | some v =>
      rw [rtMicro_store hv, rtMicro_store (hcore.vselL ▸ hv)]
      exact .ended _ _
  | ksCheck | ksLoad | ksRun | ksPublish | done => exact .sameSub hcore hindex

/-- One step of each of two runs that are alike. -/
theorem micro_alike (h : r.Alike r') : OutcomesAlike (micro r) (micro r') := by
  rcases h with ⟨hdone, hdone'⟩ | hagree
  · rw [micro_of_done hdone, micro_of_done hdone']
    exact .next (.inl ⟨hdone, hdone'⟩)
  · have hcurrent := hagree.core.current
    have hsub := hagree.sub
    rcases micro_cases r with ⟨hdone, hmicro⟩ | ⟨hdone, e, hdecode, hmicro⟩ | ⟨hdone, v, key, hdecode, hmicro⟩ |
      ⟨hdone, dir, dst, src, hdecode, hmicro⟩ | ⟨hdone, hdecode, hmicro⟩
    · rw [hmicro, micro_of_done (hsub ▸ hdone)]
      exact .next (.inr hagree)
    · rw [hmicro, micro_of_error (hsub ▸ hdone) (hcurrent ▸ hdecode)]
      exact .ended _ _
    · rw [hmicro, micro_of_construct (hsub ▸ hdone) (hcurrent ▸ hdecode)]
      exact ksMicro_alike hagree
    · rw [hmicro, micro_of_crypt (hsub ▸ hdone) (hcurrent ▸ hdecode)]
      exact rtMicro_alike hagree
    · rw [hmicro, micro_of_blocksize (hsub ▸ hdone) (hcurrent ▸ hdecode)]
      exact .next (.inr hagree)

/-- Runs of one length of two running commands that are alike. -/
theorem microRun_alike (n : Nat) (h : r.Alike r') : OutcomesAlike (microRun n r) (microRun n r') := by
  induction n generalizing r r' with
  | zero => exact .next h
  | succ n ih =>
    have hstep := micro_alike h
    unfold microRun
    generalize micro r = o, micro r' = o' at hstep
    cases hstep with
    | next hnext => exact ih hnext
    | fault f => exact .fault f

/-- Alike is all that control shows. -/
theorem Running.Alike.control (h : r.Alike r') : r.control = r'.control := by
  obtain ⟨sub, c⟩ := r
  obtain ⟨sub', c'⟩ := r'
  rcases h with ⟨hdone, hdone'⟩ | ⟨hsub, -, hindex⟩
  · cases hdone
    cases hdone'
    rfl
  · cases hsub
    cases sub with
    | ksRun => exact congrArg (fun i => (SubState.ksRun, some i)) (hindex (.inl rfl)).symm
    | rtRun => exact congrArg (fun i => (SubState.rtRun, some i)) (hindex (.inr rfl)).symm
    | ksCheck | ksLoad | ksPublish | rtCheck | rtLoad | rtStore | done => rfl

theorem controlAfter_alike (n : Nat) (h : r.Alike r') : controlAfter n r = controlAfter n r' := by
  have houtcomes := microRun_alike n h
  unfold controlAfter
  generalize microRun n r = o, microRun n r' = o' at houtcomes
  cases houtcomes with
  | next hnext => exact congrArg some hnext.control
  | fault f => rfl

/-- A command starts in no sub-state whose index counts. -/
theorem firstSub_not_running (c : Command) : ¬ (firstSub c = .ksRun ∨ firstSub c = .rtRun) := by
  unfold firstSub
  split <;> simp

end Machine

open Machine

/-- Settles O53: every step of a running command writes words of its variant. -/
theorem runningWordsAreMasked : Obligations.RunningWordsAreMasked := by
  refine ⟨fun v key s n r hdecode hrun hsub => ?construct, fun dir dst src v s n r hdecode hv hrun hsub => ?crypt⟩
  case construct =>
    have hstart : Running.KsMasked v key ⟨.ksCheck, s⟩ := fun _ => ⟨hdecode, by simp⟩
    have hmasked := microRun_keeps micro_keeps_ksMasked hstart hrun
    obtain ⟨-, hregisters⟩ := hmasked (by rcases hsub with hsub | hsub <;> simp [hsub])
    obtain ⟨⟨hkw, hk, haux⟩, htmp⟩ := hregisters hsub
    exact ⟨hkw, hk, haux, htmp⟩
  case crypt =>
    have hstart : Running.RtMasked dir dst src v ⟨.rtCheck, s⟩ := fun _ => ⟨hdecode, hv, by simp⟩
    have hmasked := microRun_keeps micro_keeps_rtMasked hstart hrun
    obtain ⟨-, -, hpair⟩ := hmasked (by rcases hsub with hsub | hsub <;> simp [hsub])
    exact hpair hsub

/-- Settles O52: two starts of one command are alike, every step keeps them so, and control shows no more. -/
theorem constantControlFlow : Obligations.ConstantControlFlow := by
  intro s s' hcurrent hphase hvselL hparams n
  exact controlAfter_alike n
    (.inr ⟨rfl, ⟨hcurrent, hphase, hvselL, hparams⟩, fun hrunning => absurd hrunning (firstSub_not_running _)⟩)

end Sys2Proof
end

section
/-! The stepping refinement (42_key_schedule.md R112, 43_round_transform.md R140): what the transient registers hold in each
iteration of a ready command, and that its end is the state of the command level. -/

namespace Sys2Proof

namespace Machine

variable {v : Variant} {key dst src : Desc} {dir : Dir} {s : State} {sc : Scratch} {d : Nat}

/-! ### The check -/

theorem firstSub_of_construct {c : Command} (hop : c.op = 1) : firstSub c = .ksCheck := by
  have hone : c.op.toNat = 1 := congrArg BitVec.toNat hop
  simp only [firstSub, hone]

theorem firstSub_of_crypt {c : Command} (hop : c.op = 2 ∨ c.op = 3) : firstSub c = .rtCheck := by
  have hop' : c.op.toNat = 2 ∨ c.op.toNat = 3 := hop.imp (congrArg BitVec.toNat) (congrArg BitVec.toNat)
  rcases hop' with hop' | hop' <;> simp only [firstSub, hop']

theorem op_of_decode_construct {c : Command} (h : decode c = .ok (Instr.construct v key)) : c.op = 1 := by
  have hoperation := operation_construct v key
  rcases decode_eq_ok h with ⟨_, hop, -, -⟩ | ⟨-, -, hi⟩ | ⟨-, -, hi⟩ | ⟨-, -, hi⟩
  · exact hop
  all_goals
    rw [hi] at hoperation
    exact nomatch hoperation

theorem op_of_decode_crypt {c : Command} (h : decode c = .ok (cryptInstr dir dst src)) : c.op = 2 ∨ c.op = 3 := by
  rcases decode_eq_ok h with ⟨u, -, -, hi⟩ | ⟨hop, -, -⟩ | ⟨hop, -, -⟩ | ⟨-, -, hi⟩
  · have hconstruct := isConstruct_construct u c.a
    rw [← hi, isConstruct_cryptInstr] at hconstruct
    exact nomatch hconstruct
  · exact .inl hop
  · exact .inr hop
  · cases dir <;> exact nomatch hi

/-! ### CONSTRUCT: the registers after `d` iterations -/

@[simp] theorem ofPhysical_toPhysical (l : List (BitVec v.w)) : ofPhysical v.w (toPhysical l) = l := by
  simp [ofPhysical, toPhysical, Function.comp_def]

theorem toPhysical_append_singleton (l : List (BitVec v.w)) (x : BitVec v.w) :
    toPhysical (l ++ [x]) = toPhysical l ++ [x.setWidth 64] := by
  simp [toPhysical]

/-- The seed slots of a key buffer. -/
def keySlots (v : Variant) (key : Desc) (s : State) : List (BitVec v.w) :=
  seedSlots (s.params.keymap v) (keyWords v s.mem key)

/-- `k[]` and, for AddMix, `AUX` after `d` iterations. -/
def ksStreams (p : Parameters) (v : Variant) (slots : List (BitVec v.w)) (d : Nat) :
    List (BitVec v.w) × List (BitVec v.w) :=
  match v.family with
  | .booleanMix => (bmExpand v.m (v.m + d) (cbit p v) slots, [])
  | .addMix     => amExpand v.rotA v.rotB (d + 1) slots

theorem ksStreams_booleanMix (hv : v.family = .booleanMix) (p : Parameters) (slots : List (BitVec v.w)) (d : Nat) :
    ksStreams p v slots d = (bmExpand v.m (v.m + d) (cbit p v) slots, []) := by
  simp only [ksStreams, hv]

theorem ksStreams_addMix (hv : v.family = .addMix) (p : Parameters) (slots : List (BitVec v.w)) (d : Nat) :
    ksStreams p v slots d = amExpand v.rotA v.rotB (d + 1) slots := by
  simp only [ksStreams, hv]

/-- After all iterations `k[]` is the expanded key (R111). -/
theorem ksStreams_ksTrips (p : Parameters) (v : Variant) (slots : List (BitVec v.w)) :
    (ksStreams p v slots (ksTrips v)).1 = expand p v slots := by
  have hm := v.m_lt_T
  cases hv : v.family with
  | booleanMix =>
    rw [ksStreams_booleanMix hv, expand_booleanMix p hv, ksTrips, hv]
    simp only
    rw [Nat.add_sub_cancel' (Nat.le_of_lt hm)]
  | addMix =>
    rw [ksStreams_addMix hv, expand_addMix p hv, ksTrips, hv]
    simp only
    rw [Nat.sub_add_cancel (by omega)]

/-- The transient registers of a running CONSTRUCT after `d` iterations. -/
structure KsRegisters (v : Variant) (key : Desc) (s : State) (d : Nat) (sc : Scratch) : Prop where
  index : sc.i.toNat = ksFirst v + d
  k     : sc.k = toPhysical (ksStreams s.params v (keySlots v key s) d).1
  aux   : v.family = .addMix → sc.aux = toPhysical (ksStreams s.params v (keySlots v key s) d).2
  lr    : s.params.csrc v = some .registerU → sc.lr = lfsrAfter s.params.taps.u d

/-- KS_LOAD seeds the streams. -/
theorem ksRegisters_ksLoad (v : Variant) (key : Desc) (s : State) :
    KsRegisters v key s 0 (ksLoad v key s).scratch where
  index := toNat_ksLoad_index v key s
  k := by
    cases hv : v.family with
    | booleanMix =>
      rw [ksStreams_booleanMix hv, Nat.add_zero, bmExpand_self]
      simp only [ksLoad, hv, keySlots]
    | addMix =>
      rw [ksStreams_addMix hv, Nat.zero_add, amExpand_one]
      simp only [ksLoad, hv, keySlots]
  aux hv := by
    rw [ksStreams_addMix hv, Nat.zero_add, amExpand_one]
    simp only [ksLoad, hv, keySlots]
  lr hu := by
    simp only [ksLoad, hu, lfsrAfter]

/-- The live register and the table give the same constant bit (log 18). -/
theorem ksConstantBit_eq_cbit (h : KsRegisters v key s d sc) (hv : v.family = .booleanMix) (hd : d < ksTrips v) :
    ksConstantBit v (s.withScratch sc) = cbit s.params v d := by
  have hindex : sc.i.toNat - v.m = d := by
    rw [h.index, ksFirst_booleanMix hv, Nat.add_sub_cancel_left]
  have hparams : (s.withScratch sc).params = s.params := rfl
  have hscratch : (s.withScratch sc).scratch = sc := rfl
  unfold ksConstantBit
  rw [hparams, hscratch]
  cases hsource : s.params.csrc v with
  | none => simp only [hindex]
  | some source =>
    cases source with
    | table z => simp only [hindex]
    | registerU =>
      cases Parameters.csrc_registerU hsource
      have hd28 : d < 28 := hd
      simp only
      rw [h.lr hsource, cbit_registerU hsource, Nat.mod_eq_of_lt (by omega)]

/-- Every iteration of the loop has an index that counting up does not wrap. -/
theorem KsRegisters.index_lt (h : KsRegisters v key s d sc) (hd : d < ksTrips v) : sc.i.toNat ≤ ksLast v := by
  have hsum := ksFirst_add_ksTrips v
  rw [h.index]
  omega

theorem ksRegisters_ksRun_index (h : KsRegisters v key s d sc) (hd : d < ksTrips v) :
    (ksRun v (s.withScratch sc)).scratch.i.toNat = ksFirst v + (d + 1) := by
  have hlast := ksLast_le v
  have hlt := h.index_lt hd
  rw [ksRun_index]
  exact (toNat_countUp (by show sc.i.toNat < 127; omega)).trans (by rw [State.withScratch, h.index, Nat.add_assoc])

/-- KS_RUN for BooleanMix is the recurrence at the next index (R106). -/
theorem ksRegisters_ksRun_booleanMix (h : KsRegisters v key s d sc) (hv : v.family = .booleanMix)
    (hd : d < ksTrips v) : KsRegisters v key s (d + 1) (ksRun v (s.withScratch sc)).scratch where
  index := ksRegisters_ksRun_index h hd
  k := by
    have hindex : sc.i.toNat = v.m + d := by rw [h.index, ksFirst_booleanMix hv]
    have hk : sc.k = toPhysical (bmExpand v.m (v.m + d) (cbit s.params v) (keySlots v key s)) := by
      rw [h.k, ksStreams_booleanMix hv]
    have hrun : (ksRun v (s.withScratch sc)).scratch.k =
        sc.k ++ [(bmKey v.m (ksConstantBit v (s.withScratch sc)) (ofPhysical v.w sc.k) sc.i.toNat).setWidth 64] := by
      simp only [ksRun, hv]
      rfl
    rw [hrun, ksConstantBit_eq_cbit h hv hd, ksStreams_booleanMix hv, ← Nat.add_assoc,
      bmExpand_succ (Nat.le_add_right _ _), Nat.add_sub_cancel_left, toPhysical_append_singleton, hindex, hk,
      ofPhysical_toPhysical]
  aux ham := nomatch hv.symm.trans ham
  lr hu := by
    have hrun : (ksRun v (s.withScratch sc)).scratch.lr = lfsrStep s.params.taps.u sc.lr := by
      simp only [ksRun, hv, ksRunBm, State.withScratch, hu]
    rw [hrun, h.lr hu, lfsrAfter]

/-- KS_RUN for AddMix is the recurrence at the next index (R108). -/
theorem ksRegisters_ksRun_addMix (h : KsRegisters v key s d sc) (hv : v.family = .addMix)
    (hd : d < ksTrips v) : KsRegisters v key s (d + 1) (ksRun v (s.withScratch sc)).scratch := by
  have hindex : sc.i.toNat = d := by rw [h.index, ksFirst_addMix hv, Nat.zero_add]
  have hstreams : amStep v.rotA v.rotB (ofPhysical v.w sc.k, ofPhysical v.w sc.aux) sc.i.toNat =
      ksStreams s.params v (keySlots v key s) (d + 1) := by
    rw [h.k, h.aux hv, ofPhysical_toPhysical, ofPhysical_toPhysical, hindex, ksStreams_addMix hv, ksStreams_addMix hv,
      amExpand_succ]
  refine ⟨ksRegisters_ksRun_index h hd, ?k, fun _ => ?aux, fun hu => ?lr⟩
  case k =>
    rw [← hstreams]
    simp only [ksRun, hv]
    rfl
  case aux =>
    rw [← hstreams]
    simp only [ksRun, hv]
    rfl
  case lr =>
    have hsource := s.params.csrc_isSome v
    rw [hu, hv] at hsource
    exact nomatch hsource

theorem ksRegisters_ksRun (h : KsRegisters v key s d sc) (hd : d < ksTrips v) :
    KsRegisters v key s (d + 1) (ksRun v (s.withScratch sc)).scratch := by
  cases hv : v.family with
  | booleanMix => exact ksRegisters_ksRun_booleanMix h hv hd
  | addMix => exact ksRegisters_ksRun_addMix h hv hd

/-- The sub-state with `d` iterations done. -/
theorem ksAt_add (v : Variant) (d : Nat) : ksAt v (ksFirst v + d) = if d < ksTrips v then .ksRun else .ksPublish := by
  have hsum := ksFirst_add_ksTrips v
  have hiff : ksFirst v + d ≤ ksLast v ↔ d < ksTrips v := by omega
  simp only [ksAt, hiff]

/-- A ready CONSTRUCT after its check, its load and `d` iterations (R112). -/
theorem microRun_construct (hdecode : decode s.current = .ok (Instr.construct v key)) (hready : s.ConstructReady v key)
    (hd : d ≤ ksTrips v) :
    ∃ sc, microRun (d + 2) ⟨.ksCheck, s⟩ =
        .next ⟨if d < ksTrips v then .ksRun else .ksPublish, s.withScratch sc⟩ ∧ KsRegisters v key s d sc := by
  induction d with
  | zero =>
    have hverdict : constructVerdict s.params.addrBits v key = .proceed v :=
      constructVerdict_proceed.mpr ⟨rfl, hready.fits, hready.len⟩
    have hcheck : micro ⟨.ksCheck, s⟩ = .next ⟨.ksLoad, s⟩ :=
      (micro_of_construct (r := ⟨.ksCheck, s⟩) nofun hdecode).trans (ksMicro_check_proceed hverdict)
    have hload : micro ⟨.ksLoad, s⟩ = .next ⟨ksAt v (ksFirst v), ksLoad v key s⟩ :=
      (micro_of_construct (r := ⟨.ksLoad, s⟩) nofun hdecode).trans (ksMicro_load v key s)
    refine ⟨(ksLoad v key s).scratch, ?_, ksRegisters_ksLoad v key s⟩
    rw [if_pos (ksTrips_pos v), ← ksAt_first, ← ksLoad_eq_withScratch]
    exact microRun_succ_last (microRun_one hcheck) hload
  | succ d ih =>
    obtain ⟨sc, hrun, hregisters⟩ := ih (by omega)
    rw [if_pos (show d < ksTrips v by omega)] at hrun
    have hiterate : micro ⟨.ksRun, s.withScratch sc⟩ =
        .next ⟨ksAt v (sc.i.toNat + 1), ksRun v (s.withScratch sc)⟩ :=
      (micro_of_construct (r := ⟨.ksRun, s.withScratch sc⟩) nofun hdecode).trans (ksMicro_run v key _)
    refine ⟨(ksRun v (s.withScratch sc)).scratch, ?_, ksRegisters_ksRun hregisters (by omega)⟩
    rw [← ksAt_add, ← Nat.add_assoc, ← hregisters.index]
    refine (microRun_succ_last hrun hiterate).trans ?_
    rw [ksRun_eq_withScratch]
    rfl

/-- A ready CONSTRUCT to its end: the state that the command level publishes. -/
theorem microRun_construct_end (hdecode : decode s.current = .ok (Instr.construct v key))
    (hready : s.ConstructReady v key) :
    microRun (ksTrips v + 3) ⟨.ksCheck, s⟩ = .next ⟨.done, s.publish v (roundKeys s.params v s.mem key)⟩ := by
  obtain ⟨sc, hrun, hregisters⟩ := microRun_construct hdecode hready (le_refl _)
  rw [if_neg (lt_irrefl _)] at hrun
  have hpublish : micro ⟨.ksPublish, s.withScratch sc⟩ = .next ⟨.done, (s.withScratch sc).publish v sc.k⟩ :=
    (micro_of_construct (r := ⟨.ksPublish, s.withScratch sc⟩) nofun hdecode).trans (ksMicro_publish v key _)
  have hkeys : sc.k = roundKeys s.params v s.mem key := by
    rw [hregisters.k, ksStreams_ksTrips]
    rfl
  rw [microRun_succ_last hrun hpublish, hkeys]
  rfl

/-! ### ENCRYPT and DECRYPT: the registers after `d` rounds -/

/-- The index with `d` rounds done: that of the round to come, and after the last one what `rtLeave` leaves. -/
def rtIndex (dir : Dir) (v : Variant) (d : Nat) : Nat :=
  match dir with
  | .encrypt => d
  | .decrypt => roundIndex .decrypt v (min d (rtTrips v - 1))

theorem rtTrips_pos (v : Variant) : 0 < rtTrips v := by cases v <;> decide

theorem rtIndex_zero (dir : Dir) (v : Variant) : rtIndex dir v 0 = rtFirst dir v := by
  cases dir with
  | encrypt => rfl
  | decrypt => cases hshape : v.shape <;> simp [rtIndex, roundIndex, rtFirst, hshape]

/-- While a round is to come the index is that of the round. -/
theorem rtIndex_eq_roundIndex (hd : d < rtTrips v) : rtIndex dir v d = roundIndex dir v d := by
  cases dir with
  | encrypt => rfl
  | decrypt => rw [rtIndex, Nat.min_eq_left (by omega)]

/-- After the last round a DECRYPT has not counted on. -/
theorem rtIndex_decrypt_last (hd : d + 1 = rtTrips v) : rtIndex .decrypt v (d + 1) = rtIndex .decrypt v d := by
  simp only [rtIndex, ← hd, Nat.add_sub_cancel, Nat.min_self, Nat.min_eq_right (Nat.le_succ d)]

theorem rtIndex_le (hd : d < rtTrips v) : rtIndex dir v d ≤ 71 := by
  have hT := v.T_le
  cases dir with
  | encrypt =>
    show d ≤ 71
    cases hshape : v.shape <;> simp only [rtTrips, hshape] at hd <;> omega
  | decrypt =>
    rw [rtIndex_eq_roundIndex hd]
    cases hshape : v.shape <;> simp only [roundIndex, hshape] <;> omega

/-- The index of the next round is the one the next turn has. -/
theorem rtNext_of_more (hmore : d + 1 < rtTrips v) :
    rtNext dir v (roundIndex dir v d) = some (roundIndex dir v (d + 1)) := by
  cases hshape : v.shape with
  | double =>
    have hT := v.T_even hshape
    rw [rtTrips_double hshape] at hmore
    cases dir <;> simp only [rtNext, roundIndex, hshape]
    · exact if_pos (by omega)
    · exact (if_pos (by omega)).trans (congrArg some (by omega))
  | swap | add =>
    simp only [rtTrips, hshape] at hmore
    cases dir <;> simp only [rtNext, roundIndex, hshape]
    · exact if_pos (by omega)
    · exact (if_pos (by omega)).trans (congrArg some (by omega))

/-- No round follows the last turn. -/
theorem rtNext_of_last (hlast : d + 1 = rtTrips v) : rtNext dir v (roundIndex dir v d) = none := by
  cases hshape : v.shape with
  | double =>
    have hT := v.T_even hshape
    rw [rtTrips_double hshape] at hlast
    cases dir <;> simp only [rtNext, roundIndex, hshape] <;> exact if_neg (by omega)
  | swap | add =>
    simp only [rtTrips, hshape] at hlast
    cases dir <;> simp only [rtNext, roundIndex, hshape] <;> exact if_neg (by omega)

/-- The transient registers of a running ENCRYPT or DECRYPT with `d` rounds done. -/
structure RtRegisters (dir : Dir) (v : Variant) (src : Desc) (s : State) (d : Nat) (sc : Scratch) : Prop where
  index : sc.i.toNat = rtIndex dir v d
  pair  : workingPair v (s.withScratch sc) = cryptPair dir v src s d

theorem workingPair_withPair (p : Pair v.w) (I : BitVec 7) (s : State) : workingPair v (withPair v p I s) = p := by
  simp [workingPair, withPair]

theorem rtRegisters_load (dir : Dir) (v : Variant) (src : Desc) (s : State) :
    RtRegisters dir v src s 0
      (withPair v (loadBlock s.params v s.mem src) (BitVec.ofNat 7 (rtFirst dir v)) s).scratch where
  index := by
    have hfirst := rtFirst_le dir v
    rw [rtIndex_zero]
    exact Nat.mod_eq_of_lt (b := 2 ^ 7) (by omega)
  pair := workingPair_withPair _ _ s

/-- A round with `d` rounds done before it: the pair of the next turn, and the next index. -/
theorem rtRun_eq (h : RtRegisters dir v src s d sc) (hd : d < rtTrips v) :
    ∃ I : BitVec 7, I.toNat = rtIndex dir v (d + 1) ∧ rtRun dir v (s.withScratch sc) =
      ⟨if d + 1 < rtTrips v then .rtRun else .rtStore,
        withPair v (cryptPair dir v src s (d + 1)) I (s.withScratch sc)⟩ := by
  have hindex : sc.i.toNat = roundIndex dir v d := h.index.trans (rtIndex_eq_roundIndex hd)
  have hround : roundAt dir v ((s.withScratch sc).rkWord v.w) (s.withScratch sc).scratch.i.toNat
      (workingPair v (s.withScratch sc)) = cryptPair dir v src s (d + 1) := by
    rw [h.pair, cryptPair_succ, turn, ← hindex]
    rfl
  by_cases hmore : d + 1 < rtTrips v
  · have hnext : rtNext dir v sc.i.toNat = some (rtIndex dir v (d + 1)) := by
      rw [hindex, rtNext_of_more hmore, rtIndex_eq_roundIndex hmore]
    have hle := rtIndex_le (dir := dir) hmore
    refine ⟨BitVec.ofNat 7 (rtIndex dir v (d + 1)), Nat.mod_eq_of_lt (b := 2 ^ 7) (by omega), ?_⟩
    rw [if_pos hmore, rtRun_of_some hnext, hround]
  · have hlast : d + 1 = rtTrips v := by omega
    have hnext : rtNext dir v sc.i.toNat = none := by rw [hindex, rtNext_of_last hlast]
    have hle := rtIndex_le (dir := dir) hd
    refine ⟨rtLeave dir sc.i, ?_, ?_⟩
    · cases dir with
      | encrypt => rw [rtLeave, toNat_countUp (by rw [h.index]; omega), h.index, rtIndex, rtIndex]
      | decrypt => exact h.index.trans (rtIndex_decrypt_last hlast).symm
    · rw [if_neg hmore, rtRun_of_none hnext, hround]
      rfl

/-- A ready ENCRYPT or DECRYPT after its check, its load and `d` rounds (R140). -/
theorem microRun_crypt (hdecode : decode s.current = .ok (cryptInstr dir dst src)) (hready : s.CryptReady v dst src)
    (hd : d ≤ rtTrips v) :
    ∃ sc, microRun (d + 2) ⟨.rtCheck, s⟩ =
        .next ⟨if d < rtTrips v then .rtRun else .rtStore, s.withScratch sc⟩ ∧ RtRegisters dir v src s d sc := by
  induction d with
  | zero =>
    have hverdict : cryptVerdict dst src s = .proceed v := cryptVerdict_proceed.mpr
      ⟨hready.dstFits, hready.srcFits, hready.phase, hready.variant, hready.srcLen, hready.dstLen⟩
    have hcheck : micro ⟨.rtCheck, s⟩ = .next ⟨.rtLoad, s⟩ :=
      (micro_of_crypt (r := ⟨.rtCheck, s⟩) nofun hdecode).trans (rtMicro_check_proceed hverdict)
    have hload := (micro_of_crypt (r := ⟨.rtLoad, s⟩) nofun hdecode).trans (rtMicro_load hready.variant)
    refine ⟨_, ?_, rtRegisters_load dir v src s⟩
    rw [if_pos (rtTrips_pos v), ← withPair_eq_withScratch]
    exact microRun_succ_last (microRun_one hcheck) hload
  | succ d ih =>
    obtain ⟨sc, hrun, hregisters⟩ := ih (by omega)
    rw [if_pos (show d < rtTrips v by omega)] at hrun
    have hround := (micro_of_crypt (r := ⟨.rtRun, s.withScratch sc⟩) nofun hdecode).trans (rtMicro_run hready.variant)
    obtain ⟨I, hI, hcore⟩ := rtRun_eq hregisters (by omega)
    refine ⟨(withPair v (cryptPair dir v src s (d + 1)) I (s.withScratch sc)).scratch, ?_, hI,
      workingPair_withPair _ _ (s.withScratch sc)⟩
    exact (microRun_succ_last hrun hround).trans (congrArg Host.Outcome.next hcore)

/-- A ready ENCRYPT or DECRYPT to its end: the state that the command level leaves. -/
theorem microRun_crypt_end (hdecode : decode s.current = .ok (cryptInstr dir dst src))
    (hready : s.CryptReady v dst src) :
    microRun (rtTrips v + 3) ⟨.rtCheck, s⟩ = .next ⟨.done, s.finishStore (cryptMemory dir v dst src s)⟩ := by
  obtain ⟨sc, hrun, hregisters⟩ := microRun_crypt hdecode hready (le_refl _)
  rw [if_neg (lt_irrefl _)] at hrun
  have hstore := (micro_of_crypt (r := ⟨.rtStore, s.withScratch sc⟩) nofun hdecode).trans (rtMicro_store hready.variant)
  have hpair : workingPair v (s.withScratch sc) =
      transform dir v (s.rkWord v.w) (loadBlock s.params v s.mem src) := by
    rw [hregisters.pair, cryptPair, transform_eq_pairAfter]
  rw [microRun_succ_last hrun hstore, hpair]
  rfl

end Machine

open Machine

/-- Settles O50: a ready command publishes the list it has made, any other ends at its check. -/
theorem constructSteppingRefines : Obligations.ConstructSteppingRefines := by
  refine ⟨fun v key s t hdecode hexec => ⟨firstSub_of_construct (op_of_decode_construct hdecode), ?outcome⟩,
    fun s e hop hdecode =>
      ⟨firstSub_of_construct hop, microRun_one (micro_of_error (r := ⟨.ksCheck, s⟩) nofun hdecode)⟩⟩
  case outcome =>
    rw [exec_construct] at hexec
    rcases construct_next.mp hexec with ⟨hfits, hlen, rfl⟩ | ⟨code, hends, rfl⟩
    · exact ⟨fun _ => microRun_construct_end hdecode ⟨hfits, hlen⟩, fun hfail => absurd rfl hfail⟩
    · refine ⟨fun hok => ?_, fun _ =>
        microRun_one ((micro_of_construct (r := ⟨.ksCheck, s⟩) nofun hdecode).trans (ksMicro_check_ends hends))⟩
      rcases constructVerdict_ends.mp hends with ⟨-, rfl⟩ | ⟨-, -, rfl⟩ <;> exact nomatch hok

/-- Settles O51: a ready command stores the pair it has made, any other ends at its check. -/
theorem cryptSteppingRefines : Obligations.CryptSteppingRefines := by
  refine ⟨fun dir dst src s t hdecode hexec => ⟨firstSub_of_crypt (op_of_decode_crypt hdecode), ?outcome⟩,
    fun s e hop hdecode =>
      ⟨firstSub_of_crypt hop, microRun_one (micro_of_error (r := ⟨.rtCheck, s⟩) nofun hdecode)⟩⟩
  case outcome =>
    rw [exec_cryptInstr] at hexec
    rcases crypt_next.mp hexec with ⟨v, hv, rfl⟩ | ⟨code, hends, rfl⟩
    · obtain ⟨hdst, hsrc, hphase, hlatched, hsrcLen, hdstLen⟩ := cryptVerdict_proceed.mp hv
      have hready : s.CryptReady v dst src := ⟨hphase, hlatched, hdst, hsrc, hdstLen, hsrcLen⟩
      exact ⟨fun _ => ⟨v, hlatched, microRun_crypt_end hdecode hready⟩, fun hfail => absurd rfl hfail⟩
    · refine ⟨fun hok => ?_, fun _ =>
        microRun_one ((micro_of_crypt (r := ⟨.rtCheck, s⟩) nofun hdecode).trans (rtMicro_check_ends hends))⟩
      rcases cryptVerdict_ends hends with ⟨-, rfl⟩ | ⟨-, rfl⟩ | ⟨_, -, -, rfl⟩ <;> exact nomatch hok

/-- Settles O56: the registers of both loops hold the index, and so does the sub-state on the way. -/
theorem roundIndexCounts : Obligations.RoundIndexCounts := by
  refine ⟨fun v key s d hdecode hready hd => ?construct, fun dir v dst src s d hdecode hready hd => ?crypt⟩
  case construct =>
    obtain ⟨sc, hrun, hregisters⟩ := microRun_construct hdecode hready hd
    exact ⟨_, hrun, rfl, hregisters.index⟩
  case crypt =>
    obtain ⟨sc, hrun, hregisters⟩ := microRun_crypt hdecode hready hd
    refine ⟨_, hrun, rfl, hregisters.index.trans ?_⟩
    cases dir with
    | encrypt => rfl
    | decrypt => cases hshape : v.shape <;> simp only [rtIndex, roundIndex, rtTrips, hshape]

end Sys2Proof
end
